-- ==== Sys2Proof/Word.lean ====
section
/-! DEFINITION. The word types of the block: what the spec treats as bits (00_scope.md R11). -/

namespace Sys2Proof

/-- A `u8`: a table entry, an intensity, a colour channel, an opcode (R10, R11). -/
abbrev Byte := BitVec 8

/-- A `u32`: a host register, a command word, a pixel word (R10, R11). -/
abbrev Word := BitVec 32

/-- A `u64`: the seed, and the state of the generator (R10, R122). -/
abbrev U64 := BitVec 64

/-- An `f64`, held as its IEEE 754 binary64 pattern: sign in bit 63, biased exponent in bits 62:52, fraction in
bits 51:0 (R13). Signed zeros and NaN payloads are distinct patterns. -/
abbrev F64 := BitVec 64

end Sys2Proof
end

