-- ==== Sys2Proof/Syntax.lean ====
section
/-! DEFINITION. The commands: one constructor per row of spec/opcode_table.json (30_encoding.md R94). -/

namespace Sys2Proof

/-- A command with the operands its word carries. The operands in registers (R98) are latched at acceptance and are no
part of the word. -/
inductive Instr where
  /-- NOP, format R (45_control.md R220). -/
  | nop
  /-- PERM_BUILD, format R (40_permutation_table.md R125). -/
  | permBuild
  /-- PERM_WRITE, format T: the 9-bit table index and the entry's new value (R92, R95, R96, R126). -/
  | permWrite (index : Nat) (data8 : Byte)
  /-- PERM_READ, format T: the 9-bit table index (R92, R95, R127). -/
  | permRead (index : Nat)
  /-- NOISE_EVAL, format R (41_gradient_noise.md R147). -/
  | noiseEval
  /-- FBM_EVAL, format R (42_fbm.md R173). -/
  | fbmEval
  /-- INTENSITY_MAP, format R (43_color_mapper.md R186). -/
  | intensityMap
  /-- COLOR_MAP, format I: the intensity (R93, R97, R187). -/
  | colorMap (imm8 : Byte)
  /-- PIXEL_EVAL, format R (R188). -/
  | pixelEval
  /-- RENDER, format R (44_render.md R200). -/
  | render
deriving DecidableEq, Repr

end Sys2Proof
end

