-- ==== Sys2Proof/WellFormed.lean ====
section
/-! DEFINITION. Which commands a word can carry. -/

namespace Sys2Proof

/-- INDEX is a 9-bit field, 0 to 511 (30_encoding.md R92, R95). An INDEX that fits the field and is out of the command's
range is well formed: it decodes, and acceptance faults it with BAD_INDEX (R243). -/
def Instr.wellFormed : Instr → Bool
  | .permWrite index _ => decide (index < 512)
  | .permRead index => decide (index < 512)
  | .nop => true
  | .permBuild => true
  | .noiseEval => true
  | .fbmEval => true
  | .intensityMap => true
  | .colorMap _ => true
  | .pixelEval => true
  | .render => true

end Sys2Proof
end

