-- ==== Sys2Proof/Decode.lean ====
section
/-! DEFINITION. The command decoder and encoder (30_encoding.md R90 to R102), total on every 32-bit word. -/

namespace Sys2Proof

/-- What the decoder answers for a word: a legal command, or the name of the check that fails first (R99, R248). -/
inductive Decoded where
  /-- The word encodes a legal command (R94). -/
  | command (i : Instr)
  /-- `w[7:0]` is not one of the ten opcodes (R100). -/
  | illegalOpcode
  /-- The opcode is legal and a bit of `RES(opc)` is set (R101). -/
  | reservedBits
deriving DecidableEq, Repr

/-- OPC, `w[7:0]` (R90). -/
def wordOpcode (w : Word) : Byte := w.extractLsb' 0 8

/-- INDEX, `w[16:8]`, zero-extended (R95). -/
def wordIndex (w : Word) : Nat := (w.extractLsb' 8 9).toNat

/-- DATA8, `w[31:24]` (R96). -/
def wordData8 (w : Word) : Byte := w.extractLsb' 24 8

/-- IMM8, `w[15:8]` (R97). -/
def wordImm8 (w : Word) : Byte := w.extractLsb' 8 8

/-- `RES(opc)`, the reserved-bit mask of R94's table; `none` where OPC is not in the table. -/
def reservedMask (opc : Byte) : Option Word :=
  match opc.toNat with
  | 0x00 => some 0xFFFFFF00#32
  | 0x01 => some 0xFFFFFF00#32
  | 0x02 => some 0x00FE0000#32
  | 0x03 => some 0xFFFE0000#32
  | 0x10 => some 0xFFFFFF00#32
  | 0x11 => some 0xFFFFFF00#32
  | 0x12 => some 0xFFFFFF00#32
  | 0x20 => some 0xFFFF0000#32
  | 0x21 => some 0xFFFFFF00#32
  | 0x30 => some 0xFFFFFF00#32
  | _ => none

/-- The command that OPC selects, its fields taken from the word (R94 to R97). -/
def commandOf (w : Word) : Option Instr :=
  match (wordOpcode w).toNat with
  | 0x00 => some .nop
  | 0x01 => some .permBuild
  | 0x02 => some (.permWrite (wordIndex w) (wordData8 w))
  | 0x03 => some (.permRead (wordIndex w))
  | 0x10 => some .noiseEval
  | 0x11 => some .fbmEval
  | 0x12 => some .intensityMap
  | 0x20 => some (.colorMap (wordImm8 w))
  | 0x21 => some .pixelEval
  | 0x30 => some .render
  | _ => none

/-- The first two checks of `accept` (R99): the opcode, then its reserved bits. Nothing but the word matters (R102). -/
def decode (w : Word) : Decoded :=
  match reservedMask (wordOpcode w), commandOf w with
  | some mask, some i => if w &&& mask = 0#32 then .command i else .reservedBits
  | _, _ => .illegalOpcode

/-- Format R: OPC in bits 7:0, every other bit 0 (R91). -/
def formatR (opc : Byte) : Word := opc.zeroExtend 32

/-- Format T: DATA8 in bits 31:24, INDEX in bits 16:8 (R92). -/
def formatT (opc : Byte) (index : BitVec 9) (data8 : Byte) : Word :=
  (data8.zeroExtend 32 <<< 24) ||| (index.zeroExtend 32 <<< 8) ||| opc.zeroExtend 32

/-- Format I: IMM8 in bits 15:8 (R93). -/
def formatI (opc imm8 : Byte) : Word := (imm8.zeroExtend 32 <<< 8) ||| opc.zeroExtend 32

/-- The opcode of each command (R94). -/
def Instr.opcode : Instr → Byte
  | .nop => 0x00#8
  | .permBuild => 0x01#8
  | .permWrite _ _ => 0x02#8
  | .permRead _ => 0x03#8
  | .noiseEval => 0x10#8
  | .fbmEval => 0x11#8
  | .intensityMap => 0x12#8
  | .colorMap _ => 0x20#8
  | .pixelEval => 0x21#8
  | .render => 0x30#8

/-- The word of a well-formed command, from the formats and the opcode map (R91 to R94). -/
def encode (i : Instr) : Word :=
  match i with
  | .nop => formatR i.opcode
  | .permBuild => formatR i.opcode
  | .permWrite index data8 => formatT i.opcode (BitVec.ofNat 9 index) data8
  | .permRead index => formatT i.opcode (BitVec.ofNat 9 index) 0#8
  | .noiseEval => formatR i.opcode
  | .fbmEval => formatR i.opcode
  | .intensityMap => formatR i.opcode
  | .colorMap imm8 => formatI i.opcode imm8
  | .pixelEval => formatR i.opcode
  | .render => formatR i.opcode

/-- The command this decoder reads from the `nbits` low bits of `w`, every higher bit being 0. A command is one 32-bit word,
the data of one CMD write (R90), so there is one word to lay out and bit 0 of `w` is its bit 0. -/
def decodeTableWord (nbits w : Nat) : Option Instr :=
  match decode (BitVec.ofNat 32 (w % 2 ^ nbits)) with
  | .command i => some i
  | .illegalOpcode => none
  | .reservedBits => none

end Sys2Proof
end

