-- ==== Sys2Proof/Config.lean ====
section
/-! DEFINITION. What an implementation fixes (00_scope.md R10) and the free values: the constants without a body stand for
every value the spec allows, and no proof can learn which one it is. -/

namespace Sys2Proof

/-- The two readings of the named parameter `INTENSITY_NARROW` (R10, R182). -/
inductive Narrowing where
  | saturate
  | wrap
deriving DecidableEq, Repr

/-- `INTENSITY_NARROW` of this hardware: SATURATE (R10, 92_eei_decisions.md D13; log entry 9). The functions that use it
take the setting as an argument, so the WRAP reading is modelled too. -/
def Config.intensityNarrow : Narrowing := .saturate

/-- `PIX_FIFO_DEPTH` less one: an OPEN parameter (R10, D21), any of 0 to 254 (log entry 8). -/
opaque Config.pixFifoDepthPred : Fin 255

/-- `PIX_FIFO_DEPTH`: an integer from 1 to 255 (R10, R45). -/
def Config.pixFifoDepth : Nat := Config.pixFifoDepthPred.val + 1

/-- The byte that entry `i` of `PT` holds after the `n`-th aborted PERM_BUILD: unspecified, "any 256 bytes"
(45_control.md R222, 93_implementation_defined.md U5; log entry 10). -/
opaque Config.unspecifiedByte : (n i : Nat) → Byte

/-- The sign (bit 51) and payload (bits 50:0) of the quiet NaN that an operation on two operands answers. The spec names
no NaN pattern; acceptance keeps every NaN out of the engine (60_exceptions.md R245; log entry 11). -/
opaque Config.nanSignPayload : (a b : F64) → BitVec 52

/-- The floor of a non-finite value: it has none, and no accepted command asks (R146; log entry 12). -/
opaque Config.floorOfNonFinite : F64 → Int

/-- The narrowing of a NaN, or under WRAP of an infinity: it has none, and no accepted command asks
(R182, U1; log entry 12). -/
opaque Config.narrowOfUndefined : F64 → Byte

end Sys2Proof
end

