-- ==== Sys2Proof/Machine/State.lean ====
section
/-! DEFINITION. The state of the block (10_state.md R20 to R46), of its ports, and of the agents around it; the machine
after reset (70_reset_and_hazards.md R271); the names of what stops a step. -/

namespace Sys2Proof.Machine

/-- Where the table came from (R41). The value 3 is reserved and never entered, so it has no constructor. -/
inductive TableState where
  | none
  | built
  | host
deriving DecidableEq, Repr

/-- What STATUS.ERR_CODE holds (60_exceptions.md R240). Codes 7 to 15 are never written, so they have no constructor. -/
inductive ErrCode where
  | none
  | illegalOpcode
  | reservedBits
  | badIndex
  | noTable
  | nonFinite
  | aborted
deriving DecidableEq, Repr

/-- The operands copied when a command is accepted (R43). -/
structure Latched where
  seed : U64
  x : F64
  y : F64
  width : BitVec 16
  height : BitVec 16
  octaves : Byte
  index : Nat
  data8 : Byte
  imm8 : Byte
deriving DecidableEq, Repr

/-- The position of a RENDER in flight (R44): the next column, the next row, and how many pixels have been emitted.
None of the three can reach the end of its width, so they are numbers (log entry 15). -/
structure RenderSeq where
  rx : Nat
  ry : Nat
  produced : Nat
deriving DecidableEq, Repr

/-- The engine (R42): idle, or running the accepted word on its latched operands. The sequencer exists only while a
RENDER is in flight (R44). -/
inductive Engine where
  | idle
  | busy (cmd : Word) (l : Latched) (seq : Option RenderSeq)
deriving DecidableEq, Repr

/-- An entry of the output queue: a pixel word and whether it is the frame's last (R45). -/
structure PixEntry where
  word : Word
  last : Bool
deriving DecidableEq, Repr

/-- A host transaction (20_memory.md R61): a read, or a write with its four byte strobes. -/
inductive HostReq where
  | read (addr : BitVec 8)
  | write (addr : BitVec 8) (data : Word) (strb : BitVec 4)
deriving DecidableEq, Repr

/-- The response to a transaction (R61): `hrsp_err`, and `hrsp_rdata` for a read. The spec gives a write no read data. -/
structure HostRsp where
  err : Bool
  rdata : Option Word
deriving DecidableEq, Repr

/-- Which agent moves next (00_scope.md R8). A turn whose agent has no enabled step changes nothing but the schedule. -/
inductive Turn where
  /-- The engine takes a completion or produce step. -/
  | engine
  /-- The host issues its next transaction. -/
  | host
  /-- The host takes the outstanding response. -/
  | response
  /-- The sink holds `pix_ready` at 1 and takes the head of the queue. -/
  | sink
  /-- `rst_n` falls. -/
  | rstAssert
  /-- `rst_n` rises. -/
  | rstRelease
deriving DecidableEq, Repr

/-- What surrounds the block: its reset input and response port, and the model's own record of the other agents
(log entries 1, 6, 7, 10, 17). -/
structure Env where
  /-- The level of the input `rst_n` (70_reset_and_hazards.md R270). -/
  rstN : Bool
  /-- The response the block holds for the host (R61, R272). -/
  rsp : Option HostRsp
  /-- Which agents move, first to last. -/
  turns : List Turn
  /-- The transactions the host has yet to issue, in its order. -/
  requests : List HostReq
  /-- The responses the host has taken, first to last. -/
  responses : List HostRsp
  /-- The pixels the sink has taken, first to last. -/
  received : List PixEntry
  /-- How many unspecified tables have been drawn (45_control.md R222). -/
  draws : Nat
deriving DecidableEq, Repr

/-- The table space (20_memory.md R60, R69): (index, byte) pairs in the one canonical form of `Memory.wf`. -/
abbrev Memory := List Host.Cell

/-- What an index of the table that is not listed reads as: its reset content, the identity with `PT[256] = 0` (R40). -/
def resetEntry (i : Nat) : Byte := BitVec.ofNat 8 i

/-- The canonical form: indices strictly rising, all of them in 0 to 256, no entry equal to what an unlisted index reads as. -/
def Memory.wf (m : Memory) : Bool :=
  decide (m.Pairwise (fun a b => a.1 < b.1)) && m.all (fun c => decide (c.1 ≤ 256) && decide (c.2 ≠ resetEntry c.1))

/-- The state of the machine. ID, VERSION and CONFIG are constants (R22, R23, R37); CMD is not storage (R26); STATUS.BUSY
is the engine's state (R42); `irq` and the pixel port are computed (R45, R46). -/
structure State where
  /-- CTRL.IE_DONE (R24). -/
  ieDone : Bool
  /-- CTRL.IE_ERR (R24). -/
  ieErr : Bool
  /-- STATUS.DONE (R25). -/
  done : Bool
  /-- STATUS.ERR (R25). -/
  err : Bool
  /-- STATUS.OVR (R25). -/
  ovr : Bool
  /-- STATUS.ERR_CODE (R25, R240). -/
  errCode : ErrCode
  /-- STATUS.LAST_OPC (R25). -/
  lastOpc : Byte
  /-- PERM_DATA (R27). -/
  permData : Byte
  /-- SEED_LO (R28). -/
  seedLo : Word
  /-- SEED_HI (R28). -/
  seedHi : Word
  /-- X_LO (R29). -/
  xLo : Word
  /-- X_HI (R29). -/
  xHi : Word
  /-- Y_LO (R30). -/
  yLo : Word
  /-- Y_HI (R30). -/
  yHi : Word
  /-- DIMS (R31). -/
  dims : Word
  /-- OCTAVES (R32). -/
  octaves : Byte
  /-- RESULT_LO (R33). -/
  resultLo : Word
  /-- RESULT_HI (R33). -/
  resultHi : Word
  /-- INTENSITY (R34). -/
  intensity : Byte
  /-- COLOR (R35). -/
  color : Word
  /-- PIXEL_COUNT (R36). -/
  pixelCount : Word
  /-- ERR_CMD (R38). -/
  errCmd : Word
  /-- TABLE_STATE, mirrored in STATUS[5:4] (R41). -/
  tableState : TableState
  /-- The permutation table (R40). -/
  pt : Memory
  /-- The engine, its latched operands and the render sequencer (R42 to R44). -/
  engine : Engine
  /-- The output queue (R45). -/
  q : List PixEntry
  /-- The ports and the agents around the block. -/
  env : Env
deriving DecidableEq, Repr

/-- What stops a step. No event of this hardware does (60_exceptions.md R250: a fault of the spec is a recording, after
which the machine goes on), so each of these names a state that no run reaches (log entry 14). -/
inductive Fault where
  /-- Raised by a meaning asked for an engine step of a command that is not the one in flight. Safe: `step` asks only for
  the command it decodes from the word in flight. -/
  | commandNotInFlight
  /-- Raised by an engine step when the word in flight encodes no command. Safe: acceptance comes after decoding (R99). -/
  | undecodableInFlight
  /-- Raised by PERM_READ or PERM_WRITE on a latched index that the table does not have (20_memory.md R69). Safe:
  acceptance refuses it with BAD_INDEX (R243). -/
  | noSuchEntry
  /-- Raised by RENDER in flight without its sequencer (R44). Safe: acceptance makes the sequencer (44_render.md R200). -/
  | noSequencer
deriving DecidableEq, Repr

/-- Why an instruction has no meaning. -/
inductive Refusal where
  /-- Raised by `exec` for an instruction that is not modelled; no arm of this model raises it. Safe. -/
  | notModelled (mnemonic : String)
deriving DecidableEq, Repr

/-- What a step answers. -/
abbrev Result := Host.Outcome State Fault Refusal

/-- The agents before any of them has moved: `rst_n` high, nothing scheduled, requested or received (log entries 1 and 7). -/
def Env.initial : Env :=
  { rstN := true, rsp := Option.none, turns := [], requests := [], responses := [], received := [], draws := 0 }

/-- The machine right after reset (R271): every register 0, the identity table with TABLE_STATE = NONE, the engine IDLE,
the queue empty. -/
def State.reset : State :=
  { ieDone := false, ieErr := false, done := false, err := false, ovr := false, errCode := .none, lastOpc := 0#8,
    permData := 0#8, seedLo := 0#32, seedHi := 0#32, xLo := 0#32, xHi := 0#32, yLo := 0#32, yHi := 0#32,
    dims := 0#32, octaves := 0#8, resultLo := 0#32, resultHi := 0#32, intensity := 0#8, color := 0#32,
    pixelCount := 0#32, errCmd := 0#32, tableState := .none, pt := [], engine := .idle, q := [], env := Env.initial }

/-- SEED = {SEED_HI, SEED_LO} (R28). -/
def State.seed (s : State) : U64 := s.seedHi ++ s.seedLo

/-- X = f64bits({X_HI, X_LO}) (R29). -/
def State.x (s : State) : F64 := s.xHi ++ s.xLo

/-- Y = f64bits({Y_HI, Y_LO}) (R30). -/
def State.y (s : State) : F64 := s.yHi ++ s.yLo

/-- RESULT = f64bits({RESULT_HI, RESULT_LO}) (R33). -/
def State.result (s : State) : F64 := s.resultHi ++ s.resultLo

/-- STATUS.BUSY: 1 exactly when a command is in flight (R42). -/
def State.busy (s : State) : Bool :=
  match s.engine with
  | .idle => false
  | .busy _ _ _ => true

end Sys2Proof.Machine
end

