-- ==== Sys2Proof/Machine/Ops.lean ====
section
/-! DEFINITION. The named operations over the table, the engine and the status bits. The recording of a fault (60_exceptions.md
R247), the block's only trap, is one operation here; the return from it, a STATUS write, is `writeStatus` in Flags.lean. -/

namespace Sys2Proof.Machine

/-- `PT[i]` (R121): what the list holds for `i`, else the reset content. -/
def Memory.read (m : Memory) (i : Nat) : Byte :=
  match m with
  | [] => resetEntry i
  | (a, b) :: rest => if a = i then b else Memory.read rest i

/-- Put entry `i` into place in the list, before the first larger index, replacing what stood for `i`. -/
def Memory.insert (m : Memory) (i : Nat) (v : Byte) : Memory :=
  match m with
  | [] => [(i, v)]
  | (a, b) :: rest =>
    if i < a then (i, v) :: (a, b) :: rest
    else if a = i then (i, v) :: rest
    else (a, b) :: Memory.insert rest i v

/-- Take entry `i` out of the list, so that it reads as its reset content. -/
def Memory.erase (m : Memory) (i : Nat) : Memory :=
  match m with
  | [] => []
  | (a, b) :: rest => if a = i then rest else (a, b) :: Memory.erase rest i

/-- `PT[i] <- v`, in canonical form. -/
def Memory.write (m : Memory) (i : Nat) (v : Byte) : Memory :=
  if v = resetEntry i then m.erase i else m.insert i v

/-- The table whose entry `i` is `f i`, for every `i` in 0 to 256, in canonical form. -/
def tableOf (f : Nat → Byte) : Memory :=
  (List.range 257).filterMap (fun i => if f i = resetEntry i then none else some (i, f i))

/-- `for i in 0..256: PT[i] <- T[i]` (R125). -/
def tableOfList (t : List Byte) : Memory := tableOf (fun i => t.getD i 0#8)

/-- The table after the `n`-th abort of PERM_BUILD: entries 0 to 255 are unspecified bytes and `PT[256] = PT[0]`
(45_control.md R222). -/
def unspecifiedTable (n : Nat) : Memory :=
  tableOf (fun i => if i = 256 then Config.unspecifiedByte n 0 else Config.unspecifiedByte n i)

/-- What a command latches when it is accepted: every operand register and the fields of its word (10_state.md R43). -/
def latch (w : Word) (s : State) : Latched :=
  { seed := s.seed, x := s.x, y := s.y, width := s.dims.extractLsb' 0 16, height := s.dims.extractLsb' 16 16,
    octaves := s.octaves, index := wordIndex w, data8 := wordData8 w, imm8 := wordImm8 w }

/-- `fault(code, w)`: what a fault raised by `accept` records; nothing else changes (60_exceptions.md R247). -/
def recordFault (code : ErrCode) (w : Word) (s : State) : State :=
  { s with lastOpc := wordOpcode w, err := true, errCode := code, errCmd := w }

/-- Acceptance of a command other than RENDER: LAST_OPC, the latch, `BUSY(w, L)` (30_encoding.md R99, 45_control.md R224).
DONE, ERR and OVR stay. -/
def acceptCommand (w : Word) (s : State) : State :=
  { s with lastOpc := wordOpcode w, engine := .busy w (latch w s) none }

/-- Acceptance of a RENDER: as of any command, and PIXEL_COUNT and the sequencer start at 0 (44_render.md R200). -/
def acceptRender (w : Word) (s : State) : State :=
  { s with lastOpc := wordOpcode w, engine := .busy w (latch w s) (some ⟨0, 0, 0⟩), pixelCount := 0#32 }

/-- What every completion does: BUSY <- 0, DONE <- 1, the engine IDLE (45_control.md R225, 44_render.md R205). -/
def finish (s : State) : State := { s with engine := .idle, done := true }

/-- RESULT <- bits(v) (10_state.md R33). -/
def setResult (v : F64) (s : State) : State :=
  { s with resultLo := v.extractLsb' 0 32, resultHi := v.extractLsb' 32 32 }

/-- A CMD write while BUSY: only OVR is set, and the word is discarded (60_exceptions.md R249). -/
def rejectOverrun (s : State) : State := { s with ovr := true }

/-- `abort()` (45_control.md R222). Only PERM_BUILD leaves the table changed: its entries are then a fresh draw. An abort of a RENDER
may come after the sink took the last pixel and before the completion step: the frame's `pix_last` has then been sent, and
PIXEL_COUNT is W * H (DESIGN CHOICE, log entry 22). -/
def abortCommand (s : State) : State :=
  match s.engine with
  | .idle => s
  | .busy cmd _ _ =>
    if wordOpcode cmd = 0x01#8 then
      { s with q := [], pt := unspecifiedTable s.env.draws, tableState := .none, engine := .idle, err := true,
               errCode := .aborted, errCmd := cmd, env := { s.env with draws := s.env.draws + 1 } }
    else
      { s with q := [], engine := .idle, err := true, errCode := .aborted, errCmd := cmd }

/-- `reset()` (70_reset_and_hazards.md R271): every piece of the block's state. The ports and the other agents are not the
block's state; SOFT_RESET's own write still gets its response (R272). What the sink has taken of a RENDER in flight
may be the whole frame, its last pixel included (DESIGN CHOICE, log entry 22). -/
def blockReset (s : State) : State := { State.reset with env := s.env }

/-- `rst_n` falls: `reset()`, and an outstanding response is dropped (R270, R272). As with `blockReset`, the sink may have the whole
frame of a RENDER in flight (DESIGN CHOICE, log entry 22). -/
def assertReset (s : State) : State :=
  { State.reset with env := { s.env with rstN := false, rsp := none } }

/-- `rst_n` rises (R272). -/
def releaseReset (s : State) : State := { s with env := { s.env with rstN := true } }

/-- Set the response the block holds for the host (20_memory.md R61). -/
def respond (r : HostRsp) (s : State) : State := { s with env := { s.env with rsp := some r } }

/-- The host takes the outstanding response, if there is one (R61). -/
def takeResponse (s : State) : State :=
  match s.env.rsp with
  | none => s
  | some r => { s with env := { s.env with rsp := none, responses := s.env.responses ++ [r] } }

/-- A sink transfer: the head of Q leaves and PIXEL_COUNT counts it (44_render.md R204). With Q empty, `pix_valid` is 0 and
there is no transfer. A transfer leaves a RENDER in flight, the frame's last one too, so an abort or a reset can still come between
it and the completion step (DESIGN CHOICE, log entry 22). -/
def sinkTransfer (s : State) : State :=
  match s.q with
  | [] => s
  | e :: rest =>
    { s with q := rest, pixelCount := s.pixelCount + 1#32, env := { s.env with received := s.env.received ++ [e] } }

/-- `pix_valid`: 1 exactly when Q is non-empty (10_state.md R45). -/
def pixValid (s : State) : Bool := !s.q.isEmpty

/-- `pix_data` and `pix_last`: the head of Q, while `pix_valid` is 1 (R45). -/
def pixHead (s : State) : Option PixEntry := s.q.head?

/-- The two halves of a command. With the engine IDLE, the word of `i` is presented: the first check that fails decides the
fault, and with none the command is accepted (30_encoding.md R99). With `i` in flight, the engine takes one step of it on
the latched operands (45_control.md R225). -/
def runCommand (i : Instr) (check : State → Option ErrCode) (accept : Word → State → State)
    (engineStep : Latched → Option RenderSeq → Result) (s : State) : Result :=
  match s.engine with
  | .idle =>
    match check s with
    | some code => .next (recordFault code (encode i) s)
    | none => .next (accept (encode i) s)
  | .busy cmd l seq => if cmd = encode i then engineStep l seq else .fault .commandNotInFlight

end Sys2Proof.Machine
end

