-- ==== Sys2Proof/Machine/Flags.lean ====
section
/-! DEFINITION. The status flags: the words of STATUS and CTRL, the write that clears, and the interrupt (10_state.md R24, R25,
R46, R49; 60_exceptions.md R240, R251, R253). -/

namespace Sys2Proof.Machine

/-- The 2-bit value of TABLE_STATE (R41). -/
def tableStateBits : TableState → BitVec 2
  | .none => 0#2
  | .built => 1#2
  | .host => 2#2

/-- The 4-bit value of an error code (R240). -/
def errCodeBits : ErrCode → BitVec 4
  | .none => 0#4
  | .illegalOpcode => 1#4
  | .reservedBits => 2#4
  | .badIndex => 3#4
  | .noTable => 4#4
  | .nonFinite => 5#4
  | .aborted => 6#4

/-- What a read of CTRL returns: `{28'b0, IE_ERR, IE_DONE, 0, 0}` (R24). -/
def ctrlWord (s : State) : Word :=
  (0#28 ++ BitVec.ofBool s.ieErr ++ BitVec.ofBool s.ieDone ++ 0#2 : BitVec (28 + 1 + 1 + 2))

/-- What a read of STATUS returns, field by field from bit 31 down (R25). -/
def statusWord (s : State) : Word :=
  (0#8 ++ s.lastOpc ++ 0#4 ++ errCodeBits s.errCode ++ 0#2 ++ tableStateBits s.tableState ++ BitVec.ofBool s.ovr
    ++ BitVec.ofBool s.err ++ BitVec.ofBool s.done ++ BitVec.ofBool s.busy : BitVec (8 + 8 + 4 + 4 + 2 + 2 + 1 + 1 + 1 + 1))

/-- A write of STATUS, which is also the return from a recorded fault: bits 1, 2, 3 clear DONE, ERR, OVR; clearing ERR
clears ERR_CODE, even when ERR was 0; every other bit is ignored (R25, R251). -/
def writeStatus (v : Word) (s : State) : State :=
  { s with done := s.done && !v.getLsbD 1, err := s.err && !v.getLsbD 2, ovr := s.ovr && !v.getLsbD 3,
           errCode := if v.getLsbD 2 then .none else s.errCode }

/-- `irq = (DONE & IE_DONE) | ((ERR | OVR) & IE_ERR)`, in every state (R46, R253). -/
def irq (s : State) : Bool := (s.done && s.ieDone) || ((s.err || s.ovr) && s.ieErr)

/-- A write of CTRL (45_control.md R221): SOFT_RESET takes precedence over every other bit; else the enables are written
and ABORT acts while BUSY. -/
def writeCtrl (v : Word) (s : State) : State :=
  if v.getLsbD 0 then blockReset s
  else
    let s1 := { s with ieDone := v.getLsbD 2, ieErr := v.getLsbD 3 }
    if v.getLsbD 1 && s1.busy then abortCommand s1 else s1

end Sys2Proof.Machine
end

