-- ==== Sys2Proof/Machine/Registers.lean ====
section
/-! DEFINITION. The register map and the host transaction (10_state.md R21 to R39, 20_memory.md R60 to R71). -/

namespace Sys2Proof.Machine

/-- The 21 host-visible registers (R21). -/
inductive Reg where
  | id | version | ctrl | status | cmd | permData | seedLo | seedHi | xLo | xHi | yLo | yHi
  | dims | octaves | resultLo | resultHi | intensity | color | pixelCount | config | errCmd
deriving DecidableEq, Repr

/-- Every register, in the order of R21's table. -/
def allRegs : List Reg :=
  [.id, .version, .ctrl, .status, .cmd, .permData, .seedLo, .seedHi, .xLo, .xHi, .yLo, .yHi,
   .dims, .octaves, .resultLo, .resultHi, .intensity, .color, .pixelCount, .config, .errCmd]

/-- The byte offset of a register (R21). -/
def regOffset : Reg → BitVec 8
  | .id => 0x00#8
  | .version => 0x04#8
  | .ctrl => 0x08#8
  | .status => 0x0C#8
  | .cmd => 0x10#8
  | .permData => 0x14#8
  | .seedLo => 0x18#8
  | .seedHi => 0x1C#8
  | .xLo => 0x20#8
  | .xHi => 0x24#8
  | .yLo => 0x28#8
  | .yHi => 0x2C#8
  | .dims => 0x30#8
  | .octaves => 0x34#8
  | .resultLo => 0x38#8
  | .resultHi => 0x3C#8
  | .intensity => 0x40#8
  | .color => 0x44#8
  | .pixelCount => 0x48#8
  | .config => 0x4C#8
  | .errCmd => 0x50#8

/-- The register at a word-aligned offset; `none` for the reserved ones (R21, R39). -/
def regAt (addr : BitVec 8) : Option Reg := allRegs.find? (fun r => regOffset r == addr)

/-- NARROW_WRAP, CONFIG bit 0 (R37). -/
def narrowBit : Narrowing → BitVec 1
  | .saturate => 0#1
  | .wrap => 1#1

/-- CONFIG: `{16'b0, PIX_FIFO_DEPTH, 7'b0, NARROW_WRAP}` (R37). -/
def configWord : Word :=
  (0#16 ++ BitVec.ofNat 8 Config.pixFifoDepth ++ 0#7 ++ narrowBit Config.intensityNarrow : BitVec (16 + 8 + 7 + 1))

/-- What a read of a register returns (R22 to R38). ID, VERSION and CONFIG are hard-wired; CMD reads 0. -/
def readReg (r : Reg) (s : State) : Word :=
  match r with
  | .id => 0x504E3244#32
  | .version => 0x00010000#32
  | .ctrl => ctrlWord s
  | .status => statusWord s
  | .cmd => 0#32
  | .permData => s.permData.zeroExtend 32
  | .seedLo => s.seedLo
  | .seedHi => s.seedHi
  | .xLo => s.xLo
  | .xHi => s.xHi
  | .yLo => s.yLo
  | .yHi => s.yHi
  | .dims => s.dims
  | .octaves => s.octaves.zeroExtend 32
  | .resultLo => s.resultLo
  | .resultHi => s.resultHi
  | .intensity => s.intensity.zeroExtend 32
  | .color => s.color
  | .pixelCount => s.pixelCount
  | .config => configWord
  | .errCmd => s.errCmd

/-- What a read of a word-aligned offset returns: a reserved one reads 0 (R39, R65). -/
def readOffset (addr : BitVec 8) (s : State) : Word :=
  match regAt addr with
  | some r => readReg r s
  | none => 0#32

/-- A write to CMD (10_state.md R26, 45_control.md R223). While BUSY the word is rejected. While IDLE it is decoded: an illegal
or reserved word is a fault, and a command's word goes to `run`, the meaning of the command. -/
def writeCmd (run : Instr → State → Result) (w : Word) (s : State) : Result :=
  if s.busy then .next (rejectOverrun s)
  else
    match decode w with
    | .command i => run i s
    | .illegalOpcode => .next (recordFault .illegalOpcode w s)
    | .reservedBits => .next (recordFault .reservedBits w s)

/-- A write to a register: RW fields store, CTRL, STATUS and CMD act, read-only ones ignore the write (R21, R64). -/
def writeReg (run : Instr → State → Result) (r : Reg) (v : Word) (s : State) : Result :=
  match r with
  | .ctrl => .next (writeCtrl v s)
  | .status => .next (writeStatus v s)
  | .cmd => writeCmd run v s
  | .seedLo => .next { s with seedLo := v }
  | .seedHi => .next { s with seedHi := v }
  | .xLo => .next { s with xLo := v }
  | .xHi => .next { s with xHi := v }
  | .yLo => .next { s with yLo := v }
  | .yHi => .next { s with yHi := v }
  | .dims => .next { s with dims := v }
  | .octaves => .next { s with octaves := v.extractLsb' 0 8 }
  | .id => .next s
  | .version => .next s
  | .permData => .next s
  | .resultLo => .next s
  | .resultHi => .next s
  | .intensity => .next s
  | .color => .next s
  | .pixelCount => .next s
  | .config => .next s
  | .errCmd => .next s

/-- A write to a word-aligned offset: a reserved one has no effect (R39, R65). -/
def writeOffset (run : Instr → State → Result) (addr : BitVec 8) (v : Word) (s : State) : Result :=
  match regAt addr with
  | some r => writeReg run r v s
  | none => .next s

/-- `addr[1:0] = 0` (R63). -/
def aligned (addr : BitVec 8) : Bool := addr.extractLsb' 0 2 == 0#2

/-- One host transaction in one step (R61): a misaligned address or a partial strobe answers `err = 1` and changes nothing
(R62, R63); else `err = 0`, a read's data is the register's value just before the step's writes, and a write has its
register's effect (R64). -/
def hostTransact (run : Instr → State → Result) (req : HostReq) (s : State) : Result :=
  match req with
  | .read addr =>
    if aligned addr then .next (respond { err := false, rdata := some (readOffset addr s) } s)
    else .next (respond { err := true, rdata := some 0#32 } s)
  | .write addr data strb =>
    if aligned addr && strb == 0xF#4 then writeOffset run addr data (respond { err := false, rdata := none } s)
    else .next (respond { err := true, rdata := none } s)

end Sys2Proof.Machine
end

