-- ==== Sys2Proof/Machine/Agents.lean ====
section
/-! DEFINITION. What each agent's turn does (00_scope.md R8), given the meaning of the commands. -/

namespace Sys2Proof.Machine

/-- The engine's turn: idle, it has no step (60_exceptions.md R260); busy, the word in flight is decoded and its command
takes one engine step (45_control.md R225). -/
def engineTurn (run : Instr → State → Result) (s : State) : Result :=
  match s.engine with
  | .idle => .next s
  | .busy cmd _ _ =>
    match decode cmd with
    | .command i => run i s
    | .illegalOpcode => .fault .undecodableInFlight
    | .reservedBits => .fault .undecodableInFlight

/-- The host's turn: it issues its next transaction, unless it still waits for a response (20_memory.md R61: one transaction at
a time). -/
def hostTurn (run : Instr → State → Result) (s : State) : Result :=
  match s.env.rsp, s.env.requests with
  | none, req :: rest => hostTransact run req { s with env := { s.env with requests := rest } }
  | _, _ => .next s

/-- The turn of an agent while `rst_n` is high. -/
def takeTurn (run : Instr → State → Result) (t : Turn) (s : State) : Result :=
  match t with
  | .engine => engineTurn run s
  | .host => hostTurn run s
  | .response => .next (takeResponse s)
  | .sink => .next (sinkTransfer s)
  | .rstAssert => .next (assertReset s)
  | .rstRelease => .next s

/-- The turn of an agent while `rst_n` is low: the block takes no step, requests wait, nothing transfers, and only a rising
`rst_n` changes anything (70_reset_and_hazards.md R270, R272). -/
def heldTurn (t : Turn) (s : State) : State :=
  match t with
  | .rstRelease => releaseReset s
  | .engine => s
  | .host => s
  | .response => s
  | .sink => s
  | .rstAssert => s

/-- The turn of an agent, by the level of `rst_n`. -/
def anyTurn (run : Instr → State → Result) (t : Turn) (s : State) : Result :=
  if s.env.rstN then takeTurn run t s else .next (heldTurn t s)

/-- One step: the scheduled agent moves, and with nothing scheduled the engine does (45_control.md R226, log entry 2). -/
def scheduledStep (run : Instr → State → Result) (s : State) : Result :=
  match s.env.turns with
  | [] => anyTurn run .engine s
  | t :: rest => anyTurn run t { s with env := { s.env with turns := rest } }

/-- The state in which the very next step is the host's write of `w` to CMD with the engine free to take it: `rst_n` high, no
response outstanding, no command in flight and none of its pixels queued (log entry 3). -/
def withCommandWrite (w : Word) (s : State) : State :=
  { s with
    engine := .idle, q := [],
    env := { s.env with
      rstN := true, rsp := none, turns := .host :: s.env.turns,
      requests := .write (regOffset .cmd) w 0xF#4 :: s.env.requests } }

end Sys2Proof.Machine
end

