-- ==== Sys2Proof/Machine/Binary64.lean ====
section
/-! DEFINITION. IEEE 754 binary64 arithmetic on patterns (00_scope.md R13): operands become exact integers, the exact result
is formed, and one function rounds it, to nearest with ties to even. The unit of the integers is 2^-1074, the smallest
subnormal: every finite value is a whole number of units. Signed zeros, overflow to an infinity and gradual underflow are
those of IEEE 754, which R13 names (log entry 19). -/

namespace Sys2Proof.Machine

/-- 2^1074: how many units make 1.0. Irreducible only so that elaboration never writes the number out. -/
@[irreducible] def f64One : Nat := 2 ^ 1074

/-- The sign bit, bit 63. -/
def f64Sign (a : F64) : Bool := a.getLsbD 63

/-- The biased exponent, bits 62:52. -/
def f64Exp (a : F64) : Nat := (a.extractLsb' 52 11).toNat

/-- The fraction, bits 51:0. -/
def f64Frac (a : F64) : Nat := (a.extractLsb' 0 52).toNat

/-- `isfinite(v)`: neither an infinity nor a NaN (R13). -/
def f64IsFinite (a : F64) : Bool := f64Exp a != 2047

/-- A NaN of any sign or payload. -/
def f64IsNaN (a : F64) : Bool := f64Exp a == 2047 && f64Frac a != 0

/-- An infinity of either sign. -/
def f64IsInf (a : F64) : Bool := f64Exp a == 2047 && f64Frac a == 0

/-- The magnitude of a finite value in units: fraction * 2^-1074 where the exponent field is 0, else
(2^52 + fraction) * 2^(exponent - 1) units. -/
def f64Mag (a : F64) : Nat :=
  if f64Exp a = 0 then f64Frac a else (2 ^ 52 + f64Frac a) * 2 ^ (f64Exp a - 1)

/-- A finite value in units, exactly. -/
def f64Units (a : F64) : Int := if f64Sign a then -(f64Mag a : Int) else f64Mag a

/-- The pattern of an infinity without its sign: exponent field 2047, fraction 0. -/
def f64InfMag : Nat := 2047 * 2 ^ 52

/-- The pattern with this sign and this magnitude pattern (bits 62:0). -/
def f64Pack (neg : Bool) (mag : Nat) : F64 := BitVec.ofNat 64 (mag + if neg then 2 ^ 63 else 0)

/-- The magnitude pattern nearest to `num / den` units, ties to even, overflowing to the infinity. Patterns of one
exponent are `2 ^ e` units apart, so `num / (den * 2 ^ e)` is the significand with what rounding drops as its remainder.
Adding the significand to `e * 2 ^ 52` carries a significand that rounds up to `2 ^ 53` into the exponent. -/
def f64RoundMag (num den : Nat) : Nat :=
  let e := Nat.log2 (num / den) - 52
  let d := den * 2 ^ e
  let m := num / d
  let r := num % d
  let up := if d < 2 * r ∨ (2 * r = d ∧ m % 2 = 1) then 1 else 0
  min (e * 2 ^ 52 + m + up) f64InfMag

/-- The NaN an operation on `a` and `b` answers: quiet, its sign and payload free (log entry 11). -/
def f64NaN (a b : F64) : F64 :=
  let sp := Config.nanSignPayload a b
  sp.extractLsb' 51 1 ++ 0xFFF#12 ++ sp.extractLsb' 0 51

/-- The binary64 value nearest to a rational: sign, numerator, denominator (R13, R104 `setx`). -/
def f64OfRat (neg : Bool) (num den : Nat) : F64 := f64Pack neg (f64RoundMag (num * f64One) den)

/-- `f64(n)`: the binary64 value of an integer (R13). The integer 0 has no sign and gives +0.0. -/
def f64OfInt (n : Int) : F64 := f64OfRat (decide (n < 0)) n.natAbs 1

/-- Unary minus flips the sign bit and is exact (R13). -/
def f64Neg (a : F64) : F64 := a ^^^ (1#64 <<< 63)

/-- One binary64 addition (R13). An exact sum of zero is -0.0 only when both operands are negative. -/
def f64Add (a b : F64) : F64 :=
  if f64IsNaN a || f64IsNaN b then f64NaN a b
  else if f64IsInf a then (if f64IsInf b && (f64Sign a != f64Sign b) then f64NaN a b else a)
  else if f64IsInf b then b
  else
    let u := f64Units a + f64Units b
    if u = 0 then f64Pack (f64Sign a && f64Sign b) 0 else f64Pack (decide (u < 0)) (f64RoundMag u.natAbs 1)

/-- One binary64 subtraction (R13). -/
def f64Sub (a b : F64) : F64 := f64Add a (f64Neg b)

/-- One binary64 multiplication (R13). -/
def f64Mul (a b : F64) : F64 :=
  let neg := f64Sign a != f64Sign b
  if f64IsNaN a || f64IsNaN b then f64NaN a b
  else if f64IsInf a || f64IsInf b then
    (if (f64IsFinite a && f64Mag a == 0) || (f64IsFinite b && f64Mag b == 0) then f64NaN a b else f64Pack neg f64InfMag)
  else f64Pack neg (f64RoundMag (f64Mag a * f64Mag b) f64One)

/-- One binary64 division (R13). -/
def f64Div (a b : F64) : F64 :=
  let neg := f64Sign a != f64Sign b
  if f64IsNaN a || f64IsNaN b then f64NaN a b
  else if f64IsInf a then (if f64IsInf b then f64NaN a b else f64Pack neg f64InfMag)
  else if f64IsInf b then f64Pack neg 0
  else if f64Mag b = 0 then (if f64Mag a = 0 then f64NaN a b else f64Pack neg f64InfMag)
  else f64Pack neg (f64RoundMag (f64Mag a * f64One) (f64Mag b))

/-- `floor(c)`, on the exact value however large it is (41_gradient_noise.md R140, D11). -/
def f64Floor (c : F64) : Int :=
  if f64IsFinite c then f64Units c / (f64One : Int) else Config.floorOfNonFinite c

/-- +0.0. -/
def f64Zero : F64 := 0#64

/-- 0.5, the amplitude factor (42_fbm.md R170). -/
def f64Half : F64 := 0x3FE0000000000000#64

/-- 1.0. -/
def f64OneVal : F64 := 0x3FF0000000000000#64

/-- 2.0. -/
def f64Two : F64 := 0x4000000000000000#64

/-- 6.0. -/
def f64Six : F64 := 0x4018000000000000#64

/-- 10.0. -/
def f64Ten : F64 := 0x4024000000000000#64

/-- 15.0. -/
def f64Fifteen : F64 := 0x402E000000000000#64

/-- 255.0. -/
def f64TwoFiftyFive : F64 := 0x406FE00000000000#64

end Sys2Proof.Machine
end

