-- ==== Sys2Proof/Machine/Mapping.lean ====
section
/-! DEFINITION. Scalar to intensity and intensity to colour (43_color_mapper.md R180 to R185). -/

namespace Sys2Proof.Machine

/-- What `round_half_away` answers: an integer or an infinity (R181). A NaN has no rounding. -/
inductive Rounded where
  | int (n : Int)
  | posInf
  | negInf
  | nan
deriving DecidableEq, Repr

/-- `t3` of R180: `255.0 * (v + 1.0) / 2.0`, left to right. -/
def intensityScaled (v : F64) : F64 :=
  let t1 := f64Add v f64OneVal
  let t2 := f64Mul f64TwoFiftyFive t1
  f64Div t2 f64Two

/-- `round_half_away(t) = sign(t) * floor(|t| + 1/2)` on the exact value; an infinity stays itself (R181). -/
def roundHalfAway (t : F64) : Rounded :=
  if f64IsNaN t then .nan
  else if f64IsInf t then (if f64Sign t then .negInf else .posInf)
  else
    let n := (2 * f64Mag t + f64One) / (2 * f64One)
    .int (if f64Sign t then -(n : Int) else n)

/-- `narrow(r)` under a setting of `INTENSITY_NARROW` (R182). `t` is the value rounded, for the cases that R182 gives no
result: a NaN, and an infinity under WRAP (log entry 12). -/
def narrow (mode : Narrowing) (t : F64) (r : Rounded) : Byte :=
  match mode, r with
  | .saturate, .int n => if n ≤ 0 then 0#8 else if 255 ≤ n then 255#8 else BitVec.ofNat 8 n.toNat
  | .saturate, .posInf => 255#8
  | .saturate, .negInf => 0#8
  | .saturate, .nan => Config.narrowOfUndefined t
  | .wrap, .int n => BitVec.ofNat 8 (n % 256).toNat
  | .wrap, .posInf => Config.narrowOfUndefined t
  | .wrap, .negInf => Config.narrowOfUndefined t
  | .wrap, .nan => Config.narrowOfUndefined t

/-- `intensity(v)` under a setting of `INTENSITY_NARROW` (R180). -/
def intensityUnder (mode : Narrowing) (v : F64) : Byte :=
  narrow mode (intensityScaled v) (roundHalfAway (intensityScaled v))

/-- `intensity(v)` of this hardware (R180, R10). -/
def intensityOf (v : F64) : Byte := intensityUnder Config.intensityNarrow v

/-- A pixel: four 8-bit channels (20_memory.md R68). -/
structure Rgba where
  r : Byte
  g : Byte
  b : Byte
  a : Byte
deriving DecidableEq, Repr

/-- `color(I)`: the bands in order, the first match wins; each channel sum is reduced mod 256, which byte addition does
(R183). -/
def colorOf (i : Byte) : Rgba :=
  if i.toNat ≤ 100 then { r := 67#8, g := i + 65#8, b := i + 155#8, a := 255#8 }
  else if i.toNat ≤ 140 then { r := i + 60#8, g := i, b := 44#8, a := 255#8 }
  else if i.toNat ≤ 210 then { r := 92#8, g := i + 45#8, b := 36#8, a := 255#8 }
  else { r := 244#8, g := 249#8, b := 255#8, a := 255#8 }

/-- `pack(R, G, B, A) = {A, B, G, R}` (R185, R68). -/
def packPixel (c : Rgba) : Word := (c.a ++ c.b ++ c.g ++ c.r : BitVec (8 + 8 + 8 + 8))

end Sys2Proof.Machine
end

