-- ==== Sys2Proof/Machine/Noise.lean ====
section
/-! DEFINITION. Single-octave gradient noise (41_gradient_noise.md R140 to R145) and the octave sum (42_fbm.md R170, R171). -/

namespace Sys2Proof.Machine

/-- `cell(c)`: the lattice index mod 256 and the offset in the cell (R140). -/
def latticeCell (c : F64) : Nat × F64 :=
  let fl := f64Floor c
  ((fl % 256).toNat, f64Sub c (f64OfInt fl))

/-- `fade(t) = t^3 (t (6t - 15) + 10)`, in R141's order. -/
def fade (t : F64) : F64 :=
  let t3 := f64Mul (f64Mul t t) t
  let p := f64Mul t f64Six
  let q := f64Sub p f64Fifteen
  let r := f64Mul t q
  let s := f64Add r f64Ten
  f64Mul t3 s

/-- `lerp(t, a, b) = a + t (b - a)` (R142). -/
def lerp (t a b : F64) : F64 :=
  let d := f64Sub b a
  let m := f64Mul t d
  f64Add a m

/-- `grad(h, dx, dy)`: the offset's component that the two low bits of the hash select, with its sign (R143). -/
def grad (h : Byte) (dx dy : F64) : F64 :=
  match h.toNat % 4 with
  | 0 => dy
  | 1 => f64Neg dy
  | 2 => dx
  | _ => f64Neg dx

/-- The hashes of a cell's four corners, each named by its corner (R144). -/
structure CornerHashes where
  h00 : Byte
  h10 : Byte
  h01 : Byte
  h11 : Byte
deriving DecidableEq, Repr

/-- `hashes(xi, yi)`: reduce mod 256, then add 1; the entry at 256 serves the wrap (R144). -/
def cornerHashes (pt : Memory) (xi yi : Nat) : CornerHashes :=
  let a := ((pt.read xi).toNat + yi) % 256
  let b := ((pt.read (xi + 1)).toNat + yi) % 256
  { h00 := pt.read a, h10 := pt.read b, h01 := pt.read (a + 1), h11 := pt.read (b + 1) }

/-- `noise2d(x, y)` on a table (R145): each hash with its own corner's offset (90_conflicts.md C1). -/
def noise2d (pt : Memory) (x y : F64) : F64 :=
  match latticeCell x, latticeCell y with
  | (xi, xf), (yi, yf) =>
    let u := fade xf
    let v := fade yf
    let h := cornerHashes pt xi yi
    let n00 := grad h.h00 xf yf
    let n10 := grad h.h10 (f64Sub xf f64OneVal) yf
    let n01 := grad h.h01 xf (f64Sub yf f64OneVal)
    let n11 := grad h.h11 (f64Sub xf f64OneVal) (f64Sub yf f64OneVal)
    let x1 := lerp u n00 n10
    let x2 := lerp u n01 n11
    lerp v x1 x2

/-- `FREQ0`, the binary64 value nearest 0.005 (R170). -/
def freq0 : F64 := 0x3F747AE147AE147B#64

/-- The frequency of octave `k`, `FREQ0 * 2^k`, by doubling (R170, R171). -/
def octaveFreq : Nat → F64
  | 0 => freq0
  | k + 1 => f64Mul (octaveFreq k) f64Two

/-- The loop of `fbm` with `n` octaves to go (R171). -/
def fbmLoop (pt : Memory) (x y : F64) : Nat → F64 → F64 → F64 → F64
  | 0, sum, _, _ => sum
  | n + 1, sum, amp, freq =>
    let xs := f64Mul x freq
    let ys := f64Mul y freq
    let t := f64Mul amp (noise2d pt xs ys)
    fbmLoop pt x y n (f64Add sum t) (f64Mul amp f64Half) (f64Mul freq f64Two)

/-- `fbm(x, y, O)` (R171). -/
def fbm (pt : Memory) (x y : F64) (octaves : Byte) : F64 :=
  fbmLoop pt x y octaves.toNat f64Zero f64OneVal freq0

end Sys2Proof.Machine
end

