-- ==== Sys2Proof/Machine/Operands.lean ====
section
/-! DEFINITION. The operand checks of `accept`, on the live registers (30_encoding.md R99, 60_exceptions.md R243 to R245). -/

namespace Sys2Proof.Machine

/-- `noise_operands_ok(X, Y)` (41_gradient_noise.md R146). -/
def noiseOperandsOk (x y : F64) : Bool := f64IsFinite x && f64IsFinite y

/-- Both coordinates scaled by `freq` and by each of its next `n - 1` doublings are finite (42_fbm.md R172). -/
def scaledFinite (x y : F64) : Nat → F64 → Bool
  | 0, _ => true
  | n + 1, freq =>
    f64IsFinite (f64Mul x freq) && f64IsFinite (f64Mul y freq) && scaledFinite x y n (f64Mul freq f64Two)

/-- `fbm_operands_ok(X, Y, O)`: every octave's scaled coordinates are checked (R172). -/
def fbmOperandsOk (x y : F64) (octaves : Byte) : Bool :=
  f64IsFinite x && f64IsFinite y && scaledFinite x y octaves.toNat freq0

/-- `intensity_operand_ok(X)` under a setting of `INTENSITY_NARROW` (43_color_mapper.md R182). -/
def intensityOperandOk (mode : Narrowing) (x : F64) : Bool :=
  match mode with
  | .saturate => f64IsFinite x
  | .wrap => f64IsFinite x && f64IsFinite (intensityScaled x)

/-- A command without an operand check: NOP, PERM_BUILD, COLOR_MAP. -/
def checkNothing (_ : State) : Option ErrCode := none

/-- BAD_INDEX: the index is above the command's highest (R95, R243). -/
def checkIndex (index highest : Nat) (_ : State) : Option ErrCode :=
  if highest < index then some .badIndex else none

/-- NO_TABLE: TABLE_STATE = NONE (R244). -/
def checkTable (s : State) : Option ErrCode := if s.tableState = .none then some .noTable else none

/-- NO_TABLE, then NONFINITE of NOISE_EVAL (R99, R248). -/
def checkNoise (s : State) : Option ErrCode :=
  (checkTable s).or (if noiseOperandsOk s.x s.y then none else some .nonFinite)

/-- NO_TABLE, then NONFINITE of FBM_EVAL and PIXEL_EVAL (R99, R248). -/
def checkFbm (s : State) : Option ErrCode :=
  (checkTable s).or (if fbmOperandsOk s.x s.y s.octaves then none else some .nonFinite)

/-- NONFINITE of INTENSITY_MAP, which checks no table (R99, R186). -/
def checkIntensity (s : State) : Option ErrCode :=
  if intensityOperandOk Config.intensityNarrow s.x then none else some .nonFinite

end Sys2Proof.Machine
end

