-- ==== Sys2Proof/Machine/Color.lean ====
section
/-! DEFINITION. INTENSITY_MAP, COLOR_MAP and PIXEL_EVAL (43_color_mapper.md R186 to R188). -/

namespace Sys2Proof.Machine

/-- INTENSITY_MAP: the scalar in X to an intensity (R186). -/
def execIntensityMap (s : State) : Result :=
  runCommand .intensityMap checkIntensity acceptCommand
    (fun l _ => .next { finish s with intensity := intensityOf l.x }) s

/-- COLOR_MAP: the immediate intensity to a colour (R187). -/
def execColorMap (imm8 : Byte) (s : State) : Result :=
  runCommand (.colorMap imm8) checkNothing acceptCommand
    (fun l _ => .next { finish s with color := packPixel (colorOf l.imm8) }) s

/-- PIXEL_EVAL: the whole per-pixel pipeline at the latched coordinate (R188). -/
def execPixelEval (s : State) : Result :=
  runCommand .pixelEval checkFbm acceptCommand
    (fun l _ =>
      let v := fbm s.pt l.x l.y l.octaves
      let i := intensityOf v
      .next { setResult v (finish s) with intensity := i, color := packPixel (colorOf i) }) s

end Sys2Proof.Machine
end

