-- ==== Sys2Proof/Machine/Control.lean ====
section
/-! DEFINITION. NOP (45_control.md). -/

namespace Sys2Proof.Machine

/-- NOP: no effect beyond completion (R220). -/
def execNop (s : State) : Result :=
  runCommand .nop checkNothing acceptCommand (fun _ _ => .next (finish s)) s

end Sys2Proof.Machine
end

