-- ==== Sys2Proof/Machine/Evaluate.lean ====
section
/-! DEFINITION. NOISE_EVAL (41_gradient_noise.md R147) and FBM_EVAL (42_fbm.md R173). -/

namespace Sys2Proof.Machine

/-- NOISE_EVAL: single-octave noise at the latched coordinate (R147). -/
def execNoiseEval (s : State) : Result :=
  runCommand .noiseEval checkNoise acceptCommand
    (fun l _ => .next (setResult (noise2d s.pt l.x l.y) (finish s))) s

/-- FBM_EVAL: the octave sum at the latched coordinate (R173). -/
def execFbmEval (s : State) : Result :=
  runCommand .fbmEval checkFbm acceptCommand
    (fun l _ => .next (setResult (fbm s.pt l.x l.y l.octaves) (finish s))) s

end Sys2Proof.Machine
end

