-- ==== Sys2Proof/Machine/Render.lean ====
section
/-! DEFINITION. RENDER (44_render.md R200 to R206). -/

namespace Sys2Proof.Machine

/-- `L.WIDTH * L.HEIGHT`, how many pixels the frame has. -/
def frameSize (l : Latched) : Nat := l.width.toNat * l.height.toNat

/-- `pixel(px, py)`: the word of one pixel; its coordinate is the pixel index itself (R201). -/
def pixelWord (pt : Memory) (octaves : Byte) (px py : Nat) : Word :=
  packPixel (colorOf (intensityOf (fbm pt (f64OfInt px) (f64OfInt py) octaves)))

/-- The sequencer after a produce step: row-major order (R202). -/
def advanceSeq (l : Latched) (p : RenderSeq) : RenderSeq :=
  if p.rx + 1 = l.width.toNat then { rx := 0, ry := p.ry + 1, produced := p.produced + 1 }
  else { rx := p.rx + 1, ry := p.ry, produced := p.produced + 1 }

/-- A produce step: the next pixel goes into Q, `last` on the frame's final pixel only (R202). -/
def producePixel (cmd : Word) (l : Latched) (p : RenderSeq) (s : State) : State :=
  { s with
    q := s.q ++ [{ word := pixelWord s.pt l.octaves p.rx p.ry, last := decide (p.produced + 1 = frameSize l) }],
    engine := .busy cmd l (some (advanceSeq l p)) }

/-- The engine step of a RENDER that is enabled: a produce step while pixels are left and Q has room (R202), the completion
step when all are produced and Q is empty (R205). With Q full, or all produced and Q not empty, none is enabled and the
engine holds (R203). Completion is a step of its own after the last transfer: an abort or a reset between the two finds the whole
frame sent, `pix_last` included (DESIGN CHOICE, log entry 22). -/
def renderStep (cmd : Word) (l : Latched) (p : RenderSeq) (s : State) : State :=
  if p.produced < frameSize l then
    (if s.q.length < Config.pixFifoDepth then producePixel cmd l p s else s)
  else if p.produced = frameSize l ∧ s.q = [] then finish s
  else s

/-- RENDER: NO_TABLE is its only operand check; acceptance starts the sequencer; engine steps produce the frame (R200). -/
def execRender (s : State) : Result :=
  runCommand .render checkTable acceptRender
    (fun l seq =>
      match seq with
      | some p => .next (renderStep (encode .render) l p s)
      | none => .fault .noSequencer) s

end Sys2Proof.Machine
end

