-- ==== Sys2Proof/Machine/Shuffle.lean ====
section
/-! DEFINITION. The seeded construction of the table: SplitMix64 and the downward Fisher-Yates pass
(40_permutation_table.md R122 to R124). -/

namespace Sys2Proof.Machine

/-- One draw of SplitMix64: the next state and the output (R122). -/
def splitmixNext (s : U64) : U64 × U64 :=
  let s1 := s + 0x9E3779B97F4A7C15#64
  let z1 := (s1 ^^^ (s1 >>> 30)) * 0xBF58476D1CE4E5B9#64
  let z2 := (z1 ^^^ (z1 >>> 27)) * 0x94D049BB133111EB#64
  (s1, z2 ^^^ (z2 >>> 31))

/-- `mulhi64(r, n) = floor(r * n / 2^64)` (00_scope.md R12). -/
def mulhi64 (r : U64) (n : Nat) : Nat := r.toNat * n / 2 ^ 64

/-- Exchange entries `i` and `j`. -/
def swapEntries (t : List Byte) (i j : Nat) : List Byte :=
  (t.set i (t.getD j 0#8)).set j (t.getD i 0#8)

/-- The pass for `i` from `n` down to 1, one draw each, `j = mulhi64(r, i + 1)` (R123). -/
def shufflePass : Nat → U64 → List Byte → List Byte
  | 0, _, t => t
  | i + 1, s, t =>
    match splitmixNext s with
    | (s', r) => shufflePass i s' (swapEntries t (i + 1) (mulhi64 r (i + 2)))

/-- The ordered sequence 0 to 255 (R123). -/
def orderedBytes : List Byte := (List.range 256).map (BitVec.ofNat 8)

/-- The shuffled entries 0 to 255 (R123). -/
def shuffled (seed : U64) : List Byte := shufflePass 255 seed orderedBytes

/-- `build(seed)`: the shuffled entries, then a copy of entry 0 (R123). -/
def buildTable (seed : U64) : List Byte := shuffled seed ++ [(shuffled seed).getD 0 0#8]

end Sys2Proof.Machine
end

