-- ==== Sys2Proof/Machine/Table.lean ====
section
/-! DEFINITION. PERM_BUILD, PERM_WRITE and PERM_READ (40_permutation_table.md R125 to R127). -/

namespace Sys2Proof.Machine

/-- PERM_BUILD: the table of the latched seed (R125). -/
def execPermBuild (s : State) : Result :=
  runCommand .permBuild checkNothing acceptCommand
    (fun l _ => .next { finish s with pt := tableOfList (buildTable l.seed), tableState := .built }) s

/-- `PT[INDEX] <- DATA8`, and entry 256 follows entry 0 (R126). -/
def writeEntry (pt : Memory) (index : Nat) (data8 : Byte) : Memory :=
  if index = 0 then (pt.write 0 data8).write 256 data8 else pt.write index data8

/-- PERM_WRITE: one entry from the command word (R126). -/
def execPermWrite (index : Nat) (data8 : Byte) (s : State) : Result :=
  runCommand (.permWrite index data8) (checkIndex index 255) acceptCommand
    (fun l _ =>
      if l.index ≤ 255 then .next { finish s with pt := writeEntry s.pt l.index l.data8, tableState := .host }
      else .fault .noSuchEntry) s

/-- PERM_READ: one entry into PERM_DATA (R127). -/
def execPermRead (index : Nat) (s : State) : Result :=
  runCommand (.permRead index) (checkIndex index 256) acceptCommand
    (fun l _ =>
      if l.index ≤ 256 then .next { finish s with permData := s.pt.read l.index }
      else .fault .noSuchEntry) s

end Sys2Proof.Machine
end

