-- ==== Sys2Proof/Machine/Dispatch.lean ====
section
/-! DEFINITION. The meaning of every command, one arm each. With the engine IDLE it is the command's acceptance, with the
command in flight it is one engine step of it (log entry 4). -/

namespace Sys2Proof.Machine

def exec (i : Instr) (s : State) : Host.Outcome State Fault Refusal :=
  match i with
  | .nop => Sys2Proof.Machine.execNop s
  | .permBuild => Sys2Proof.Machine.execPermBuild s
  | .permWrite index data8 => Sys2Proof.Machine.execPermWrite index data8 s
  | .permRead index => Sys2Proof.Machine.execPermRead index s
  | .noiseEval => Sys2Proof.Machine.execNoiseEval s
  | .fbmEval => Sys2Proof.Machine.execFbmEval s
  | .intensityMap => Sys2Proof.Machine.execIntensityMap s
  | .colorMap imm8 => Sys2Proof.Machine.execColorMap imm8 s
  | .pixelEval => Sys2Proof.Machine.execPixelEval s
  | .render => Sys2Proof.Machine.execRender s

end Sys2Proof.Machine
end

