-- ==== Sys2Proof/Machine/Step.lean ====
section
/-! DEFINITION. One step of the machine, and how a word is placed where the next step takes it. -/

namespace Sys2Proof.Machine

/-- One step of the agent whose turn it is (00_scope.md R8), the commands having the meanings of `exec`. -/
def step (s : State) : Host.Outcome State Fault Refusal := scheduledStep exec s

/-- `s` with the command word whose `nbits` low bits are those of `w`, and the rest 0, as the host's next write to CMD. -/
def State.withFetchWord (s : State) (nbits w : Nat) : State :=
  withCommandWrite (BitVec.ofNat 32 (w % 2 ^ nbits)) s

end Sys2Proof.Machine
end

