-- ==== Sys2Proof/Machine/Script.lean ====
section
/-! DEFINITION. The host-script syntax and its expansion to transactions (30_encoding.md R103, R104). A script is the host's
notation, not a command of the block: what the block sees are the transactions. -/

namespace Sys2Proof.Machine

/-- A script statement. `wait` and `abort` depend on values the host reads: `polls` is how many reads of STATUS in the loop return
BUSY = 1 before the one that ends it, and `ctrl` is the value that `abort`'s read of CTRL returned. `perm.load` carries a `polls` of
its own beside each value, so its 256 waits may differ. A decimal real is a sign, a numerator and a denominator (log entry 20). -/
inductive Stmt where
  | wr (r : Reg) (v : Word)
  | rd (r : Reg)
  | nop
  | permBuild
  | permWrite (i d : Nat)
  | permRead (i : Nat)
  | noise
  | fbm
  | intensity
  | color (k : Nat)
  | pixel
  | render
  | word (w : Word)
  | seed (s : U64)
  | setx (neg : Bool) (num den : Nat)
  | setxbits (p : F64)
  | sety (neg : Bool) (num den : Nat)
  | setybits (p : F64)
  | dims (w h : Nat)
  | oct (n : Nat)
  | wait (polls : Nat)
  | clear
  | ie (d e : Bool)
  | abort (ctrl : Word)
  | softreset
  | permLoad (vs : List (Nat × Nat))
deriving DecidableEq, Repr

/-- `MemWrite(offset(REG), 4, v)` with all four strobes (R103). -/
def wrReq (r : Reg) (v : Word) : HostReq := .write (regOffset r) v 0xF#4

/-- `MemRead(offset(REG), 4)` (R103). -/
def rdReq (r : Reg) : HostReq := .read (regOffset r)

/-- A 64-bit value into a LO and HI pair (R104). -/
def pairReqs (lo hi : Reg) (v : BitVec 64) : List HostReq := [wrReq lo (v.extractLsb' 0 32), wrReq hi (v.extractLsb' 32 32)]

/-- `wait`: the reads of STATUS that return BUSY = 1, and the one that ends the loop (R104). -/
def waitReqs (polls : Nat) : List HostReq := List.replicate (polls + 1) (rdReq .status)

/-- `perm.write i, d`; an operand outside its field or index range is refused (R103, R95; log entry 20). -/
def permWriteReq (i d : Nat) : Option HostReq :=
  if i ≤ 255 ∧ d ≤ 255 then some (wrReq .cmd (encode (.permWrite i (BitVec.ofNat 8 d)))) else none

/-- `perm.load`: for each value in turn, with its own number of polls, `perm.write i, vi` and `wait` (R104; log entry 20). -/
def permLoadReqs (i : Nat) : List (Nat × Nat) → Option (List HostReq)
  | [] => some []
  | (v, polls) :: vs =>
    match permWriteReq i v, permLoadReqs (i + 1) vs with
    | some req, some rest => some (req :: waitReqs polls ++ rest)
    | _, _ => none

/-- The transactions of a statement; `none` where the syntax refuses an operand that does not fit (R103, R104). -/
def expand : Stmt → Option (List HostReq)
  | .wr r v => some [wrReq r v]
  | .rd r => some [rdReq r]
  | .nop => some [wrReq .cmd (encode .nop)]
  | .permBuild => some [wrReq .cmd (encode .permBuild)]
  | .permWrite i d => (permWriteReq i d).map (fun r => [r])
  | .permRead i => if i ≤ 256 then some [wrReq .cmd (encode (.permRead i))] else none
  | .noise => some [wrReq .cmd (encode .noiseEval)]
  | .fbm => some [wrReq .cmd (encode .fbmEval)]
  | .intensity => some [wrReq .cmd (encode .intensityMap)]
  | .color k => if k ≤ 255 then some [wrReq .cmd (encode (.colorMap (BitVec.ofNat 8 k)))] else none
  | .pixel => some [wrReq .cmd (encode .pixelEval)]
  | .render => some [wrReq .cmd (encode .render)]
  | .word w => some [wrReq .cmd w]
  | .seed s => some (pairReqs .seedLo .seedHi s)
  | .setx neg num den => if den = 0 then none else some (pairReqs .xLo .xHi (f64OfRat neg num den))
  | .setxbits p => some (pairReqs .xLo .xHi p)
  | .sety neg num den => if den = 0 then none else some (pairReqs .yLo .yHi (f64OfRat neg num den))
  | .setybits p => some (pairReqs .yLo .yHi p)
  | .dims w h => if w < 65536 ∧ h < 65536 then some [wrReq .dims (BitVec.ofNat 32 (h * 65536 + w))] else none
  | .oct n => if n < 256 then some [wrReq .octaves (BitVec.ofNat 32 n)] else none
  | .wait polls => some (waitReqs polls)
  | .clear => some [wrReq .status 0x0000000E#32]
  | .ie d e => some [wrReq .ctrl (BitVec.ofNat 32 ((if d then 4 else 0) + if e then 8 else 0))]
  | .abort ctrl => some [rdReq .ctrl, wrReq .ctrl (ctrl ||| 0x00000002#32)]
  | .softreset => some [wrReq .ctrl 0x00000001#32]
  | .permLoad vs => if vs.length = 256 then permLoadReqs 0 vs else none

/-- The transactions of a script, its statements in order; `none` where one is refused. -/
def expandScript : List Stmt → Option (List HostReq)
  | [] => some []
  | st :: rest =>
    match expand st, expandScript rest with
    | some a, some b => some (a ++ b)
    | _, _ => none

end Sys2Proof.Machine
end

