-- ==== Sys2Proof/Safety.lean ====
section
/-! DEFINITION. What holds of the machine in every state a run can reach, in the terms the statements use. -/

namespace Sys2Proof.Machine

/-- The table is in canonical form and `PT[256] = PT[0]` (10_state.md R40, 40_permutation_table.md R120). -/
def TableOk (s : State) : Prop := s.pt.wf = true ∧ s.pt.read 256 = s.pt.read 0

/-- A table marked BUILT is the table of some seed (10_state.md R41). -/
def BuiltOk (s : State) : Prop := s.tableState = .built → ∃ seed, s.pt = tableOfList (buildTable seed)

/-- The latched fields are those of the word in flight (10_state.md R43). -/
def LatchedFieldsOk (cmd : Word) (l : Latched) : Prop :=
  l.index = wordIndex cmd ∧ l.data8 = wordData8 cmd ∧ l.imm8 = wordImm8 cmd

/-- What acceptance checked of the command's latched operands and the table (30_encoding.md R99). -/
def Admitted (i : Instr) (l : Latched) (ts : TableState) : Prop :=
  match i with
  | .nop => True
  | .permBuild => True
  | .permWrite index _ => index ≤ 255
  | .permRead index => index ≤ 256
  | .noiseEval => ts ≠ .none ∧ noiseOperandsOk l.x l.y = true
  | .fbmEval => ts ≠ .none ∧ fbmOperandsOk l.x l.y l.octaves = true
  | .intensityMap => intensityOperandOk Config.intensityNarrow l.x = true
  | .colorMap _ => True
  | .pixelEval => ts ≠ .none ∧ fbmOperandsOk l.x l.y l.octaves = true
  | .render => ts ≠ .none

/-- A command in flight is one the decoder reads and acceptance admitted, and the sequencer exists exactly for a RENDER
(R42 to R44). -/
def EngineOk (s : State) : Prop :=
  match s.engine with
  | .idle => True
  | .busy cmd l seq =>
    ∃ i, decode cmd = .command i ∧ LatchedFieldsOk cmd l ∧ Admitted i l s.tableState ∧ (seq.isSome = true ↔ i = .render)

/-- The first `n` pixels of the frame of `l` on table `pt`, in row-major order, `last` on the frame's final one
(44_render.md R202, 20_memory.md R76). -/
def framePrefix (pt : Memory) (l : Latched) (n : Nat) : List PixEntry :=
  (List.range n).map (fun k =>
    { word := pixelWord pt l.octaves (k % l.width.toNat) (k / l.width.toNat), last := decide (k + 1 = frameSize l) })

/-- The pixels the sink has taken of the RENDER in flight: the last PIXEL_COUNT of all it has taken (10_state.md R36). -/
def takenOfFrame (s : State) : List PixEntry := s.env.received.drop (s.env.received.length - s.pixelCount.toNat)

/-- The queue holds at most PIX_FIFO_DEPTH entries, and only during a RENDER (10_state.md R45, 44_render.md R204). The
sequencer stands at pixel `produced` in row-major order, and what the sink has taken followed by what is queued is exactly the
frame so far: in order, nothing lost, nothing twice (20_memory.md R76). -/
def StreamOk (s : State) : Prop :=
  s.q.length ≤ Config.pixFifoDepth ∧
  match s.engine with
  | .idle => s.q = []
  | .busy _ _ none => s.q = []
  | .busy _ l (some p) =>
    p.produced ≤ frameSize l ∧ p.produced = p.ry * l.width.toNat + p.rx ∧
    (p.produced < frameSize l → p.rx < l.width.toNat) ∧
    s.pixelCount.toNat + s.q.length = p.produced ∧
    takenOfFrame s ++ s.q = framePrefix s.pt l p.produced

/-- While `rst_n` is low the block is in the reset state and holds no response (70_reset_and_hazards.md R270, R272). -/
def HeldOk (s : State) : Prop := s.env.rstN = false → s = { State.reset with env := s.env } ∧ s.env.rsp = none

/-- What every reachable state satisfies. -/
structure Inv (s : State) : Prop where
  table : TableOk s
  built : BuiltOk s
  engine : EngineOk s
  stream : StreamOk s
  held : HeldOk s

end Sys2Proof.Machine
end

