-- ==== Sys2Proof/Certificates/Slice0/Obligations.lean ====
section
/-! DEFINITION. The statements about the machine, for the provers. Each follows rules of spec/ by number; OBLIGATIONS.json lists
them. The functions in the first section write a rule's own table or pseudocode out once more, from the spec, so that a statement
compares the model with the rule and not with itself. -/

namespace Sys2Proof.Statements

open Sys2Proof Sys2Proof.Machine

/-- A row of R94's table: OPC, `RES(opc)`, and the command with its fields taken from the word's bits (R95 to R97). -/
structure OpcodeRow where
  opc : Nat
  res : Word
  command : Word → Instr

/-- R94's table. -/
def opcodeRows : List OpcodeRow :=
  [⟨0x00, 0xFFFFFF00#32, fun _ => .nop⟩,
   ⟨0x01, 0xFFFFFF00#32, fun _ => .permBuild⟩,
   ⟨0x02, 0x00FE0000#32, fun w => .permWrite (w.toNat / 2 ^ 8 % 2 ^ 9) (BitVec.ofNat 8 (w.toNat / 2 ^ 24))⟩,
   ⟨0x03, 0xFFFE0000#32, fun w => .permRead (w.toNat / 2 ^ 8 % 2 ^ 9)⟩,
   ⟨0x10, 0xFFFFFF00#32, fun _ => .noiseEval⟩,
   ⟨0x11, 0xFFFFFF00#32, fun _ => .fbmEval⟩,
   ⟨0x12, 0xFFFFFF00#32, fun _ => .intensityMap⟩,
   ⟨0x20, 0xFFFF0000#32, fun w => .colorMap (BitVec.ofNat 8 (w.toNat / 2 ^ 8))⟩,
   ⟨0x21, 0xFFFFFF00#32, fun _ => .pixelEval⟩,
   ⟨0x30, 0xFFFFFF00#32, fun _ => .render⟩]

/-- The checks of `accept(w)` in R99's order, on the bits of the word and the live registers; the operand checks are those of R146,
R172 and, under SATURATE, R182. -/
def faultOf (w : Word) (s : State) : Option ErrCode :=
  let opc := w.toNat % 2 ^ 8
  let index := w.toNat / 2 ^ 8 % 2 ^ 9
  if opc ∉ [0x00, 0x01, 0x02, 0x03, 0x10, 0x11, 0x12, 0x20, 0x21, 0x30] then some .illegalOpcode
  else if (opcodeRows.any fun r => r.opc == opc && (w &&& r.res) != 0#32) then some .reservedBits
  else if (opc = 0x02 ∧ 255 < index) ∨ (opc = 0x03 ∧ 256 < index) then some .badIndex
  else if opc ∈ [0x10, 0x11, 0x21, 0x30] ∧ s.tableState = .none then some .noTable
  else if opc = 0x10 ∧ ¬ (f64IsFinite s.x = true ∧ f64IsFinite s.y = true) then some .nonFinite
  else if opc ∈ [0x11, 0x21] ∧ ¬ fbmOperandsOk s.x s.y s.octaves = true then some .nonFinite
  else if opc = 0x12 ∧ ¬ f64IsFinite s.x = true then some .nonFinite
  else none

/-- What is latched (R43), field by field from the registers and the word's bits. -/
def latchOf (w : Word) (s : State) : Latched :=
  { seed := BitVec.ofNat 64 (s.seedHi.toNat * 2 ^ 32 + s.seedLo.toNat), x := BitVec.ofNat 64 (s.xHi.toNat * 2 ^ 32 + s.xLo.toNat),
    y := BitVec.ofNat 64 (s.yHi.toNat * 2 ^ 32 + s.yLo.toNat), width := BitVec.ofNat 16 s.dims.toNat,
    height := BitVec.ofNat 16 (s.dims.toNat / 2 ^ 16), octaves := s.octaves, index := w.toNat / 2 ^ 8 % 2 ^ 9,
    data8 := BitVec.ofNat 8 (w.toNat / 2 ^ 24), imm8 := BitVec.ofNat 8 (w.toNat / 2 ^ 8) }

/-- The state after `accept(w)` (R99): the fault's four fields (R247), or the accepted command (R224, and R200 for RENDER). -/
def acceptOf (w : Word) (s : State) : State :=
  match faultOf w s with
  | some code => { s with lastOpc := BitVec.ofNat 8 w.toNat, err := true, errCode := code, errCmd := w }
  | none =>
    if w.toNat % 2 ^ 8 = 0x30 then
      { s with lastOpc := BitVec.ofNat 8 w.toNat, engine := .busy w (latchOf w s) (some ⟨0, 0, 0⟩), pixelCount := 0#32 }
    else { s with lastOpc := BitVec.ofNat 8 w.toNat, engine := .busy w (latchOf w s) none }

/-- The words of R94's commands that carry no field, as the host writes them (R103). -/
def plainWords : List (Word × Instr) :=
  [(0x00000000#32, .nop), (0x00000001#32, .permBuild), (0x00000010#32, .noiseEval), (0x00000011#32, .fbmEval),
   (0x00000012#32, .intensityMap), (0x00000021#32, .pixelEval), (0x00000030#32, .render)]

/-- The value read from each register after reset, from R271's table; CONFIG is its constant (R37). -/
def resetValue : Reg → Word
  | .id => 0x504E3244#32
  | .version => 0x00010000#32
  | .config => BitVec.ofNat 32 (Config.pixFifoDepth * 2 ^ 8 + if Config.intensityNarrow = .wrap then 1 else 0)
  | _ => 0#32

/-- The number STATUS reads as: the weighted sum of its fields (R25, R41, R240). -/
def statusNumber (s : State) : Nat :=
  s.busy.toNat + s.done.toNat * 2 + s.err.toNat * 2 ^ 2 + s.ovr.toNat * 2 ^ 3 +
  (match s.tableState with | .none => 0 | .built => 1 | .host => 2) * 2 ^ 4 +
  (match s.errCode with
    | .none => 0 | .illegalOpcode => 1 | .reservedBits => 2 | .badIndex => 3 | .noTable => 4 | .nonFinite => 5
    | .aborted => 6) * 2 ^ 8 + s.lastOpc.toNat * 2 ^ 16

/-- R21's table once more: each register, its byte offset, and the value a read of it gives in a state (R22 to R38). -/
def registerRows (s : State) : List (Reg × BitVec 8 × Word) :=
  [(.id, 0x00#8, 0x504E3244#32), (.version, 0x04#8, 0x00010000#32),
   (.ctrl, 0x08#8, BitVec.ofNat 32 (s.ieDone.toNat * 2 ^ 2 + s.ieErr.toNat * 2 ^ 3)),
   (.status, 0x0C#8, BitVec.ofNat 32 (statusNumber s)), (.cmd, 0x10#8, 0#32),
   (.permData, 0x14#8, BitVec.ofNat 32 s.permData.toNat), (.seedLo, 0x18#8, s.seedLo), (.seedHi, 0x1C#8, s.seedHi),
   (.xLo, 0x20#8, s.xLo), (.xHi, 0x24#8, s.xHi), (.yLo, 0x28#8, s.yLo), (.yHi, 0x2C#8, s.yHi), (.dims, 0x30#8, s.dims),
   (.octaves, 0x34#8, BitVec.ofNat 32 s.octaves.toNat), (.resultLo, 0x38#8, s.resultLo), (.resultHi, 0x3C#8, s.resultHi),
   (.intensity, 0x40#8, BitVec.ofNat 32 s.intensity.toNat), (.color, 0x44#8, s.color), (.pixelCount, 0x48#8, s.pixelCount),
   (.config, 0x4C#8, resetValue .config), (.errCmd, 0x50#8, s.errCmd)]

/-- The operand registers a host writes (R28 to R32). -/
def operandRegs : List Reg := [.seedLo, .seedHi, .xLo, .xHi, .yLo, .yHi, .dims, .octaves]

/-- The read-only registers (R21). -/
def readOnlyRegs : List Reg :=
  [.id, .version, .permData, .resultLo, .resultHi, .intensity, .color, .pixelCount, .config, .errCmd]

/-- `s` with other values in its operand registers. -/
def withOperands (s : State) (seedLo seedHi xLo xHi yLo yHi dims : Word) (octaves : Byte) : State :=
  { s with seedLo := seedLo, seedHi := seedHi, xLo := xLo, xHi := xHi, yLo := yLo, yHi := yHi, dims := dims,
           octaves := octaves }

/-- `s` with the next turn taken off the schedule. -/
def popTurn (s : State) : State := { s with env := { s.env with turns := s.env.turns.tail } }

/-- The result registers: PERM_DATA, RESULT, INTENSITY, COLOR (R48). -/
def resultRegs (s : State) : Byte × Word × Word × Byte × Word := (s.permData, s.resultLo, s.resultHi, s.intensity, s.color)

/-- So many steps from a state, up to the first that stops. -/
def runSteps : Nat → State → Result
  | 0, s => .next s
  | k + 1, s =>
    match step s with
    | .next t => runSteps k t
    | .fault r => .fault r
    | .refused r => .refused r

/-- One draw of R122 on numbers: the next state and the output. -/
def drawSpec (s : Nat) : Nat × Nat :=
  let s' := (s + 0x9E3779B97F4A7C15) % 2 ^ 64
  let z1 := (s' ^^^ (s' / 2 ^ 30)) * 0xBF58476D1CE4E5B9 % 2 ^ 64
  let z2 := (z1 ^^^ (z1 / 2 ^ 27)) * 0x94D049BB133111EB % 2 ^ 64
  (s', z2 ^^^ (z2 / 2 ^ 31))

/-- R123's loop for `i` from `n` down to 1, on the table as a function: a draw, `j = floor(r * (i + 1) / 2^64)`, and the swap. -/
def passSpec : Nat → Nat → (Nat → Nat) → Nat → Nat
  | 0, _, table => table
  | i + 1, s, table =>
    let j := (drawSpec s).2 * (i + 2) / 2 ^ 64
    passSpec i (drawSpec s).1 (fun k => if k = i + 1 then table j else if k = j then table (i + 1) else table k)

/-- Entry `k` of R123's `build(seed)`: the shuffled sequence 0 to 255, and at 256 a copy of entry 0. -/
def tableSpec (seed k : Nat) : Nat := passSpec 255 seed (fun k => k) (if k = 256 then 0 else k)

/-- `a - b`: one addition of `b` with its sign bit flipped (R13). -/
def subSpec (a b : F64) : F64 := f64Add a (b ^^^ 0x8000000000000000#64)

/-- R141's `fade`: 6.0, 15.0 and 10.0 by their patterns. -/
def fadeSpec (t : F64) : F64 :=
  f64Mul (f64Mul (f64Mul t t) t)
    (f64Add (f64Mul t (subSpec (f64Mul t 0x4018000000000000#64) 0x402E000000000000#64)) 0x4024000000000000#64)

/-- R142's `lerp`. -/
def lerpSpec (t a b : F64) : F64 := f64Add a (f64Mul t (subSpec b a))

/-- R143's table. -/
def gradSpec (h : Byte) (dx dy : F64) : F64 :=
  if h &&& 3#8 = 0#8 then dy
  else if h &&& 3#8 = 1#8 then dy ^^^ 0x8000000000000000#64
  else if h &&& 3#8 = 2#8 then dx
  else dx ^^^ 0x8000000000000000#64

/-- R145's `noise2d`, with R144's hashes: `PT[a]`, `PT[b]`, `PT[a + 1]` and `PT[b + 1]` go with the corners (xi, yi), (xi + 1, yi),
(xi, yi + 1) and (xi + 1, yi + 1) (90_conflicts.md C1). -/
def noiseSpec (pt : Memory) (x y : F64) : F64 :=
  let xi := (latticeCell x).1
  let yi := (latticeCell y).1
  let xf := (latticeCell x).2
  let yf := (latticeCell y).2
  let xf1 := subSpec xf 0x3FF0000000000000#64
  let yf1 := subSpec yf 0x3FF0000000000000#64
  let a := ((pt.read xi).toNat + yi) % 256
  let b := ((pt.read (xi + 1)).toNat + yi) % 256
  lerpSpec (fadeSpec yf)
    (lerpSpec (fadeSpec xf) (gradSpec (pt.read a) xf yf) (gradSpec (pt.read b) xf1 yf))
    (lerpSpec (fadeSpec xf) (gradSpec (pt.read (a + 1)) xf yf1) (gradSpec (pt.read (b + 1)) xf1 yf1))

/-- R171's loop after `k` octaves: the sum, the amplitude and the frequency, from +0.0, 1.0 and FREQ0. -/
def octavesSpec (pt : Memory) (x y : F64) : Nat → F64 × F64 × F64
  | 0 => (0x0000000000000000#64, 0x3FF0000000000000#64, 0x3F747AE147AE147B#64)
  | k + 1 =>
    let (sum, amp, freq) := octavesSpec pt x y k
    (f64Add sum (f64Mul amp (noiseSpec pt (f64Mul x freq) (f64Mul y freq))), f64Mul amp 0x3FE0000000000000#64,
      f64Mul freq 0x4000000000000000#64)

/-- R171's `fbm`. -/
def fbmSpec (pt : Memory) (x y : F64) (octaves : Byte) : F64 := (octavesSpec pt x y octaves.toNat).1

/-- R180's `intensity` of a finite value, SATURATE being this hardware's setting: `t3`, R181's `sign(t) * floor(|t| + 1/2)` in units of
2^-1074, R182's clamp. -/
def intensitySpec (v : F64) : Byte :=
  let t3 := f64Div (f64Mul 0x406FE00000000000#64 (f64Add v 0x3FF0000000000000#64)) 0x4000000000000000#64
  if t3 = 0x7FF0000000000000#64 then 255#8
  else if t3 = 0xFFF0000000000000#64 then 0#8
  else
    let r := (f64Units t3).sign * ((2 * |f64Units t3| + 2 ^ 1074) / (2 * 2 ^ 1074))
    BitVec.ofInt 8 (max 0 (min 255 r))

/-- The pixel word of an intensity: R183's bands, packed as {A, B, G, R} (R185). -/
def colorWordSpec (i : Nat) : Word :=
  if i ≤ 100 then BitVec.ofNat 32 (255 * 2 ^ 24 + (i + 155) % 256 * 2 ^ 16 + (i + 65) % 256 * 2 ^ 8 + 67)
  else if i ≤ 140 then BitVec.ofNat 32 (255 * 2 ^ 24 + 44 * 2 ^ 16 + i * 2 ^ 8 + (i + 60) % 256)
  else if i ≤ 210 then BitVec.ofNat 32 (255 * 2 ^ 24 + 36 * 2 ^ 16 + (i + 45) % 256 * 2 ^ 8 + 92)
  else BitVec.ofNat 32 (255 * 2 ^ 24 + 255 * 2 ^ 16 + 249 * 2 ^ 8 + 244)

/-- R201's `pixel(px, py)`: its coordinate is the pixel index itself. -/
def pixelSpec (pt : Memory) (octaves : Byte) (px py : Nat) : Word :=
  colorWordSpec (intensitySpec (fbmSpec pt (f64OfInt px) (f64OfInt py) octaves)).toNat

/-- Which of two finite values is meant when `r` is said to be the rounding of an exact `n / d` units: no finite value is nearer,
and where another is as near, the fraction of `r` is even (R13). -/
def NearestEven (r : F64) (n : Int) (d : Nat) : Prop :=
  ∀ c : F64, f64IsFinite c = true →
    |f64Units r * d - n| ≤ |f64Units c * d - n| ∧
    (f64Units c ≠ f64Units r → |f64Units r * d - n| = |f64Units c * d - n| → f64Frac r % 2 = 0)

/-- The magnitude at which rounding to nearest overflows, in units of 2^-1074: 2^1024 - 2^970, the middle between the largest finite
value and 2^1024 (log entry 19). Irreducible only so that elaboration never writes the number out. -/
@[irreducible] def overflowUnits : Nat := (2 ^ 1024 - 2 ^ 970) * 2 ^ 1074

/-- `r` is the exact `n / d` units rounded once: below 2^1024 - 2^970 in magnitude it is finite and nearest, with ties to even; from
there up it is the infinity of the exact value's sign (R13's IEEE 754; log entry 19). -/
def RoundedOnce (r : F64) (n : Int) (d : Nat) : Prop :=
  if |n| < overflowUnits * d then f64IsFinite r = true ∧ NearestEven r n d
  else r = if n < 0 then 0xFFF0000000000000#64 else 0x7FF0000000000000#64

end Sys2Proof.Statements

open Sys2Proof Sys2Proof.Machine Sys2Proof.Statements

/-! ## Encoding -/

/-- R91 to R97: every well-formed command's word decodes to that command, with every operand. -/
def Obligations.DecodeOfEncode : Prop := ∀ i : Instr, i.wellFormed = true → decode (encode i) = .command i

/-- R90 to R97: a word that decodes is the word of the command it decodes to, and of no other. -/
def Obligations.EncodeOfDecode : Prop := ∀ (w : Word) (i : Instr), decode w = .command i → i.wellFormed = true ∧ encode i = w

/-- R94: a word is a legal command exactly when its opcode is in the table and its reserved bits are 0, and it is then the
row's command with the fields of R95 to R97. -/
def Obligations.LegalWordsAreTheTable : Prop :=
  ∀ (w : Word) (i : Instr),
    decode w = .command i ↔ ∃ r ∈ opcodeRows, w.toNat % 2 ^ 8 = r.opc ∧ w &&& r.res = 0#32 ∧ i = r.command w

/-- R95 to R97's example words and R94's words without fields, written out from the formats. -/
def Obligations.SampleWordsDecode : Prop :=
  (∀ p ∈ plainWords, decode p.1 = .command p.2) ∧
  decode 0x00010003#32 = .command (.permRead 256) ∧ decode 0xAB000502#32 = .command (.permWrite 5 0xAB#8) ∧
  decode 0x00009620#32 = .command (.colorMap 150#8) ∧ decode 0x00000004#32 = .illegalOpcode ∧
  decode 0x00000110#32 = .reservedBits

/-! ## Steps -/

/-- A host turn with a CMD write at the head of the requests runs the command the word decodes to, when the engine is idle
(R223): `step` is `exec` of it, on the state whose turn and request are taken and whose response is `err = 0` (R61, R64). -/
def Obligations.HostTurnRunsDecodedCommand : Prop :=
  ∀ (s : State) (w : Word) (i : Instr) (rest : List HostReq) (ts : List Turn),
    s.env.rstN = true → s.env.rsp = none → s.engine = .idle → decode w = .command i →
    s.env.turns = .host :: ts → s.env.requests = .write 0x10#8 w 0xF#4 :: rest →
    step s = exec i { s with env := { s.env with turns := ts, requests := rest, rsp := some ⟨false, none⟩ } }

/-- An engine turn with a command in flight runs the command its word decodes to (R225): `step` is `exec` of it, on the state
whose turn is taken; with nothing scheduled the engine's is the turn (R226, log entry 2). -/
def Obligations.EngineTurnRunsCommandInFlight : Prop :=
  ∀ (s : State) (w : Word) (l : Latched) (seq : Option RenderSeq) (i : Instr),
    s.env.rstN = true → s.engine = .busy w l seq → decode w = .command i →
    (s.env.turns = [] ∨ s.env.turns.head? = some .engine) → step s = exec i (popTurn s)

/-- A word placed by `withFetchWord` is what the very next step takes (log entry 3). -/
def Obligations.FetchedWordRunsNext : Prop :=
  ∀ (s : State) (i : Instr), i.wellFormed = true →
    step (s.withFetchWord 32 (encode i).toNat) =
      exec i { s with engine := .idle, q := [], env := { s.env with rstN := true, rsp := some ⟨false, none⟩ } }

/-! ## Acceptance and faults -/

/-- R99, R223: a full-width write to CMD with the engine idle runs `accept(w)`: the first check that fails, in the fixed order,
decides the fault, which records four fields and nothing else (R247); with none failing the command is accepted and latches the
live registers. While BUSY, `accept` does not run: the word is neither decoded nor queued. Only the response is added (R64). -/
def Obligations.AcceptChecksInOrder : Prop :=
  ∀ (w : Word) (s : State),
    ∃ r, r.err = false ∧
      let s1 : State := { s with env := { s.env with rsp := some r } }
      (s.engine = .idle → hostTransact exec (.write 0x10#8 w 0xF#4) s = .next (acceptOf w s1)) ∧
      (s.busy = true → hostTransact exec (.write 0x10#8 w 0xF#4) s = .next { s1 with ovr := true })

/-- R249: a host turn with a CMD write at the head of the requests, while BUSY, sets OVR and does nothing else to the block; and
OVR, once set, is cleared by no step but a STATUS write with bit 3 set and a reset. -/
def Obligations.OverrunOnlySetsOvr : Prop :=
  (∀ (s : State) (w : Word) (rest : List HostReq) (ts : List Turn),
    s.env.rstN = true → s.env.rsp = none → s.busy = true → s.env.turns = .host :: ts →
    s.env.requests = .write 0x10#8 w 0xF#4 :: rest →
    ∃ t, step s = .next t ∧ t = { s with ovr := true, env := t.env }) ∧
  (∀ s t : State, step s = .next t → s.ovr = true → t.ovr = false →
    t = { State.reset with env := t.env } ∨
    ∃ v rest, s.env.requests = .write 0x0C#8 v 0xF#4 :: rest ∧ v.getLsbD 3 = true)

/-- R43, R98: an engine step reads the latched operands and the table, never the live operand registers: other values in them
change nothing of what it does, and it leaves them as they are. -/
def Obligations.EngineReadsOnlyLatchedOperands : Prop :=
  ∀ (i : Instr) (s t : State) (a b c d e f g : Word) (o : Byte),
    s.busy = true → exec i s = .next t →
    exec i (withOperands s a b c d e f g o) = .next (withOperands t a b c d e f g o)

/-! ## The commands at completion: the result and the frame, every other field as it was -/

/-- R220: NOP completes and does nothing else. -/
def Obligations.NopCompletes : Prop :=
  ∀ (s : State) (l : Latched) (seq : Option RenderSeq), s.engine = .busy 0x00000000#32 l seq →
    exec .nop s = .next { s with engine := .idle, done := true }

/-- R125, R122, R123: PERM_BUILD leaves the table of the latched seed, entry by entry, as the generator and the shuffle written out
above give it, and TABLE_STATE = BUILT. -/
def Obligations.PermBuildCompletes : Prop :=
  ∀ (s : State) (l : Latched) (seq : Option RenderSeq), s.engine = .busy 0x00000001#32 l seq →
    ∃ t, exec .permBuild s = .next t ∧
      t = { s with engine := .idle, done := true, tableState := .built, pt := t.pt } ∧ t.pt.wf = true ∧
      ∀ k, k ≤ 256 → t.pt.read k = (buildTable l.seed).getD k 0#8 ∧ (t.pt.read k).toNat = tableSpec l.seed.toNat k

/-- R126: PERM_WRITE writes the entry, and entry 256 with entry 0; every other entry reads as before. -/
def Obligations.PermWriteCompletes : Prop :=
  ∀ (s : State) (index : Nat) (data8 : Byte) (l : Latched) (seq : Option RenderSeq),
    s.engine = .busy (encode (.permWrite index data8)) l seq → l.index = index → l.data8 = data8 → index ≤ 255 →
    s.pt.wf = true →
    ∃ t, exec (.permWrite index data8) s = .next t ∧
      t = { s with engine := .idle, done := true, tableState := .host, pt := t.pt } ∧ t.pt.wf = true ∧
      ∀ k, t.pt.read k = if k = index ∨ (index = 0 ∧ k = 256) then data8 else s.pt.read k

/-- R127: PERM_READ brings one entry, 0 to 256, into PERM_DATA. -/
def Obligations.PermReadCompletes : Prop :=
  ∀ (s : State) (index : Nat) (l : Latched) (seq : Option RenderSeq),
    s.engine = .busy (encode (.permRead index)) l seq → l.index = index → index ≤ 256 →
    exec (.permRead index) s = .next { s with engine := .idle, done := true, permData := s.pt.read index }

/-- R147, R33: NOISE_EVAL writes the noise at the latched coordinate into RESULT, LO and HI halves; the noise is R141 to R145's, written
out above. -/
def Obligations.NoiseEvalCompletes : Prop :=
  ∀ (s : State) (l : Latched) (seq : Option RenderSeq), s.engine = .busy 0x00000010#32 l seq →
    ∃ t, exec .noiseEval s = .next t ∧ t.resultHi ++ t.resultLo = noise2d s.pt l.x l.y ∧
      noise2d s.pt l.x l.y = noiseSpec s.pt l.x l.y ∧
      t = { s with engine := .idle, done := true, resultLo := t.resultLo, resultHi := t.resultHi }

/-- R173, R33: FBM_EVAL writes the octave sum at the latched coordinate into RESULT; the sum is R171's loop, written out above. -/
def Obligations.FbmEvalCompletes : Prop :=
  ∀ (s : State) (l : Latched) (seq : Option RenderSeq), s.engine = .busy 0x00000011#32 l seq →
    ∃ t, exec .fbmEval s = .next t ∧ t.resultHi ++ t.resultLo = fbm s.pt l.x l.y l.octaves ∧
      fbm s.pt l.x l.y l.octaves = fbmSpec s.pt l.x l.y l.octaves ∧
      t = { s with engine := .idle, done := true, resultLo := t.resultLo, resultHi := t.resultHi }

/-- R186, R180 to R182: INTENSITY_MAP writes the intensity of the latched X, for every finite X (what acceptance admits) the one
written out above; SATURATE is this hardware's setting (R10, log entry 9). The narrowing of a NaN is open (log entry 12). -/
def Obligations.IntensityMapCompletes : Prop :=
  ∀ (s : State) (l : Latched) (seq : Option RenderSeq), s.engine = .busy 0x00000012#32 l seq →
    exec .intensityMap s =
      .next { s with engine := .idle, done := true, intensity := intensityUnder .saturate l.x } ∧
    (f64IsFinite l.x = true → intensityUnder .saturate l.x = intensitySpec l.x)

/-- R187, R183, R185: COLOR_MAP writes the colour of the latched intensity, by its band, as one pixel word. -/
def Obligations.ColorMapCompletes : Prop :=
  ∀ (s : State) (imm8 : Byte) (l : Latched) (seq : Option RenderSeq),
    s.engine = .busy (encode (.colorMap imm8)) l seq → l.imm8 = imm8 →
    exec (.colorMap imm8) s = .next { s with engine := .idle, done := true, color := colorWordSpec imm8.toNat }

/-- R188, R182, R183, R185: PIXEL_EVAL writes the octave sum, its intensity, and that intensity's colour as one pixel word, all in
one step; SATURATE is this hardware's setting (R10, log entry 9). The intensity is R180's, written out above, wherever acceptance
admits the operands. -/
def Obligations.PixelEvalCompletes : Prop :=
  ∀ (s : State) (l : Latched) (seq : Option RenderSeq), s.engine = .busy 0x00000021#32 l seq →
    ∃ t, exec .pixelEval s = .next t ∧ t.resultHi ++ t.resultLo = fbmSpec s.pt l.x l.y l.octaves ∧
      t.intensity = intensityUnder .saturate (fbmSpec s.pt l.x l.y l.octaves) ∧
      (fbmOperandsOk l.x l.y l.octaves = true → t.intensity = intensitySpec (fbmSpec s.pt l.x l.y l.octaves)) ∧
      t.color = colorWordSpec t.intensity.toNat ∧
      t = { s with engine := .idle, done := true, resultLo := t.resultLo, resultHi := t.resultHi,
                   intensity := t.intensity, color := t.color }

/-- R202: with pixels left and room in Q, a RENDER's engine step appends the pixel at (rx, ry), `last` on the final one only,
and moves on in row-major order. For every position a frame has, the word is R201's, written out above. -/
def Obligations.RenderProducesNextPixel : Prop :=
  ∀ (s : State) (l : Latched) (p : RenderSeq), s.engine = .busy 0x00000030#32 l (some p) →
    p.produced < l.width.toNat * l.height.toNat → s.q.length < Config.pixFifoDepth →
    exec .render s = .next { s with
      q := s.q ++ [⟨pixelWord s.pt l.octaves p.rx p.ry, decide (p.produced + 1 = l.width.toNat * l.height.toNat)⟩],
      engine := .busy 0x00000030#32 l (some
        (if p.rx + 1 = l.width.toNat then ⟨0, p.ry + 1, p.produced + 1⟩ else ⟨p.rx + 1, p.ry, p.produced + 1⟩)) } ∧
    (p.rx < 65536 → p.ry < 65536 → pixelWord s.pt l.octaves p.rx p.ry = pixelSpec s.pt l.octaves p.rx p.ry)

/-- R203: with Q full and pixels left, and R205: with every pixel produced and Q not yet empty, the engine holds: nothing changes. -/
def Obligations.RenderHoldsOnFullQueue : Prop :=
  ∀ (s : State) (l : Latched) (p : RenderSeq), s.engine = .busy 0x00000030#32 l (some p) →
    (p.produced < l.width.toNat * l.height.toNat ∧ s.q.length = Config.pixFifoDepth) ∨
      (p.produced = l.width.toNat * l.height.toNat ∧ s.q ≠ []) → exec .render s = .next s

/-- R205: with every pixel produced and Q empty, the RENDER completes; RESULT, INTENSITY, COLOR, PT and PIXEL_COUNT stay, and in
a state with the invariant PIXEL_COUNT is then W * H. -/
def Obligations.RenderCompletes : Prop :=
  ∀ (s : State) (l : Latched) (p : RenderSeq), s.engine = .busy 0x00000030#32 l (some p) →
    p.produced = l.width.toNat * l.height.toNat → s.q = [] →
    exec .render s = .next { s with engine := .idle, done := true } ∧
    (Inv s → s.pixelCount.toNat = l.width.toNat * l.height.toNat)

/-- What the spec infers from R202 and R205 in R206: a RENDER of zero width or height is accepted when a table exists, and its
first engine step completes it: no word, no error, PIXEL_COUNT 0. With no table, it faults with NO_TABLE all the same. -/
def Obligations.RenderOfZeroSize : Prop :=
  ∀ s : State, s.engine = .idle → s.q = [] → (s.dims.toNat % 2 ^ 16 = 0 ∨ s.dims.toNat / 2 ^ 16 = 0) →
    (s.tableState ≠ .none →
      ∃ t u, exec .render s = .next t ∧ t.busy = true ∧ exec .render t = .next u ∧
        u = { s with lastOpc := 0x30#8, done := true, pixelCount := 0#32 }) ∧
    (s.tableState = .none → exec .render s =
      .next { s with lastOpc := 0x30#8, err := true, errCode := .noTable, errCmd := 0x00000030#32 })

/-! ## Control, status and the interrupt -/

/-- R221: a full-width write to CTRL, in one step: SOFT_RESET wins over every other bit; else the enables are written, and ABORT
acts while BUSY. Only the response is added (R64). -/
def Obligations.CtrlWriteActs : Prop :=
  ∀ (v : Word) (s : State), ∃ r, r.err = false ∧
    let s1 : State := { s with env := { s.env with rsp := some r } }
    let t := hostTransact exec (.write 0x08#8 v 0xF#4) s
    (v.getLsbD 0 = true → t = .next { State.reset with env := s1.env }) ∧
    (v.getLsbD 0 = false → (v.getLsbD 1 = false ∨ s.busy = false) →
      t = .next { s1 with ieDone := v.getLsbD 2, ieErr := v.getLsbD 3 }) ∧
    (v.getLsbD 0 = false → v.getLsbD 1 = true → s.busy = true →
      t = .next (abortCommand { s1 with ieDone := v.getLsbD 2, ieErr := v.getLsbD 3 }))

/-- R222: an abort empties Q, idles the engine and records ABORTED with the word in flight; DONE, PIXEL_COUNT, the result
registers and LAST_OPC stay. Only an abort of PERM_BUILD touches the table: `PT[256] = PT[0]` still holds, and TABLE_STATE is
NONE. What the other entries are is left open. -/
def Obligations.AbortEndsCommand : Prop :=
  ∀ (s : State) (cmd : Word) (l : Latched) (seq : Option RenderSeq), s.engine = .busy cmd l seq →
    let t := abortCommand s
    (cmd.toNat % 2 ^ 8 ≠ 0x01 →
      t = { s with q := [], engine := .idle, err := true, errCode := .aborted, errCmd := cmd }) ∧
    (cmd.toNat % 2 ^ 8 = 0x01 →
      t = { s with q := [], engine := .idle, err := true, errCode := .aborted, errCmd := cmd, tableState := .none,
                   pt := t.pt, env := { s.env with draws := t.env.draws } } ∧
      t.pt.wf = true ∧ t.pt.read 256 = t.pt.read 0)

/-- R25, R251: after a full-width write of `v` to STATUS, in STATUS as the host reads it, each of bits 1, 2, 3 whose written bit is 1
is cleared, a 1 in bit 2 clears ERR_CODE, and every other bit is as it was; nothing outside STATUS changes. Only the response is
added (R64). -/
def Obligations.StatusWriteClears : Prop :=
  ∀ (v : Word) (s : State), ∃ r t, r.err = false ∧ hostTransact exec (.write 0x0C#8 v 0xF#4) s = .next t ∧
    t = { s with done := t.done, err := t.err, ovr := t.ovr, errCode := t.errCode, env := { s.env with rsp := some r } } ∧
    ∀ k, k < 32 → (statusWord t).getLsbD k =
      if k = 1 ∨ k = 2 ∨ k = 3 then (statusWord s).getLsbD k && !v.getLsbD k
      else if 8 ≤ k ∧ k < 12 then (statusWord s).getLsbD k && !v.getLsbD 2
      else (statusWord s).getLsbD k

/-- R25: STATUS is the weighted sum of its fields; every reserved bit reads 0. -/
def Obligations.StatusWordLayout : Prop := ∀ s : State, (statusWord s).toNat = statusNumber s

/-- R46: in every state `irq` is computed from the bits of STATUS and CTRL that the host reads, and it is 0 after reset; writing 1
to all three source bits drops it (R251). -/
def Obligations.IrqIsSourcesAndEnables : Prop :=
  ∀ s : State,
    irq s = (((readReg .status s).getLsbD 1 && (readReg .ctrl s).getLsbD 2) ||
      (((readReg .status s).getLsbD 2 || (readReg .status s).getLsbD 3) && (readReg .ctrl s).getLsbD 3)) ∧
    irq (writeStatus 0x0000000E#32 s) = false ∧ irq State.reset = false

/-! ## The host bus -/

/-- R62, R63: a misaligned access, and a write with any strobe but 0b1111, answers `err = 1` (a read, `rdata = 0`) and changes
no state of the block. -/
def Obligations.MalformedAccessHasNoEffect : Prop :=
  ∀ (addr : BitVec 8) (v : Word) (strb : BitVec 4) (s : State),
    (addr.toNat % 4 ≠ 0 → hostTransact exec (.read addr) s =
      .next { s with env := { s.env with rsp := some ⟨true, some 0#32⟩ } }) ∧
    (addr.toNat % 4 ≠ 0 ∨ strb ≠ 0xF#4 →
      ∃ r, r.err = true ∧ hostTransact exec (.write addr v strb) s = .next { s with env := { s.env with rsp := some r } })

/-- R65: a word-aligned, full-width transaction to an offset from 0x54 up answers `err = 0`; a read gives 0 and a write has
no effect. -/
def Obligations.ReservedOffsetsReadZero : Prop :=
  ∀ (addr : BitVec 8) (v : Word) (s : State), addr.toNat % 4 = 0 → 0x54 ≤ addr.toNat →
    hostTransact exec (.read addr) s = .next { s with env := { s.env with rsp := some ⟨false, some 0#32⟩ } } ∧
    ∃ r, r.err = false ∧ hostTransact exec (.write addr v 0xF#4) s = .next { s with env := { s.env with rsp := some r } }

/-- R21 to R38, R71, R64: a read at the offset of any of the 21 registers in R21's table answers the value the table's register holds,
with `err = 0`, and changes nothing of the block; every register has its row. -/
def Obligations.ReadsHaveNoSideEffect : Prop :=
  ∀ s : State, (∀ r : Reg, r ∈ (registerRows s).map (·.1)) ∧
    ∀ (r : Reg) (offset : BitVec 8) (value : Word), (r, offset, value) ∈ registerRows s →
      regOffset r = offset ∧ readReg r s = value ∧
      hostTransact exec (.read offset) s = .next { s with env := { s.env with rsp := some ⟨false, some value⟩ } }

/-- R64: a write to a read-only register is ignored with `err = 0`. -/
def Obligations.ReadOnlyRegistersIgnoreWrites : Prop :=
  ∀ (r : Reg) (v : Word) (s : State), r ∈ readOnlyRegs →
    ∃ a, a.err = false ∧
      hostTransact exec (.write (regOffset r) v 0xF#4) s = .next { s with env := { s.env with rsp := some a } }

/-- R28 to R32, R71, R64: a write to an operand register, BUSY or not, answers `err = 0` and is read back (OCTAVES keeps its low byte),
every other register reads as before, and the table, the engine with its latched operands, Q and all of `env` but the response
stay. -/
def Obligations.OperandWriteReadsBack : Prop :=
  ∀ (r : Reg) (v : Word) (s : State), r ∈ operandRegs →
    ∃ a t, a.err = false ∧ hostTransact exec (.write (regOffset r) v 0xF#4) s = .next t ∧
      readReg r t = (if r = .octaves then v &&& 0xFF#32 else v) ∧ (∀ r', r' ≠ r → readReg r' t = readReg r' s) ∧
      t.pt = s.pt ∧ t.engine = s.engine ∧ t.q = s.q ∧ t.env = { s.env with rsp := some a }

/-! ## Reset -/

/-- R271: the registers after reset, the identity table, TABLE_STATE NONE, the engine IDLE, Q empty and `irq` 0. -/
def Obligations.ResetValues : Prop :=
  (∀ r, readReg r State.reset = resetValue r) ∧
  (∀ k, k ≤ 255 → (State.reset.pt.read k).toNat = k) ∧ State.reset.pt.read 256 = 0#8 ∧
  (∀ a : BitVec 8, 0x54 ≤ a.toNat → readOffset a State.reset = 0#32) ∧
  State.reset.tableState = .none ∧ State.reset.engine = .idle ∧ State.reset.q = [] ∧ irq State.reset = false

/-- R270, R271, R272: from every state, a fall of `rst_n` and a host write of SOFT_RESET each put the block in the reset state;
the fall drops an outstanding response, the write gets its own with `err = 0`. -/
def Obligations.ResetFromEveryState : Prop :=
  ∀ (s : State) (ts : List Turn), s.env.rstN = true →
    (s.env.turns = .rstAssert :: ts →
      step s = .next { State.reset with env := { s.env with turns := ts, rstN := false, rsp := none } }) ∧
    (∀ (v : Word) (rest : List HostReq), s.env.turns = .host :: ts → s.env.rsp = none → v.getLsbD 0 = true →
      s.env.requests = .write 0x08#8 v 0xF#4 :: rest →
      step s = .next { State.reset with env := { s.env with turns := ts, requests := rest, rsp := some ⟨false, none⟩ } })

/-- R270, R272: while `rst_n` is low, no turn but its rise changes anything, and requests wait; its rise raises it and changes
nothing else. -/
def Obligations.HeldResetTakesNoStep : Prop :=
  ∀ s : State, s.env.rstN = false →
    (s.env.turns.head? ≠ some .rstRelease → step s = .next (popTurn s)) ∧
    ∀ ts, s.env.turns = .rstRelease :: ts → step s = .next { s with env := { s.env with turns := ts, rstN := true } }

/-! ## Arithmetic -/

/-- R13: the sum of two finite values is the exact sum rounded once; an exact sum of zero is -0.0 when both are negative, else +0.0
(the zero's sign is log entry 19). -/
def Obligations.AdditionRoundsToNearestEven : Prop :=
  ∀ a b : F64, f64IsFinite a = true → f64IsFinite b = true →
    RoundedOnce (f64Add a b) (f64Units a + f64Units b) 1 ∧
    (f64Units a + f64Units b = 0 →
      f64Add a b = if f64Sign a = true ∧ f64Sign b = true then 0x8000000000000000#64 else 0x0000000000000000#64)

/-- R13: the product of two finite values is the exact product rounded once, its sign negative exactly when theirs differ (a
zero's sign is log entry 19). -/
def Obligations.MultiplicationRoundsToNearestEven : Prop :=
  ∀ a b : F64, f64IsFinite a = true → f64IsFinite b = true →
    RoundedOnce (f64Mul a b) (f64Units a * f64Units b) (2 ^ 1074) ∧
    (f64Sign (f64Mul a b) = true ↔ f64Sign a ≠ f64Sign b)

/-- R13: the quotient of a finite value by a finite value other than zero is the exact quotient rounded once, its sign negative
exactly when theirs differ (a zero's sign is log entry 19). -/
def Obligations.DivisionRoundsToNearestEven : Prop :=
  ∀ a b : F64, f64IsFinite a = true → f64IsFinite b = true → f64Units b ≠ 0 →
    RoundedOnce (f64Div a b) (f64Units a * 2 ^ 1074 * (f64Units b).sign) (f64Units b).natAbs ∧
    (f64Sign (f64Div a b) = true ↔ f64Sign a ≠ f64Sign b)

/-- R140: the lattice index of a finite coordinate is its exact floor mod 256, however large it is, and the offset is one subtraction
of that floor, which converts exactly (R13; the integer 0 to +0.0), rounded once, at least 0 and at most 1. -/
def Obligations.LatticeCellIsFloorAndOffset : Prop :=
  ∀ c : F64, f64IsFinite c = true →
    ∃ n : Int, n * 2 ^ 1074 ≤ f64Units c ∧ f64Units c < (n + 1) * 2 ^ 1074 ∧
      ((latticeCell c).1 : Int) = n % 256 ∧ (latticeCell c).1 < 256 ∧
      f64IsFinite (f64OfInt n) = true ∧ f64Units (f64OfInt n) = n * 2 ^ 1074 ∧ (n = 0 → f64OfInt n = 0x0000000000000000#64) ∧
      (latticeCell c).2 = subSpec c (f64OfInt n) ∧
      f64IsFinite (latticeCell c).2 = true ∧ NearestEven (latticeCell c).2 (f64Units c - n * 2 ^ 1074) 1 ∧
      0 ≤ f64Units (latticeCell c).2 ∧ f64Units (latticeCell c).2 ≤ 2 ^ 1074

/-- R144: with `PT[256] = PT[0]`, the corner hashes are those of every index reduced mod 256. -/
def Obligations.CornerHashesWrap : Prop :=
  ∀ (pt : Memory) (xi yi : Nat), pt.read 256 = pt.read 0 → xi < 256 → yi < 256 →
    cornerHashes pt xi yi =
      let a := (pt.read xi).toNat + yi
      let b := (pt.read ((xi + 1) % 256)).toNat + yi
      { h00 := pt.read (a % 256), h10 := pt.read (b % 256), h01 := pt.read ((a + 1) % 256),
        h11 := pt.read ((b + 1) % 256) }

/-- R145: for every finite input the noise is finite, on every table. -/
def Obligations.NoiseIsFinite : Prop :=
  ∀ (pt : Memory) (x y : F64), f64IsFinite x = true → f64IsFinite y = true → f64IsFinite (noise2d pt x y) = true

/-- R225, R171, R172: for operands that acceptance admits, the octave sum is finite, on every table and for every octave
count. -/
def Obligations.FbmIsFinite : Prop :=
  ∀ (pt : Memory) (x y : F64) (o : Byte), fbmOperandsOk x y o = true → f64IsFinite (fbm pt x y o) = true

/-- R170: the frequency of octave k has FREQ0's pattern with k added to its exponent, for every k an 8-bit count reaches. -/
def Obligations.OctaveFrequencyPatterns : Prop :=
  ∀ k, k ≤ 254 → (octaveFreq k).toNat = 0x3F747AE147AE147B + k * 2 ^ 52

/-- R171: no octaves give +0.0; one octave gives the noise at the base frequency, a -0.0 becoming +0.0. -/
def Obligations.FbmOfFewOctaves : Prop :=
  ∀ (pt : Memory) (x y : F64), fbm pt x y 0#8 = 0#64 ∧
    (f64IsFinite (f64Mul x freq0) = true → f64IsFinite (f64Mul y freq0) = true →
      fbm pt x y 1#8 =
        if noise2d pt (f64Mul x freq0) (f64Mul y freq0) = 0x8000000000000000#64 then 0#64
        else noise2d pt (f64Mul x freq0) (f64Mul y freq0))

/-- R172: the operand check asks that both coordinates and every octave's scaled coordinates be finite, and that is the same as
asking it of the last octave alone. -/
def Obligations.LastOctaveDecidesOperandCheck : Prop :=
  ∀ (x y : F64) (o : Byte),
    (fbmOperandsOk x y o = true ↔
      f64IsFinite x = true ∧ f64IsFinite y = true ∧
      ∀ k, k < o.toNat → f64IsFinite (f64Mul x (octaveFreq k)) = true ∧ f64IsFinite (f64Mul y (octaveFreq k)) = true) ∧
    (fbmOperandsOk x y o = true ↔
      f64IsFinite x = true ∧ f64IsFinite y = true ∧
      (0 < o.toNat → f64IsFinite (f64Mul x (octaveFreq (o.toNat - 1))) = true ∧
        f64IsFinite (f64Mul y (octaveFreq (o.toNat - 1))) = true))

/-- R181: a finite value rounds to the integer that is at most one half away, ties going away from zero; an infinity stays. -/
def Obligations.RoundHalfAwayFromZero : Prop :=
  ∀ t : F64,
    (f64IsFinite t = true → ∃ n : Int, roundHalfAway t = .int n ∧
      2 * |f64Units t - n * 2 ^ 1074| ≤ 2 ^ 1074 ∧
      (2 * |f64Units t - n * 2 ^ 1074| = 2 ^ 1074 → |f64Units t| < |n * 2 ^ 1074|)) ∧
    (t = 0x7FF0000000000000#64 → roundHalfAway t = .posInf) ∧ (t = 0xFFF0000000000000#64 → roundHalfAway t = .negInf)

/-- R182: narrowing: SATURATE clamps to 0 and 255, WRAP takes the integer mod 256, and this hardware saturates (R10). -/
def Obligations.NarrowingOfIntegers : Prop :=
  Config.intensityNarrow = .saturate ∧
  ∀ (t : F64) (n : Int),
    ((narrow .saturate t (.int n)).toNat : Int) = max 0 (min 255 n) ∧ narrow .saturate t .posInf = 255#8 ∧
    narrow .saturate t .negInf = 0#8 ∧ ((narrow .wrap t (.int n)).toNat : Int) = n % 256

/-- What the spec infers from R183 in R184: exactly one band applies to each intensity, no channel sum leaves 8 bits, and A is
255. -/
def Obligations.ColorBandsNeverWrap : Prop :=
  ∀ i : Byte,
    let c := colorOf i
    c.a = 255#8 ∧
    (i.toNat ≤ 100 → (c.r.toNat, c.g.toNat, c.b.toNat) = (67, i.toNat + 65, i.toNat + 155)) ∧
    (101 ≤ i.toNat → i.toNat ≤ 140 → (c.r.toNat, c.g.toNat, c.b.toNat) = (i.toNat + 60, i.toNat, 44)) ∧
    (141 ≤ i.toNat → i.toNat ≤ 210 → (c.r.toNat, c.g.toNat, c.b.toNat) = (92, i.toNat + 45, 36)) ∧
    (211 ≤ i.toNat → (c.r.toNat, c.g.toNat, c.b.toNat) = (244, 249, 255))

/-- What the spec infers from R123 in R124: for every seed the built table is a permutation of 0 to 255, and entry 256 equals
entry 0. -/
def Obligations.BuiltTableIsPermutation : Prop :=
  ∀ seed : U64, (buildTable seed).length = 257 ∧
    ((buildTable seed).take 256).Perm ((List.range 256).map (BitVec.ofNat 8)) ∧
    (buildTable seed).getD 256 0#8 = (buildTable seed).getD 0 0#8

/-! ## The whole machine -/

/-- The reset state satisfies the invariant. -/
def Obligations.ResetSatisfiesInv : Prop := Inv State.reset

/-- Every step from a state with the invariant leads to one: the table's form and wrap entry (R40, R120), a BUILT table (R41),
what acceptance admitted (R42 to R44, R99), the stream in row-major order, once (R45, R76), and held reset (R270). -/
def Obligations.StepKeepsInv : Prop := ∀ s t : State, Inv s → step s = .next t → Inv t

/-- R40, R120: `PT[256] = PT[0]` and the canonical form are kept by every step from every state that has them, reachable or
not. -/
def Obligations.StepKeepsTable : Prop := ∀ s t : State, TableOk s → step s = .next t → TableOk t

/-- R225, R250: in no state with the invariant does a step stop: whatever agent moves, there is a next state. -/
def Obligations.StepNeverStops : Prop := ∀ s : State, Inv s → ∃ t, step s = .next t

/-- R80: the table's contents change only through PERM_BUILD or PERM_WRITE completing, an abort of PERM_BUILD, and reset. -/
def Obligations.TableChangesOnlyByTableCommands : Prop :=
  ∀ s t : State, step s = .next t →
    t.pt = s.pt ∨ t = { State.reset with env := t.env } ∨
    ∃ cmd l seq, s.engine = .busy cmd l seq ∧ t.engine = .idle ∧
      ((cmd.toNat % 2 ^ 8 = 0x01 ∧ t.tableState = .built ∧ t.pt = tableOfList (buildTable l.seed)) ∨
       (cmd.toNat % 2 ^ 8 = 0x02 ∧ t.tableState = .host ∧ t.pt = writeEntry s.pt l.index l.data8) ∨
       (cmd.toNat % 2 ^ 8 = 0x01 ∧ t.tableState = .none ∧ t.err = true ∧ t.errCode = .aborted ∧ t.errCmd = cmd))

/-- R38: ERR_CMD is written only by a fault, which records the word the host writes to CMD in that step, by an abort, which records the
word in flight, and by reset. -/
def Obligations.ErrCmdWrittenOnlyByFaults : Prop :=
  ∀ s t : State, step s = .next t →
    t.errCmd = s.errCmd ∨ t = { State.reset with env := t.env } ∨
    (t.err = true ∧ t.engine = .idle ∧
      ((∃ l seq, s.engine = .busy t.errCmd l seq ∧ t.errCode = .aborted) ∨
       (s.engine = .idle ∧ t.errCode ≠ .none ∧ t.errCode ≠ .aborted ∧ t.lastOpc = BitVec.ofNat 8 t.errCmd.toNat ∧
        ∃ rest, s.env.requests = .write 0x10#8 t.errCmd 0xF#4 :: rest)))

/-- R36: PIXEL_COUNT changes only to 0, by RENDER acceptance or reset, and by one more, by a sink transfer, which takes the head
of Q to the sink and changes nothing else of the block (R204). -/
def Obligations.PixelCountCountsTransfers : Prop :=
  ∀ s t : State, step s = .next t →
    t.pixelCount = s.pixelCount ∨
    (t.pixelCount = 0#32 ∧ s.engine = .idle ∧ t.lastOpc = 0x30#8 ∧
      ∃ l, t.engine = .busy 0x00000030#32 l (some ⟨0, 0, 0⟩)) ∨
    t = { State.reset with env := t.env } ∨
    ∃ e, s.q = e :: t.q ∧ t.pixelCount = s.pixelCount + 1#32 ∧
      t = { s with q := t.q, pixelCount := t.pixelCount, env := { s.env with turns := t.env.turns, received := s.env.received ++ [e] } }

/-- R75, R275: while BUSY, the result registers hold what they held. -/
def Obligations.ResultsHoldWhileBusy : Prop :=
  ∀ s t : State, step s = .next t → s.busy = true → t.busy = true → resultRegs t = resultRegs s

/-- R225, R226: from a state with the invariant, the engine's turn completes any command in flight but a RENDER. -/
def Obligations.EngineTurnCompletesCommand : Prop :=
  ∀ (s : State) (cmd : Word) (l : Latched) (seq : Option RenderSeq), Inv s → s.engine = .busy cmd l seq →
    s.env.rstN = true → s.env.turns.head? = some .engine → cmd.toNat % 2 ^ 8 ≠ 0x30 →
    ∃ t, step s = .next t ∧ t.engine = .idle ∧ t.done = true ∧ t.err = s.err ∧ t.errCode = s.errCode

/-- R202, R204, R205, R76: a RENDER just accepted, whose engine and sink take turns, delivers the whole frame in row-major order,
each pixel once, and completes after 2 * W * H + 1 steps with PIXEL_COUNT = W * H. The list of turns (log entry 1) and the sink's
record (log entry 17) are the model's own fields. -/
def Obligations.RenderDeliversFrame : Prop :=
  ∀ (s : State) (l : Latched), s.engine = .busy 0x00000030#32 l (some ⟨0, 0, 0⟩) → s.q = [] → s.pixelCount = 0#32 →
    s.env.rstN = true →
    s.env.turns = (List.replicate (frameSize l) [Turn.engine, Turn.sink]).flatten ++ [Turn.engine] →
    ∃ t : State, runSteps (2 * frameSize l + 1) s = .next t ∧ t.engine = .idle ∧ t.done = true ∧
      t.q = [] ∧ t.pixelCount.toNat = frameSize l ∧
      t.env.received = s.env.received ++ framePrefix s.pt l (frameSize l) ∧ t.pt = s.pt ∧
      resultRegs t = resultRegs s
end

