-- ==== Sys2Proof/Laws/Binary64.lean ====
section
/-! SUPPORT. What rounding does, said once: the magnitude patterns 0, 1, 2, ... stand for strictly rising numbers of units
(`magUnits`), the exact value lies between two neighbours, and `f64RoundMag` answers the nearer one. -/

namespace Sys2Proof.Machine

/-- The units that the magnitude pattern `p` (bits 62:0 of a finite value) stands for. -/
def magUnits (p : Nat) : Nat :=
  if p / 2 ^ 52 = 0 then p % 2 ^ 52 else (2 ^ 52 + p % 2 ^ 52) * 2 ^ (p / 2 ^ 52 - 1)

/-- A significand of up to 2^53 at spacing `2^e`: the pattern `e * 2^52 + m`. -/
theorem magUnits_pattern (e m : Nat) (hm : m ≤ 2 ^ 53) (h : e = 0 ∨ 2 ^ 52 ≤ m) :
    magUnits (e * 2 ^ 52 + m) = m * 2 ^ e := by
  unfold magUnits
  rcases Nat.lt_or_ge m (2 ^ 52) with h1 | h1
  · have he : e = 0 := by omega
    subst he
    rw [if_pos (by omega)]
    omega
  · rcases Nat.lt_or_ge m (2 ^ 53) with h2 | h2
    · have hd : (e * 2 ^ 52 + m) / 2 ^ 52 = e + 1 := by omega
      have hr : (e * 2 ^ 52 + m) % 2 ^ 52 = m - 2 ^ 52 := by omega
      rw [hd, hr, if_neg (by omega), Nat.add_sub_cancel, Nat.add_sub_cancel' h1]
    · have hm' : m = 2 ^ 53 := by omega
      have hd : (e * 2 ^ 52 + m) / 2 ^ 52 = e + 2 := by omega
      have hr : (e * 2 ^ 52 + m) % 2 ^ 52 = 0 := by omega
      rw [hd, hr, if_neg (by omega), hm']
      have : e + 2 - 1 = e + 1 := by omega
      rw [this, Nat.pow_succ]
      ring

/-- Every pattern is a significand at a spacing. -/
theorem pattern_split (p : Nat) : ∃ e m, p = e * 2 ^ 52 + m ∧ m < 2 ^ 53 ∧ (e = 0 ∨ 2 ^ 52 ≤ m) := by
  rcases Nat.lt_or_ge p (2 ^ 52) with h | h
  · exact ⟨0, p, by omega, by omega, Or.inl rfl⟩
  · exact ⟨p / 2 ^ 52 - 1, 2 ^ 52 + p % 2 ^ 52, by omega, by omega, Or.inr (by omega)⟩

theorem magUnits_lt_succ (p : Nat) : magUnits p < magUnits (p + 1) := by
  obtain ⟨e, m, rfl, hm, h⟩ := pattern_split p
  rw [magUnits_pattern e m (by omega) h, Nat.add_assoc, magUnits_pattern e (m + 1) (by omega) (by omega)]
  exact Nat.mul_lt_mul_of_pos_right (by omega) (by positivity)

theorem magUnits_strictMono : StrictMono magUnits := strictMono_nat_of_lt_succ magUnits_lt_succ

theorem magUnits_le_iff (p r : Nat) : magUnits p ≤ magUnits r ↔ p ≤ r := magUnits_strictMono.le_iff_le

theorem magUnits_lt_iff (p r : Nat) : magUnits p < magUnits r ↔ p < r := magUnits_strictMono.lt_iff_lt

theorem magUnits_inj {p r : Nat} (h : magUnits p = magUnits r) : p = r := magUnits_strictMono.injective h

@[simp] theorem magUnits_zero : magUnits 0 = 0 := by decide

/-- What rounding does: the exact value lies between two neighbouring patterns, and the nearer is answered, the even one
on a tie, the infinity where that is beyond the finite ones. -/
theorem f64RoundMag_between (num den : Nat) (hden : 0 < den) :
    ∃ p, magUnits p * den ≤ num ∧ num < magUnits (p + 1) * den ∧
      f64RoundMag num den =
        min (if (magUnits p + magUnits (p + 1)) * den < 2 * num ∨
            ((magUnits p + magUnits (p + 1)) * den = 2 * num ∧ p % 2 = 1) then p + 1 else p) f64InfMag := by
  have hq : ∀ q : Nat, q < 2 ^ (Nat.log2 q - 52 + 53) ∧ (Nat.log2 q - 52 = 0 ∨ 2 ^ (Nat.log2 q - 52 + 52) ≤ q) := by
    intro q
    rcases Nat.eq_zero_or_pos q with rfl | hpos
    · decide
    · have h1 : q < 2 ^ (Nat.log2 q + 1) := Nat.lt_log2_self
      have h2 : 2 ^ Nat.log2 q ≤ q := Nat.log2_self_le (by omega)
      refine ⟨lt_of_lt_of_le h1 (Nat.pow_le_pow_right (by omega) (by omega)), ?_⟩
      rcases Nat.lt_or_ge (Nat.log2 q) 53 with h | h
      · left; omega
      · right
        have : Nat.log2 q - 52 + 52 = Nat.log2 q := by omega
        rw [this]; exact h2
  obtain ⟨hlt, hge⟩ := hq (num / den)
  set e := Nat.log2 (num / den) - 52 with he
  have hE : 0 < 2 ^ e := by positivity
  have hm : num / (den * 2 ^ e) = num / den / 2 ^ e := (Nat.div_div_eq_div_mul num den (2 ^ e)).symm
  have hm53 : num / (den * 2 ^ e) < 2 ^ 53 := by
    rw [hm, Nat.div_lt_iff_lt_mul hE]
    calc num / den < 2 ^ (e + 53) := hlt
      _ = 2 ^ 53 * 2 ^ e := by rw [Nat.pow_add]; ring
  have hm52 : e = 0 ∨ 2 ^ 52 ≤ num / (den * 2 ^ e) := by
    refine hge.imp id fun h => ?_
    rw [hm, Nat.le_div_iff_mul_le hE]
    calc 2 ^ 52 * 2 ^ e = 2 ^ (e + 52) := by rw [Nat.pow_add]; ring
      _ ≤ num / den := h
  set m := num / (den * 2 ^ e) with hmdef
  have hd : 0 < den * 2 ^ e := Nat.mul_pos hden hE
  have hsplit : den * 2 ^ e * m + num % (den * 2 ^ e) = num := Nat.div_add_mod num (den * 2 ^ e)
  have hr : num % (den * 2 ^ e) < den * 2 ^ e := Nat.mod_lt _ hd
  have hp : magUnits (e * 2 ^ 52 + m) = m * 2 ^ e := magUnits_pattern e m (by omega) hm52
  have hp1 : magUnits (e * 2 ^ 52 + m + 1) = (m + 1) * 2 ^ e := by
    rw [Nat.add_assoc]; exact magUnits_pattern e (m + 1) (by omega) (by omega)
  refine ⟨e * 2 ^ 52 + m, ?_, ?_, ?_⟩
  · rw [hp]; calc m * 2 ^ e * den = den * 2 ^ e * m := by ring
      _ ≤ num := by omega
  · rw [hp1]; calc num < den * 2 ^ e * m + den * 2 ^ e := by omega
      _ = (m + 1) * 2 ^ e * den := by ring
  · have hsum : (magUnits (e * 2 ^ 52 + m) + magUnits (e * 2 ^ 52 + m + 1)) * den
        = 2 * (den * 2 ^ e * m) + den * 2 ^ e := by rw [hp, hp1]; ring
    have hodd : (e * 2 ^ 52 + m) % 2 = m % 2 := by omega
    rw [hsum, hodd]
    unfold f64RoundMag
    simp only [← he, ← hmdef]
    have c1 : (den * 2 ^ e < 2 * (num % (den * 2 ^ e)) ∨ 2 * (num % (den * 2 ^ e)) = den * 2 ^ e ∧ m % 2 = 1) ↔
        (2 * (den * 2 ^ e * m) + den * 2 ^ e < 2 * num ∨
          2 * (den * 2 ^ e * m) + den * 2 ^ e = 2 * num ∧ m % 2 = 1) := by
      constructor
      · rintro (h | ⟨h, h'⟩)
        · left; omega
        · right; exact ⟨by omega, h'⟩
      · rintro (h | ⟨h, h'⟩)
        · left; omega
        · right; exact ⟨by omega, h'⟩
    by_cases hc : 2 * (den * 2 ^ e * m) + den * 2 ^ e < 2 * num ∨
        2 * (den * 2 ^ e * m) + den * 2 ^ e = 2 * num ∧ m % 2 = 1
    · rw [if_pos (c1.mpr hc), if_pos hc]
    · rw [if_neg (fun h => hc (c1.mp h)), if_neg hc, Nat.add_zero]

theorem f64RoundMag_le_inf (num den : Nat) : f64RoundMag num den ≤ f64InfMag := Nat.min_le_right _ _

/-- A value at most a pattern's rounds to at most that pattern. -/
theorem f64RoundMag_le (num den c : Nat) (hden : 0 < den) (h : num ≤ magUnits c * den) : f64RoundMag num den ≤ c := by
  obtain ⟨p, h1, h2, h3⟩ := f64RoundMag_between num den hden
  rw [h3]
  refine le_trans (Nat.min_le_left _ _) ?_
  have hpc : p ≤ c := (magUnits_le_iff p c).1 (Nat.le_of_mul_le_mul_right (le_trans h1 h) hden)
  rcases Nat.lt_or_ge p c with hlt | hge
  · split <;> omega
  · have hpc' : p = c := by omega
    subst hpc'
    have hs := Nat.mul_lt_mul_of_pos_right (magUnits_lt_succ p) hden
    rw [if_neg]
    push Not
    constructor
    · nlinarith
    · intro h'; exfalso; nlinarith

/-- A value at least a finite pattern's rounds to at least that pattern. -/
theorem le_f64RoundMag (num den c : Nat) (hden : 0 < den) (hc : c ≤ f64InfMag) (h : magUnits c * den ≤ num) :
    c ≤ f64RoundMag num den := by
  obtain ⟨p, h1, h2, h3⟩ := f64RoundMag_between num den hden
  rw [h3]
  refine Nat.le_min.2 ⟨?_, hc⟩
  have hpc : c < p + 1 := (magUnits_lt_iff c (p + 1)).1 (Nat.lt_of_mul_lt_mul_right (lt_of_le_of_lt h h2))
  split <;> omega

/-- A value that a pattern stands for rounds to that pattern. -/
theorem f64RoundMag_exact (den c : Nat) (hden : 0 < den) (hc : c ≤ f64InfMag) : f64RoundMag (magUnits c * den) den = c :=
  le_antisymm (f64RoundMag_le _ _ _ hden le_rfl) (le_f64RoundMag _ _ _ hden hc le_rfl)

/-- Rounding keeps the order of values. -/
theorem f64RoundMag_mono (num den num' den' : Nat) (hden : 0 < den) (hden' : 0 < den') (h : num * den' ≤ num' * den) :
    f64RoundMag num den ≤ f64RoundMag num' den' := by
  obtain ⟨p, h1, h2, h3⟩ := f64RoundMag_between num den hden
  obtain ⟨p', h1', h2', h3'⟩ := f64RoundMag_between num' den' hden'
  have hpp : p ≤ p' := by
    have : magUnits p < magUnits (p' + 1) := by
      have a1 : magUnits p * den * den' ≤ num * den' := Nat.mul_le_mul_right _ h1
      have a2 : num' * den < magUnits (p' + 1) * den' * den := Nat.mul_lt_mul_of_pos_right h2' hden
      have a3 : magUnits p * (den * den') < magUnits (p' + 1) * (den * den') := by nlinarith
      exact Nat.lt_of_mul_lt_mul_right a3
    have := (magUnits_lt_iff p (p' + 1)).1 this
    omega
  rw [h3, h3']
  refine min_le_min_right _ ?_
  rcases Nat.lt_or_ge p p' with hlt | hge
  · split <;> split <;> omega
  · have hp' : p' = p := by omega
    subst hp'
    by_cases hc : (magUnits p' + magUnits (p' + 1)) * den < 2 * num ∨
        (magUnits p' + magUnits (p' + 1)) * den = 2 * num ∧ p' % 2 = 1
    · have hc' : (magUnits p' + magUnits (p' + 1)) * den' < 2 * num' ∨
          (magUnits p' + magUnits (p' + 1)) * den' = 2 * num' ∧ p' % 2 = 1 := by
        set S := magUnits p' + magUnits (p' + 1)
        rcases hc with hc | ⟨hc, ho⟩
        · left
          have : S * den' * den < 2 * num' * den := by nlinarith
          exact Nat.lt_of_mul_lt_mul_right this
        · have hle : S * den' * den ≤ 2 * num' * den := by nlinarith
          have hle' : S * den' ≤ 2 * num' := Nat.le_of_mul_le_mul_right hle hden
          rcases Nat.lt_or_ge (S * den') (2 * num') with h5 | h5
          · exact Or.inl h5
          · exact Or.inr ⟨by omega, ho⟩
      rw [if_pos hc, if_pos hc']
    · rw [if_neg hc]; split <;> omega

/-- No finite pattern is nearer the exact value than the finite one that rounding answers. -/
theorem f64RoundMag_nearest (num den c : Nat) (hden : 0 < den) (hfin : f64RoundMag num den < f64InfMag) :
    |(magUnits (f64RoundMag num den) * den : Int) - num| ≤ |(magUnits c * den : Int) - num| := by
  obtain ⟨p, h1, h2, h3⟩ := f64RoundMag_between num den hden
  have hcases : c ≤ p ∨ p + 1 ≤ c := by omega
  have hr : f64RoundMag num den = if (magUnits p + magUnits (p + 1)) * den < 2 * num ∨
      ((magUnits p + magUnits (p + 1)) * den = 2 * num ∧ p % 2 = 1) then p + 1 else p := by
    rw [h3] at hfin ⊢
    exact Nat.min_eq_left (by omega)
  have k1 : c ≤ p → magUnits c * den ≤ magUnits p * den := fun h =>
    Nat.mul_le_mul_right _ ((magUnits_le_iff c p).2 h)
  have k2 : p + 1 ≤ c → magUnits (p + 1) * den ≤ magUnits c * den := fun h =>
    Nat.mul_le_mul_right _ ((magUnits_le_iff (p + 1) c).2 h)
  have hsum : (magUnits p + magUnits (p + 1)) * den = magUnits p * den + magUnits (p + 1) * den := by ring
  rw [hr, hsum]
  have e1 : ∀ k : Nat, ((magUnits k : Int) * den) = ((magUnits k * den : Nat) : Int) := fun k => by push_cast; ring
  rw [e1, e1]
  generalize hA : magUnits p * den = A at *
  generalize hB : magUnits (p + 1) * den = B at *
  generalize hC : magUnits c * den = C at *
  split
  · rename_i hup
    rw [hB]
    rcases hcases with h | h
    · have := k1 h
      rcases abs_cases ((B : Int) - num) with ⟨a, _⟩ | ⟨a, _⟩ <;>
        rcases abs_cases ((C : Int) - num) with ⟨b, _⟩ | ⟨b, _⟩ <;> rw [a, b] <;> omega
    · have := k2 h
      rcases abs_cases ((B : Int) - num) with ⟨a, _⟩ | ⟨a, _⟩ <;>
        rcases abs_cases ((C : Int) - num) with ⟨b, _⟩ | ⟨b, _⟩ <;> rw [a, b] <;> omega
  · rename_i hup
    rw [hA]
    rcases hcases with h | h
    · have := k1 h
      rcases abs_cases ((A : Int) - num) with ⟨a, _⟩ | ⟨a, _⟩ <;>
        rcases abs_cases ((C : Int) - num) with ⟨b, _⟩ | ⟨b, _⟩ <;> rw [a, b] <;> omega
    · have := k2 h
      rcases abs_cases ((A : Int) - num) with ⟨a, _⟩ | ⟨a, _⟩ <;>
        rcases abs_cases ((C : Int) - num) with ⟨b, _⟩ | ⟨b, _⟩ <;> rw [a, b] <;> omega

/-- Where another pattern is just as near, the one that rounding answers is even. -/
theorem f64RoundMag_tie_even (num den c : Nat) (hden : 0 < den) (hfin : f64RoundMag num den < f64InfMag)
    (hne : c ≠ f64RoundMag num den)
    (htie : |(magUnits (f64RoundMag num den) * den : Int) - num| = |(magUnits c * den : Int) - num|) :
    f64RoundMag num den % 2 = 0 := by
  obtain ⟨p, h1, h2, h3⟩ := f64RoundMag_between num den hden
  have hr : f64RoundMag num den = if (magUnits p + magUnits (p + 1)) * den < 2 * num ∨
      ((magUnits p + magUnits (p + 1)) * den = 2 * num ∧ p % 2 = 1) then p + 1 else p := by
    rw [h3] at hfin ⊢
    exact Nat.min_eq_left (by omega)
  have k1 : c < p → magUnits c * den < magUnits p * den := fun h =>
    Nat.mul_lt_mul_of_pos_right ((magUnits_lt_iff c p).2 h) hden
  have k2 : p + 1 < c → magUnits (p + 1) * den < magUnits c * den := fun h =>
    Nat.mul_lt_mul_of_pos_right ((magUnits_lt_iff (p + 1) c).2 h) hden
  have hsum : (magUnits p + magUnits (p + 1)) * den = magUnits p * den + magUnits (p + 1) * den := by ring
  have e1 : ∀ k : Nat, ((magUnits k : Int) * den) = ((magUnits k * den : Nat) : Int) := fun k => by push_cast; ring
  have hcases : c < p ∨ c = p ∨ c = p + 1 ∨ p + 1 < c := by omega
  rw [e1, e1] at htie
  rw [hsum] at hr
  by_cases hup : magUnits p * den + magUnits (p + 1) * den < 2 * num ∨
      magUnits p * den + magUnits (p + 1) * den = 2 * num ∧ p % 2 = 1
  · rw [if_pos hup] at hr
    rw [hr] at htie hne ⊢
    rcases hcases with h | h | h | h
    · have := k1 h
      rcases abs_cases (((magUnits (p + 1) * den : Nat) : Int) - num) with ⟨a, _⟩ | ⟨a, _⟩ <;>
        rcases abs_cases (((magUnits c * den : Nat) : Int) - num) with ⟨b, _⟩ | ⟨b, _⟩ <;> omega
    · subst h
      rcases abs_cases (((magUnits (c + 1) * den : Nat) : Int) - num) with ⟨a, _⟩ | ⟨a, _⟩ <;>
        rcases abs_cases (((magUnits c * den : Nat) : Int) - num) with ⟨b, _⟩ | ⟨b, _⟩ <;> omega
    · omega
    · have := k2 h
      rcases abs_cases (((magUnits (p + 1) * den : Nat) : Int) - num) with ⟨a, _⟩ | ⟨a, _⟩ <;>
        rcases abs_cases (((magUnits c * den : Nat) : Int) - num) with ⟨b, _⟩ | ⟨b, _⟩ <;> omega
  · rw [if_neg hup] at hr
    rw [hr] at htie hne ⊢
    rcases hcases with h | h | h | h
    · have := k1 h
      rcases abs_cases (((magUnits p * den : Nat) : Int) - num) with ⟨a, _⟩ | ⟨a, _⟩ <;>
        rcases abs_cases (((magUnits c * den : Nat) : Int) - num) with ⟨b, _⟩ | ⟨b, _⟩ <;> omega
    · omega
    · subst h
      rcases abs_cases (((magUnits p * den : Nat) : Int) - num) with ⟨a, _⟩ | ⟨a, _⟩ <;>
        rcases abs_cases (((magUnits (p + 1) * den : Nat) : Int) - num) with ⟨b, _⟩ | ⟨b, _⟩ <;> omega
    · have := k2 h
      rcases abs_cases (((magUnits p * den : Nat) : Int) - num) with ⟨a, _⟩ | ⟨a, _⟩ <;>
        rcases abs_cases (((magUnits c * den : Nat) : Int) - num) with ⟨b, _⟩ | ⟨b, _⟩ <;> omega

end Sys2Proof.Machine
end

