-- ==== Sys2Proof/Laws/Arith.lean ====
section
/-! SUPPORT. What each binary64 operation answers on finite operands, and how large the answer can be. -/

namespace Sys2Proof.Machine

/-- Bits 62:0 of a value, as a number. -/
def magPattern (a : F64) : Nat := a.toNat % 2 ^ 63

theorem magPattern_lt (a : F64) : magPattern a < 2 ^ 63 := Nat.mod_lt _ (by positivity)

theorem f64Exp_eq (a : F64) : f64Exp a = magPattern a / 2 ^ 52 := by
  unfold f64Exp magPattern
  simp only [BitVec.extractLsb'_toNat, Nat.shiftRight_eq_div_pow]
  have := a.isLt
  omega

theorem f64Frac_eq (a : F64) : f64Frac a = magPattern a % 2 ^ 52 := by
  unfold f64Frac magPattern
  simp only [BitVec.extractLsb'_toNat, Nat.shiftRight_eq_div_pow]
  omega

theorem f64Sign_eq (a : F64) : f64Sign a = decide (2 ^ 63 ≤ a.toNat) := by
  unfold f64Sign
  have h : a.getLsbD 63 = a.msb := by simp [BitVec.msb_eq_getLsbD_last]
  rw [h, BitVec.msb_eq_decide]

theorem f64Mag_eq (a : F64) : f64Mag a = magUnits (magPattern a) := by
  unfold f64Mag magUnits
  rw [f64Exp_eq, f64Frac_eq]

theorem f64IsFinite_iff (a : F64) : f64IsFinite a = true ↔ magPattern a < f64InfMag := by
  unfold f64IsFinite f64InfMag
  have := magPattern_lt a
  simp only [bne_iff_ne, ne_eq, f64Exp_eq]
  omega

theorem f64IsNaN_iff (a : F64) : f64IsNaN a = true ↔ f64InfMag < magPattern a := by
  unfold f64IsNaN f64InfMag
  have := magPattern_lt a
  simp only [Bool.and_eq_true, beq_iff_eq, bne_iff_ne, ne_eq, f64Exp_eq, f64Frac_eq]
  omega

theorem f64IsInf_iff (a : F64) : f64IsInf a = true ↔ magPattern a = f64InfMag := by
  unfold f64IsInf f64InfMag
  have := magPattern_lt a
  simp only [Bool.and_eq_true, beq_iff_eq, f64Exp_eq, f64Frac_eq]
  omega

theorem finite_not_nan {a : F64} (h : f64IsFinite a = true) : f64IsNaN a = false := by
  rw [f64IsFinite_iff] at h
  rw [Bool.eq_false_iff, ne_eq, f64IsNaN_iff]
  omega

theorem finite_not_inf {a : F64} (h : f64IsFinite a = true) : f64IsInf a = false := by
  rw [f64IsFinite_iff] at h
  rw [Bool.eq_false_iff, ne_eq, f64IsInf_iff]
  omega

theorem f64InfMag_lt : f64InfMag < 2 ^ 63 := by decide

theorem magPattern_pack (neg : Bool) (mag : Nat) (h : mag < 2 ^ 63) : magPattern (f64Pack neg mag) = mag := by
  unfold magPattern f64Pack
  rw [BitVec.toNat_ofNat]
  cases neg <;> simp <;> omega

theorem f64Sign_pack (neg : Bool) (mag : Nat) (h : mag < 2 ^ 63) : f64Sign (f64Pack neg mag) = neg := by
  rw [f64Sign_eq]
  unfold f64Pack
  rw [BitVec.toNat_ofNat]
  cases neg <;> simp <;> omega

/-- A value is its sign and its magnitude pattern. -/
theorem f64Pack_self (a : F64) : f64Pack (f64Sign a) (magPattern a) = a := by
  apply BitVec.eq_of_toNat_eq
  rw [f64Sign_eq]
  unfold f64Pack magPattern
  rw [BitVec.toNat_ofNat]
  have := a.isLt
  by_cases h : 2 ^ 63 ≤ a.toNat
  · simp only [h, decide_true, if_true]; omega
  · simp only [h, decide_false]; simp; omega

theorem f64_ext {a b : F64} (hs : f64Sign a = f64Sign b) (hm : magPattern a = magPattern b) : a = b := by
  rw [← f64Pack_self a, ← f64Pack_self b, hs, hm]

theorem roundMag_lt (num den : Nat) : f64RoundMag num den < 2 ^ 63 :=
  lt_of_le_of_lt (f64RoundMag_le_inf num den) f64InfMag_lt

theorem f64One_pos : 0 < f64One := by unfold f64One; positivity

@[simp] theorem f64Sign_neg (a : F64) : f64Sign (f64Neg a) = !f64Sign a := by
  unfold f64Sign f64Neg
  rw [BitVec.getLsbD_xor]
  have : (1#64 <<< 63).getLsbD 63 = true := by decide
  rw [this, Bool.xor_true]

@[simp] theorem magPattern_neg (a : F64) : magPattern (f64Neg a) = magPattern a := by
  have h : ∀ b : F64, magPattern b = (b.extractLsb' 0 63).toNat := by
    intro b
    unfold magPattern
    rw [BitVec.extractLsb'_toNat, Nat.shiftRight_zero]
  rw [h, h]
  congr 1
  unfold f64Neg
  apply BitVec.eq_of_getLsbD_eq
  intro i hi
  rw [BitVec.getLsbD_extractLsb', BitVec.getLsbD_extractLsb', BitVec.getLsbD_xor]
  have h1 : (1#64 <<< 63).getLsbD (0 + i) = false := by
    rw [BitVec.getLsbD_shiftLeft]
    simp only [Nat.zero_add, hi, decide_true, Bool.not_true, Bool.and_false, Bool.false_and]
  rw [h1, Bool.xor_false]

@[simp] theorem f64Mag_neg (a : F64) : f64Mag (f64Neg a) = f64Mag a := by rw [f64Mag_eq, f64Mag_eq, magPattern_neg]

@[simp] theorem f64IsFinite_neg (a : F64) : f64IsFinite (f64Neg a) = f64IsFinite a := by
  rw [Bool.eq_iff_iff, f64IsFinite_iff, f64IsFinite_iff, magPattern_neg]

theorem f64Units_neg (a : F64) : f64Units (f64Neg a) = -f64Units a := by
  unfold f64Units
  rw [f64Sign_neg, f64Mag_neg]
  cases f64Sign a <;> simp

theorem f64Units_natAbs (a : F64) : (f64Units a).natAbs = f64Mag a := by
  unfold f64Units
  split <;> simp

/-- The units of a packed value. -/
theorem f64Units_pack (neg : Bool) (mag : Nat) (h : mag < 2 ^ 63) :
    f64Units (f64Pack neg mag) = if neg then -(magUnits mag : Int) else magUnits mag := by
  unfold f64Units
  rw [f64Sign_pack neg mag h, f64Mag_eq, magPattern_pack neg mag h]

/-- Addition of finite values: the exact sum, rounded once. -/
theorem f64Add_finite {a b : F64} (ha : f64IsFinite a = true) (hb : f64IsFinite b = true) :
    f64Add a b =
      if f64Units a + f64Units b = 0 then f64Pack (f64Sign a && f64Sign b) 0
      else f64Pack (decide (f64Units a + f64Units b < 0)) (f64RoundMag (f64Units a + f64Units b).natAbs 1) := by
  unfold f64Add
  simp only [finite_not_nan ha, finite_not_nan hb, finite_not_inf ha, finite_not_inf hb, Bool.or_false, Bool.false_eq_true,
    if_false]

/-- Multiplication of finite values: the exact product, rounded once. -/
theorem f64Mul_finite {a b : F64} (ha : f64IsFinite a = true) (hb : f64IsFinite b = true) :
    f64Mul a b = f64Pack (f64Sign a != f64Sign b) (f64RoundMag (f64Mag a * f64Mag b) f64One) := by
  unfold f64Mul
  simp only [finite_not_nan ha, finite_not_nan hb, finite_not_inf ha, finite_not_inf hb, Bool.or_false, Bool.false_eq_true,
    if_false]

/-- Division of a finite value by a finite value other than zero: the exact quotient, rounded once. -/
theorem f64Div_finite {a b : F64} (ha : f64IsFinite a = true) (hb : f64IsFinite b = true) (h0 : f64Mag b ≠ 0) :
    f64Div a b = f64Pack (f64Sign a != f64Sign b) (f64RoundMag (f64Mag a * f64One) (f64Mag b)) := by
  unfold f64Div
  simp only [finite_not_nan ha, finite_not_nan hb, finite_not_inf ha, finite_not_inf hb, Bool.or_false, Bool.false_eq_true,
    if_false, if_neg h0]

theorem two_pow_le_f64One {e : Nat} (h : e ≤ 1074) : 2 ^ e ≤ f64One := by
  unfold f64One; exact Nat.pow_le_pow_right two_pos h

/-- A finite value of at most `k` units. -/
def AtMost (a : F64) (k : Nat) : Prop := f64IsFinite a = true ∧ f64Mag a ≤ k

theorem AtMost.finite {a : F64} {k : Nat} (h : AtMost a k) : f64IsFinite a = true := h.1

theorem AtMost.mono {a : F64} {k k' : Nat} (h : AtMost a k) (hk : k ≤ k') : AtMost a k' := ⟨h.1, h.2.trans hk⟩

theorem AtMost.neg {a : F64} {k : Nat} (h : AtMost a k) : AtMost (f64Neg a) k := by
  unfold AtMost; rw [f64IsFinite_neg, f64Mag_neg]; exact h

/-- The pattern of 2^k. -/
theorem magUnits_two_pow (k : Nat) : magUnits ((k + 1023) * 2 ^ 52) = 2 ^ k * f64One := by
  have h : (k + 1023) * 2 ^ 52 = (k + 1022) * 2 ^ 52 + 2 ^ 52 := by ring
  rw [h, magUnits_pattern (k + 1022) (2 ^ 52) (by norm_num) (Or.inr le_rfl)]
  unfold f64One
  rw [← Nat.pow_add, ← Nat.pow_add, show 52 + (k + 1022) = k + 1074 by ring]

theorem atMost_pack_round (neg : Bool) (num den k : Nat) (hden : 0 < den) (hk : k ≤ 1023)
    (h : num ≤ 2 ^ k * f64One * den) : AtMost (f64Pack neg (f64RoundMag num den)) (2 ^ k * f64One) := by
  have hle : f64RoundMag num den ≤ (k + 1023) * 2 ^ 52 :=
    f64RoundMag_le num den _ hden (by rw [magUnits_two_pow]; exact h)
  refine ⟨?_, ?_⟩
  · rw [f64IsFinite_iff, magPattern_pack _ _ (roundMag_lt _ _)]
    unfold f64InfMag
    omega
  · rw [f64Mag_eq, magPattern_pack _ _ (roundMag_lt _ _), ← magUnits_two_pow]
    exact (magUnits_le_iff _ _).2 hle

/-- A sum of two values of at most 2^k is at most 2^(k+1). -/
theorem AtMost.add {a b : F64} {k : Nat} (ha : AtMost a (2 ^ k * f64One)) (hb : AtMost b (2 ^ k * f64One))
    (hk : k ≤ 1022) : AtMost (f64Add a b) (2 ^ (k + 1) * f64One) := by
  rw [f64Add_finite ha.1 hb.1]
  split
  · refine ⟨?_, ?_⟩
    · rw [f64IsFinite_iff, magPattern_pack _ _ (by norm_num)]; decide
    · rw [f64Mag_eq, magPattern_pack _ _ (by norm_num), magUnits_zero]; omega
  · refine atMost_pack_round _ _ 1 (k + 1) one_pos (by omega) ?_
    have h1 : (f64Units a + f64Units b).natAbs ≤ f64Mag a + f64Mag b := by
      have := Int.natAbs_add_le (f64Units a) (f64Units b)
      rwa [f64Units_natAbs, f64Units_natAbs] at this
    have hsum : 2 ^ (k + 1) * f64One * 1 = 2 ^ k * f64One + 2 ^ k * f64One := by rw [Nat.pow_succ]; ring
    rw [hsum]
    exact h1.trans (Nat.add_le_add ha.2 hb.2)

theorem AtMost.sub {a b : F64} {k : Nat} (ha : AtMost a (2 ^ k * f64One)) (hb : AtMost b (2 ^ k * f64One))
    (hk : k ≤ 1022) : AtMost (f64Sub a b) (2 ^ (k + 1) * f64One) := ha.add hb.neg hk

/-- A product of values of at most 2^j and 2^k is at most 2^(j+k). -/
theorem AtMost.mul {a b : F64} {j k : Nat} (ha : AtMost a (2 ^ j * f64One)) (hb : AtMost b (2 ^ k * f64One))
    (hk : j + k ≤ 1023) : AtMost (f64Mul a b) (2 ^ (j + k) * f64One) := by
  rw [f64Mul_finite ha.1 hb.1]
  refine atMost_pack_round _ _ _ (j + k) f64One_pos hk ?_
  calc f64Mag a * f64Mag b ≤ (2 ^ j * f64One) * (2 ^ k * f64One) := Nat.mul_le_mul ha.2 hb.2
    _ = 2 ^ (j + k) * f64One * f64One := by rw [Nat.pow_add]; ring

/-- A whole number up to 2^53 times a power of two is a pattern's units. -/
theorem exists_pattern (n k : Nat) (hn : n ≤ 2 ^ 53) : ∃ p, magUnits p = n * 2 ^ k := by
  induction k generalizing n with
  | zero => exact ⟨n, by have := magUnits_pattern 0 n hn (Or.inl rfl); simpa using this⟩
  | succ k ih =>
    rcases Nat.lt_or_ge n (2 ^ 52) with h | h
    · obtain ⟨p, hp⟩ := ih (2 * n) (by omega)
      exact ⟨p, by rw [hp, Nat.pow_succ]; ring⟩
    · exact ⟨(k + 1) * 2 ^ 52 + n, magUnits_pattern (k + 1) n hn (Or.inr h)⟩

theorem f64InfMag_units : magUnits f64InfMag = 2 ^ 1024 * f64One := magUnits_two_pow 1024

/-- The units of the largest finite pattern, 2^1024 - 2^971. -/
theorem maxFinite_units : magUnits (f64InfMag - 1) = (2 ^ 1024 - 2 ^ 971) * f64One := by
  have h : f64InfMag - 1 = 2045 * 2 ^ 52 + (2 ^ 53 - 1) := by decide
  rw [h, magUnits_pattern 2045 (2 ^ 53 - 1) (by norm_num) (Or.inr (by norm_num))]
  unfold f64One
  rw [show 2045 = 971 + 1074 by norm_num, Nat.pow_add 2 971 1074, ← Nat.mul_assoc, Nat.sub_mul, ← Nat.pow_add, Nat.one_mul]

/-- Rounding answers a finite pattern exactly below 2^1024 - 2^970, the middle between the largest finite value and 2^1024. -/
theorem f64RoundMag_finite_iff (num den : Nat) (hden : 0 < den) :
    f64RoundMag num den < f64InfMag ↔ num < (2 ^ 1024 - 2 ^ 970) * f64One * den := by
  obtain ⟨p, h1, h2, h3⟩ := f64RoundMag_between num den hden
  have hmid : magUnits (f64InfMag - 1) + magUnits f64InfMag = 2 * ((2 ^ 1024 - 2 ^ 970) * f64One) := by
    have h970 : (2 : Nat) ^ 971 = 2 * 2 ^ 970 := by rw [show 971 = 970 + 1 by norm_num, Nat.pow_succ, Nat.mul_comm]
    have hle : (2 : Nat) ^ 971 ≤ 2 ^ 1024 := Nat.pow_le_pow_right two_pos (by norm_num)
    rw [maxFinite_units, f64InfMag_units]
    generalize (2 : Nat) ^ 971 = y at *
    generalize (2 : Nat) ^ 970 = z at *
    generalize (2 : Nat) ^ 1024 = x at *
    rw [← Nat.add_mul, ← Nat.mul_assoc, show x - y + x = 2 * (x - z) by omega]
  have hodd : (f64InfMag - 1) % 2 = 1 := by decide
  have hpos : 1 ≤ f64InfMag := by decide
  generalize (2 ^ 1024 - 2 ^ 970) * f64One = B at *
  generalize f64InfMag = I at *
  have hlow : magUnits (I - 1) < B := by
    have := (magUnits_lt_iff (I - 1) I).2 (by omega)
    omega
  rw [h3]
  rcases Nat.lt_trichotomy (p + 1) I with hlt | heq | hgt
  · have h4 : num < B * den := by
      refine lt_of_lt_of_le h2 (Nat.mul_le_mul_right _ (le_trans ?_ (Nat.le_of_lt hlow)))
      exact (magUnits_le_iff _ _).2 (by omega)
    simp only [h4, iff_true]
    exact lt_of_le_of_lt (Nat.min_le_left _ _) (by split <;> omega)
  · subst heq
    rw [Nat.add_sub_cancel] at hmid hodd
    rw [hmid, hodd, Nat.mul_assoc]
    split <;> omega
  · have h4 : B * den ≤ num := by
      refine le_trans (Nat.mul_le_mul_right _ ?_) h1
      have := (magUnits_le_iff I p).2 (by omega)
      have := (magUnits_lt_iff (I - 1) I).2 (by omega)
      omega
    constructor
    · intro h; split at h <;> omega
    · intro h; omega

/-- An integer that a finite pattern stands for converts exactly (00_scope.md R13). -/
theorem f64OfInt_exact (n : Int) (p : Nat) (hp : magUnits p = n.natAbs * f64One) (hfin : p < f64InfMag) :
    f64IsFinite (f64OfInt n) = true ∧ f64Units (f64OfInt n) = n * f64One := by
  have hr : f64RoundMag (n.natAbs * f64One) 1 = p := by
    rw [← hp, ← Nat.mul_one (magUnits p)]
    exact f64RoundMag_exact 1 p one_pos (by omega)
  have h63 : p < 2 ^ 63 := lt_trans hfin f64InfMag_lt
  unfold f64OfInt f64OfRat
  rw [hr]
  refine ⟨?_, ?_⟩
  · rw [f64IsFinite_iff, magPattern_pack _ _ h63]; exact hfin
  · rw [f64Units_pack _ _ h63, hp]
    by_cases h : n < 0
    · simp only [h, decide_true, if_true]
      have : (n.natAbs : Int) = -n := by omega
      rw [Nat.cast_mul, this]; ring
    · simp only [h, decide_false, Bool.false_eq_true, if_false]
      have : (n.natAbs : Int) = n := by omega
      rw [Nat.cast_mul, this]

theorem f64Floor_finite {c : F64} (hc : f64IsFinite c = true) : f64Floor c = f64Units c / (f64One : Int) := by
  unfold f64Floor; rw [if_pos hc]

/-- The floor of a finite value is itself a binary64 value (41_gradient_noise.md R140). -/
theorem f64OfInt_floor {c : F64} (hc : f64IsFinite c = true) :
    f64IsFinite (f64OfInt (f64Floor c)) = true ∧ f64Units (f64OfInt (f64Floor c)) = f64Floor c * f64One := by
  have hfin : magPattern c < f64InfMag := (f64IsFinite_iff c).1 hc
  have hOne : (0 : Int) < f64One := by exact_mod_cast f64One_pos
  rw [f64Floor_finite hc]
  obtain ⟨e, m, hp, hm, h⟩ := pattern_split (magPattern c)
  have hmag : f64Mag c = m * 2 ^ e := by rw [f64Mag_eq, hp, magUnits_pattern e m (by omega) h]
  rcases Nat.lt_or_ge e 1074 with he | he
  · -- below 2^53: a whole number that fits the significand
    have hlt : f64Mag c < 2 ^ 53 * f64One := by
      rw [hmag]
      calc m * 2 ^ e < 2 ^ 53 * 2 ^ e := Nat.mul_lt_mul_of_pos_right hm (by positivity)
        _ ≤ 2 ^ 53 * f64One := Nat.mul_le_mul_left _ (two_pow_le_f64One (Nat.le_of_lt he))
    have hn : (f64Units c / (f64One : Int)).natAbs ≤ 2 ^ 53 := by
      have habs := f64Units_natAbs c
      have hlo : -(2 ^ 53 : Int) ≤ f64Units c / (f64One : Int) := by
        rw [Int.le_ediv_iff_mul_le hOne]
        have : (f64Mag c : Int) < 2 ^ 53 * f64One := by exact_mod_cast hlt
        rw [Int.neg_mul]
        omega
      have hhi : f64Units c / (f64One : Int) < 2 ^ 53 := by
        rw [Int.ediv_lt_iff_lt_mul hOne]
        have : (f64Mag c : Int) < 2 ^ 53 * f64One := by exact_mod_cast hlt
        omega
      omega
    have hex : ∃ p, magUnits p = (f64Units c / (f64One : Int)).natAbs * f64One := by
      unfold f64One at hn ⊢; exact exists_pattern _ _ hn
    obtain ⟨p, hp'⟩ := hex
    refine f64OfInt_exact _ p hp' ?_
    rw [← magUnits_lt_iff, hp', f64InfMag_units]
    have h1 : (f64Units c / (f64One : Int)).natAbs * f64One ≤ 2 ^ 53 * f64One := Nat.mul_le_mul_right _ hn
    refine lt_of_le_of_lt h1 (Nat.mul_lt_mul_of_pos_right ?_ f64One_pos)
    exact Nat.pow_lt_pow_right (by omega) (by omega)
  · -- a whole number already
    have hdvd : f64Mag c = m * 2 ^ (e - 1074) * f64One := by
      rw [hmag]; unfold f64One
      rw [Nat.mul_assoc, ← Nat.pow_add, Nat.sub_add_cancel he]
    have hu : f64Units c = (if f64Sign c then -((m * 2 ^ (e - 1074) : Nat) : Int) else (m * 2 ^ (e - 1074) : Nat)) * f64One := by
      unfold f64Units
      rw [hdvd]
      split <;> push_cast <;> ring
    refine f64OfInt_exact _ (magPattern c) ?_ hfin
    rw [← f64Mag_eq, hu, Int.mul_ediv_cancel _ (ne_of_gt hOne), hdvd]
    split
    · rw [Int.natAbs_neg, Int.natAbs_natCast]
    · rw [Int.natAbs_natCast]

/-- The offset of a finite coordinate in its cell is at least 0 and at most 1 (R140, 90_conflicts.md C3). -/
theorem latticeCell_offset {c : F64} (hc : f64IsFinite c = true) :
    AtMost (latticeCell c).2 f64One ∧ 0 ≤ f64Units (latticeCell c).2 := by
  obtain ⟨h1, h2⟩ := f64OfInt_floor hc
  have hOne : (0 : Int) < f64One := by exact_mod_cast f64One_pos
  have hoff : (latticeCell c).2 = f64Sub c (f64OfInt (f64Floor c)) := rfl
  have hdiff : f64Units c + f64Units (f64Neg (f64OfInt (f64Floor c))) = f64Units c % f64One := by
    rw [f64Units_neg, h2, f64Floor_finite hc]
    have := Int.mul_ediv_add_emod (f64Units c) f64One
    linarith
  have h0 := Int.emod_nonneg (f64Units c) (ne_of_gt hOne)
  have hlt := Int.emod_lt_of_pos (f64Units c) hOne
  rw [hoff]
  unfold f64Sub
  rw [f64Add_finite hc (by rw [f64IsFinite_neg]; exact h1), hdiff]
  have hone : (2 : Nat) ^ 0 * f64One = f64One := by rw [Nat.pow_zero, Nat.one_mul]
  split
  · refine ⟨⟨?_, ?_⟩, ?_⟩
    · rw [f64IsFinite_iff, magPattern_pack _ _ (by norm_num)]; decide
    · rw [f64Mag_eq, magPattern_pack _ _ (by norm_num), magUnits_zero]; omega
    · rw [f64Units_pack _ _ (by norm_num), magUnits_zero]; simp
  · have hneg : ¬ f64Units c % (f64One : Int) < 0 := by omega
    simp only [hneg, decide_false]
    refine ⟨?_, ?_⟩
    · rw [← hone]
      refine atMost_pack_round _ _ 1 0 one_pos (by omega) ?_
      rw [hone]
      omega
    · rw [f64Units_pack _ _ (roundMag_lt _ _), if_neg Bool.false_ne_true]
      exact Int.natCast_nonneg _

theorem atMost_six : AtMost f64Six (2 ^ 3 * f64One) := by unfold AtMost; decide +kernel

theorem atMost_ten : AtMost f64Ten (2 ^ 5 * f64One) := by unfold AtMost; decide +kernel

theorem atMost_fifteen : AtMost f64Fifteen (2 ^ 4 * f64One) := by unfold AtMost; decide +kernel

theorem atMost_one : AtMost f64OneVal (2 ^ 0 * f64One) := by unfold AtMost; decide +kernel

theorem atMost_half : AtMost f64Half (2 ^ 0 * f64One) := by unfold AtMost; decide +kernel

theorem atMost_zero (k : Nat) : AtMost f64Zero k := by
  refine ⟨by decide, ?_⟩
  have : f64Mag f64Zero = 0 := by decide
  omega

theorem AtMost.widen {a : F64} {j k : Nat} (h : AtMost a (2 ^ j * f64One)) (hjk : j ≤ k) : AtMost a (2 ^ k * f64One) :=
  h.mono (Nat.mul_le_mul_right _ (Nat.pow_le_pow_right two_pos hjk))

/-- The fade of an offset is finite, and well below 2^6 (41_gradient_noise.md R141). -/
theorem fade_atMost {t : F64} (h : AtMost t (2 ^ 0 * f64One)) : AtMost (fade t) (2 ^ 6 * f64One) := by
  have t3 := (h.mul h (by omega)).mul h (by omega)
  have p := h.mul atMost_six (by omega)
  have q := (p.widen (k := 4) (by omega)).sub atMost_fifteen (by omega)
  have r := h.mul q (by omega)
  have s := (r.widen (k := 5) (by omega)).add atMost_ten (by omega)
  exact t3.mul s (by omega)

/-- An interpolation between values of at most 2^k with a weight of at most 2^6 (R142). -/
theorem lerp_atMost {t a b : F64} {k : Nat} (ht : AtMost t (2 ^ 6 * f64One)) (ha : AtMost a (2 ^ k * f64One))
    (hb : AtMost b (2 ^ k * f64One)) (hk : k ≤ 1000) : AtMost (lerp t a b) (2 ^ (k + 8) * f64One) := by
  have d := hb.sub ha (by omega)
  have m := ht.mul d (by omega)
  have ha' := ha.widen (k := 6 + (k + 1)) (by omega)
  have := ha'.add m (by omega)
  exact this.widen (by omega)

/-- A gradient's dot product is one of the two offsets, up to sign (R143). -/
theorem grad_atMost (h : Byte) {dx dy : F64} {k : Nat} (hx : AtMost dx k) (hy : AtMost dy k) : AtMost (grad h dx dy) k := by
  unfold grad
  split
  · exact hy
  · exact hy.neg
  · exact hx
  · exact hx.neg

end Sys2Proof.Machine
end

