-- ==== Sys2Proof/Laws/Decode.lean ====
section
/-! SUPPORT. What the decoder answers, and its fields as arithmetic on the word (30_encoding.md R94 to R99). -/

namespace Sys2Proof

theorem wordOpcode_toNat (w : Word) : (wordOpcode w).toNat = w.toNat % 2 ^ 8 := by
  simp [wordOpcode, BitVec.extractLsb'_toNat]

theorem wordOpcode_eq (w : Word) : wordOpcode w = BitVec.ofNat 8 w.toNat := by
  apply BitVec.eq_of_toNat_eq; simp [wordOpcode, BitVec.extractLsb'_toNat]

theorem wordIndex_eq (w : Word) : wordIndex w = w.toNat / 2 ^ 8 % 2 ^ 9 := by
  simp [wordIndex, BitVec.extractLsb'_toNat, Nat.shiftRight_eq_div_pow]

theorem wordData8_eq (w : Word) : wordData8 w = BitVec.ofNat 8 (w.toNat / 2 ^ 24) := by
  apply BitVec.eq_of_toNat_eq
  simp [wordData8, BitVec.extractLsb'_toNat, Nat.shiftRight_eq_div_pow]

theorem wordImm8_eq (w : Word) : wordImm8 w = BitVec.ofNat 8 (w.toNat / 2 ^ 8) := by
  apply BitVec.eq_of_toNat_eq
  simp [wordImm8, BitVec.extractLsb'_toNat, Nat.shiftRight_eq_div_pow]

/-- A bit under a clear mask is 0. -/
theorem getLsbD_of_masked {w m : Word} (h : w &&& m = 0#32) (k : Nat) (hm : m.getLsbD k = true) : w.getLsbD k = false := by
  have : (w &&& m).getLsbD k = false := by rw [h]; simp
  rwa [BitVec.getLsbD_and, hm, Bool.and_true] at this

/-- A word is a command exactly when its opcode has a mask, no bit of it is set, and the opcode's row gives the command. -/
theorem decode_command_iff (w : Word) (i : Instr) : decode w = .command i ↔
    (∃ m, reservedMask (wordOpcode w) = some m ∧ w &&& m = 0#32) ∧ commandOf w = some i := by
  unfold decode
  split
  · rename_i m j hm hc
    rw [hm, hc]
    split <;> simp_all
  · rename_i h
    constructor
    · intro h; cases h
    · rintro ⟨⟨m, hm, _⟩, hc⟩
      exact (h _ _ hm hc).elim

end Sys2Proof
end

