-- ==== Sys2Proof/Laws/Memory.lean ====
section
/-! SUPPORT. The table: what a read gives after each operation, and that every operation keeps the canonical form. -/

namespace Sys2Proof.Machine

/-- An entry that the canonical form may list. -/
def CellOk (c : Host.Cell) : Prop := c.1 ≤ 256 ∧ c.2 ≠ resetEntry c.1

theorem wf_iff (m : Memory) : m.wf = true ↔ m.Pairwise (fun a b => a.1 < b.1) ∧ ∀ c ∈ m, CellOk c := by
  simp [Memory.wf, CellOk]

@[simp] theorem read_nil (i : Nat) : Memory.read [] i = resetEntry i := rfl

@[simp] theorem read_cons (a : Nat) (b : Byte) (m : Memory) (i : Nat) :
    Memory.read ((a, b) :: m) i = if a = i then b else m.read i := rfl

/-- An index that no entry lists reads as its reset content. -/
theorem read_of_not_listed (m : Memory) (i : Nat) (h : ∀ c ∈ m, c.1 ≠ i) : m.read i = resetEntry i := by
  induction m with
  | nil => rfl
  | cons c m ih =>
    obtain ⟨a, b⟩ := c
    rw [read_cons, if_neg (h (a, b) (by simp)), ih (fun c hc => h c (by simp [hc]))]

theorem read_insert (m : Memory) (i j : Nat) (v : Byte) : (m.insert i v).read j = if i = j then v else m.read j := by
  induction m with
  | nil => rfl
  | cons c m ih =>
    obtain ⟨a, b⟩ := c
    unfold Memory.insert
    split
    · rfl
    · split
      · rename_i h; subst h; by_cases hj : a = j <;> simp [hj]
      · rw [read_cons, read_cons, ih]; by_cases hj : i = j <;> simp_all

theorem read_erase (m : Memory) (i j : Nat) (h : m.Pairwise (fun a b => a.1 < b.1)) :
    (m.erase i).read j = if i = j then resetEntry j else m.read j := by
  induction m with
  | nil => simp [Memory.erase]
  | cons c m ih =>
    obtain ⟨a, b⟩ := c
    obtain ⟨hlt, hm⟩ := List.pairwise_cons.1 h
    unfold Memory.erase
    split
    · rename_i hai
      subst hai
      by_cases hj : a = j
      · subst hj
        rw [if_pos rfl]
        exact read_of_not_listed m a (fun c hc => by have := hlt c hc; simp only at this; omega)
      · rw [if_neg hj, read_cons, if_neg hj]
    · rw [read_cons, read_cons, ih hm]
      by_cases hj : i = j <;> simp_all

/-- A read after a write: the written entry gives the written value, every other entry is as before. -/
theorem read_write (m : Memory) (i j : Nat) (v : Byte) (h : m.wf = true) :
    (m.write i v).read j = if i = j then v else m.read j := by
  unfold Memory.write
  split
  · rename_i hv
    rw [read_erase m i j ((wf_iff m).1 h).1]
    split
    · rename_i hij; rw [hv, hij]
    · rfl
  · exact read_insert m i j v

theorem mem_insert {m : Memory} {i : Nat} {v : Byte} {c : Host.Cell} (h : c ∈ m.insert i v) : c = (i, v) ∨ c ∈ m := by
  induction m with
  | nil => simpa [Memory.insert] using h
  | cons d m ih =>
    obtain ⟨a, b⟩ := d
    unfold Memory.insert at h
    split at h
    · simpa using h
    · split at h
      · simp only [List.mem_cons] at h ⊢; tauto
      · simp only [List.mem_cons] at h ⊢
        rcases h with h | h
        · exact Or.inr (Or.inl h)
        · rcases ih h with h | h <;> tauto

theorem mem_erase {m : Memory} {i : Nat} {c : Host.Cell} (h : c ∈ m.erase i) : c ∈ m := by
  induction m with
  | nil => simp [Memory.erase] at h
  | cons d m ih =>
    obtain ⟨a, b⟩ := d
    unfold Memory.erase at h
    split at h
    · exact List.mem_cons_of_mem _ h
    · simp only [List.mem_cons] at h ⊢
      exact h.imp id ih

theorem insert_sorted {m : Memory} (i : Nat) (v : Byte) (h : m.Pairwise (fun a b => a.1 < b.1)) :
    (m.insert i v).Pairwise (fun a b => a.1 < b.1) := by
  induction m with
  | nil => simp [Memory.insert]
  | cons d m ih =>
    obtain ⟨a, b⟩ := d
    obtain ⟨hlt, hm⟩ := List.pairwise_cons.1 h
    unfold Memory.insert
    split
    · rename_i hia
      refine List.pairwise_cons.2 ⟨fun c hc => ?_, h⟩
      rcases List.mem_cons.1 hc with rfl | hc
      · exact hia
      · exact lt_trans hia (hlt c hc)
    · split
      · rename_i hai
        exact List.pairwise_cons.2 ⟨fun c hc => by have := hlt c hc; simp only at this ⊢; omega, hm⟩
      · refine List.pairwise_cons.2 ⟨fun c hc => ?_, ih hm⟩
        rcases mem_insert hc with rfl | hc
        · simp only; omega
        · exact hlt c hc

theorem erase_sorted {m : Memory} (i : Nat) (h : m.Pairwise (fun a b => a.1 < b.1)) :
    (m.erase i).Pairwise (fun a b => a.1 < b.1) := by
  induction m with
  | nil => simp [Memory.erase]
  | cons d m ih =>
    obtain ⟨a, b⟩ := d
    obtain ⟨hlt, hm⟩ := List.pairwise_cons.1 h
    unfold Memory.erase
    split
    · exact hm
    · exact List.pairwise_cons.2 ⟨fun c hc => hlt c (mem_erase hc), ih hm⟩

/-- A write keeps the canonical form. -/
theorem write_wf (m : Memory) (i : Nat) (v : Byte) (hi : i ≤ 256) (h : m.wf = true) : (m.write i v).wf = true := by
  obtain ⟨hs, hc⟩ := (wf_iff m).1 h
  unfold Memory.write
  split
  · exact (wf_iff _).2 ⟨erase_sorted i hs, fun c hm => hc c (mem_erase hm)⟩
  · rename_i hv
    refine (wf_iff _).2 ⟨insert_sorted i v hs, fun c hm => ?_⟩
    rcases mem_insert hm with rfl | hm
    · exact ⟨hi, hv⟩
    · exact hc c hm

/-- The entries of `tableOf` over any list of indices. -/
def tableCells (f : Nat → Byte) (l : List Nat) : Memory :=
  l.filterMap (fun i => if f i = resetEntry i then none else some (i, f i))

theorem tableOf_cells (f : Nat → Byte) : tableOf f = tableCells f (List.range 257) := rfl

theorem mem_tableCells {f : Nat → Byte} {l : List Nat} {c : Host.Cell} :
    c ∈ tableCells f l ↔ c.1 ∈ l ∧ c.2 = f c.1 ∧ c.2 ≠ resetEntry c.1 := by
  unfold tableCells
  rw [List.mem_filterMap]
  constructor
  · rintro ⟨i, hi, h⟩
    split at h
    · cases h
    · rename_i hne
      cases h
      exact ⟨hi, rfl, hne⟩
  · rintro ⟨h1, h2, h3⟩
    refine ⟨c.1, h1, ?_⟩
    rw [if_neg (by rw [← h2]; exact h3), ← h2]

theorem read_tableCells (f : Nat → Byte) (l : List Nat) (i : Nat) :
    (tableCells f l).read i = if i ∈ l then f i else resetEntry i := by
  induction l with
  | nil => rfl
  | cons a l ih =>
    have hcons : tableCells f (a :: l) =
        if f a = resetEntry a then tableCells f l else (a, f a) :: tableCells f l := by
      unfold tableCells
      rw [List.filterMap_cons]
      split <;> rename_i h <;> split at h <;> simp_all
    rw [hcons]
    by_cases ha : f a = resetEntry a
    · rw [if_pos ha, ih]
      by_cases hia : i = a
      · subst hia; simp [ha]
      · simp [hia]
    · rw [if_neg ha, read_cons, ih]
      by_cases hia : a = i
      · subst hia; simp
      · rw [if_neg hia]; simp [Ne.symm hia]

/-- A filled table reads as the function that filled it. -/
theorem read_tableOf (f : Nat → Byte) (i : Nat) (hi : i ≤ 256) : (tableOf f).read i = f i := by
  rw [tableOf_cells, read_tableCells, if_pos (List.mem_range.2 (by omega))]

/-- A filled table is in canonical form. -/
theorem tableOf_wf (f : Nat → Byte) : (tableOf f).wf = true := by
  refine (wf_iff _).2 ⟨?_, fun c hc => ?_⟩
  · rw [tableOf_cells]
    unfold tableCells
    rw [List.pairwise_filterMap]
    refine (List.pairwise_lt_range (n := 257)).imp ?_
    intro a b hab x hx y hy
    split at hx <;> split at hy <;> simp_all
    obtain ⟨_, rfl⟩ := hx
    obtain ⟨_, rfl⟩ := hy
    exact hab
  · rw [tableOf_cells, mem_tableCells] at hc
    exact ⟨by have := List.mem_range.1 hc.1; omega, hc.2.2⟩

/-- Two tables in canonical form that read alike are the same data. -/
theorem memory_ext {m m' : Memory} (h : m.wf = true) (h' : m'.wf = true) (hr : ∀ i, m.read i = m'.read i) : m = m' := by
  have key : ∀ (m : Memory), m.wf = true → ∀ c : Host.Cell, c ∈ m ↔ m.read c.1 = c.2 ∧ c.2 ≠ resetEntry c.1 := by
    intro m hm c
    obtain ⟨hs, hc⟩ := (wf_iff m).1 hm
    constructor
    · intro hmem
      refine ⟨?_, (hc c hmem).2⟩
      clear hc hm
      induction m with
      | nil => cases hmem
      | cons d m ih =>
        obtain ⟨a, b⟩ := d
        obtain ⟨hlt, hm⟩ := List.pairwise_cons.1 hs
        rw [read_cons]
        rcases List.mem_cons.1 hmem with rfl | hmem
        · simp
        · have := hlt c hmem
          rw [if_neg (by simp only at this; omega)]
          exact ih hm hmem
    · rintro ⟨h1, h2⟩
      by_contra hn
      have hex : ∃ d ∈ m, d.1 = c.1 := by
        by_contra hno
        push Not at hno
        exact h2 (by rw [← h1]; exact read_of_not_listed m c.1 hno)
      obtain ⟨d, hd, hdc⟩ := hex
      have hrd : m.read d.1 = d.2 := by
        clear hn h1 hc hm
        induction m with
        | nil => cases hd
        | cons e m ih =>
          obtain ⟨a, b⟩ := e
          obtain ⟨hlt, hm⟩ := List.pairwise_cons.1 hs
          rw [read_cons]
          rcases List.mem_cons.1 hd with rfl | hmem
          · simp
          · have := hlt d hmem
            rw [if_neg (by simp only at this; omega)]
            exact ih hm hmem
      rw [hdc, h1] at hrd
      exact hn (by rw [show c = d from Prod.ext hdc.symm hrd]; exact hd)
  have hmem : ∀ c, c ∈ m ↔ c ∈ m' := fun c => by rw [key m h, key m' h', hr]
  have hs := ((wf_iff m).1 h).1
  have hs' := ((wf_iff m').1 h').1
  exact List.Perm.eq_of_pairwise (fun a b _ _ h1 h2 => absurd (lt_trans h1 h2) (lt_irrefl _)) hs hs'
    ((List.perm_ext_iff_of_nodup (hs.imp (fun h => fun he => by subst he; exact lt_irrefl _ h))
      (hs'.imp (fun h => fun he => by subst he; exact lt_irrefl _ h))).2 hmem)

/-- PERM_WRITE's table (40_permutation_table.md R126): the entry, and entry 256 with entry 0. -/
theorem read_writeEntry (m : Memory) (index j : Nat) (v : Byte) (h : m.wf = true) (hi : index ≤ 255) :
    (writeEntry m index v).read j = if j = index ∨ (index = 0 ∧ j = 256) then v else m.read j := by
  unfold writeEntry
  split
  · rename_i h0
    rw [read_write _ _ _ _ (write_wf m 0 v (by omega) h), read_write _ _ _ _ h]
    subst h0
    by_cases h1 : j = 256
    · subst h1; simp
    · by_cases h2 : j = 0
      · subst h2; simp
      · rw [if_neg (Ne.symm h1), if_neg (Ne.symm h2), if_neg (by omega)]
  · rename_i h0
    rw [read_write _ _ _ _ h]
    by_cases h1 : j = index
    · subst h1; simp
    · rw [if_neg (Ne.symm h1), if_neg (by omega)]

theorem writeEntry_wf (m : Memory) (index : Nat) (v : Byte) (h : m.wf = true) (hi : index ≤ 255) :
    (writeEntry m index v).wf = true := by
  unfold writeEntry
  split
  · exact write_wf _ _ _ (by omega) (write_wf m 0 v (by omega) h)
  · exact write_wf m _ _ (by omega) h

theorem tableOfList_wf (t : List Byte) : (tableOfList t).wf = true := tableOf_wf _

theorem read_tableOfList (t : List Byte) (i : Nat) (hi : i ≤ 256) : (tableOfList t).read i = t.getD i 0#8 :=
  read_tableOf _ i hi

theorem unspecifiedTable_wf (n : Nat) : (unspecifiedTable n).wf = true := tableOf_wf _

/-- After an aborted PERM_BUILD every entry is a free byte, and `PT[256] = PT[0]` (45_control.md R222). -/
theorem read_unspecifiedTable (n i : Nat) (hi : i ≤ 256) :
    (unspecifiedTable n).read i = if i = 256 then Config.unspecifiedByte n 0 else Config.unspecifiedByte n i :=
  read_tableOf _ i hi

end Sys2Proof.Machine
end

