-- ==== Sys2Proof/Laws/PerInstr.lean ====
section
/-! SUPPORT. What holds of each command as syntax, one lemma per constructor: its word carries its opcode in bits 7:0 and no
reserved bit (30_encoding.md R91 to R94). -/

namespace Sys2Proof.Laws.EncodeForm

open Sys2Proof

/-- The word of a well-formed command has the command's opcode and no bit of `RES(opc)` (R94). -/
def Statement (i : Instr) : Prop :=
  i.wellFormed = true →
    wordOpcode (encode i) = i.opcode ∧ ∃ mask, reservedMask i.opcode = some mask ∧ encode i &&& mask = 0#32

theorem nop : Statement .nop := fun _ => ⟨by decide, _, rfl, by decide⟩

theorem permBuild : Statement .permBuild := fun _ => ⟨by decide, _, rfl, by decide⟩

/-- Format T: INDEX in bits 16:8 and DATA8 in bits 31:24 leave bits 7:0 and 23:17 alone (R92). -/
theorem formatT_opcode (opc : Byte) (index : BitVec 9) (data8 : Byte) :
    wordOpcode (formatT opc index data8) = opc ∧ formatT opc index data8 &&& 0x00FE0000#32 = 0#32 := by
  constructor
  · unfold wordOpcode formatT
    ext k hk
    have h1 : k < 24 := by omega
    have h2 : k < 32 := by omega
    simp [h1, h2, hk]
  · ext k hk
    unfold formatT
    rcases Nat.lt_or_ge k 17 with h | h
    · interval_cases k <;> simp
    · rcases Nat.lt_or_ge k 24 with h' | h'
      · interval_cases k <;> simp
      · interval_cases k <;> simp

theorem permWrite (index : Nat) (data8 : Byte) : Statement (.permWrite index data8) :=
  fun _ => ⟨(formatT_opcode _ _ _).1, _, rfl, (formatT_opcode _ _ _).2⟩

theorem permRead (index : Nat) : Statement (.permRead index) := by
  refine fun _ => ⟨(formatT_opcode _ _ _).1, _, rfl, ?_⟩
  show formatT 0x03#8 (BitVec.ofNat 9 index) 0#8 &&& 0xFFFE0000#32 = 0#32
  generalize BitVec.ofNat 9 index = b
  revert b
  decide +kernel

theorem noiseEval : Statement .noiseEval := fun _ => ⟨by decide, _, rfl, by decide⟩

theorem fbmEval : Statement .fbmEval := fun _ => ⟨by decide, _, rfl, by decide⟩

theorem intensityMap : Statement .intensityMap := fun _ => ⟨by decide, _, rfl, by decide⟩

theorem colorMap (imm8 : Byte) : Statement (.colorMap imm8) := by
  revert imm8
  refine fun imm8 _ => ⟨?_, _, rfl, ?_⟩ <;> revert imm8 <;> decide +kernel

theorem pixelEval : Statement .pixelEval := fun _ => ⟨by decide, _, rfl, by decide⟩

theorem render : Statement .render := fun _ => ⟨by decide, _, rfl, by decide⟩

end Sys2Proof.Laws.EncodeForm
end

