-- ==== Sys2Proof/Laws/Shuffle.lean ====
section
/-! SUPPORT. What one draw and one exchange of the shuffle can do (40_permutation_table.md R123). -/

namespace Sys2Proof.Machine

/-- The index a draw selects is below its bound. -/
theorem mulhi64_lt (r : U64) (n : Nat) (h : 0 < n) : mulhi64 r n < n := by
  unfold mulhi64
  exact Nat.div_lt_of_lt_mul (Nat.mul_lt_mul_of_pos_right r.isLt h)

/-- The next state of a draw, as a number (R122). -/
theorem splitmixNext_state (s : U64) : (splitmixNext s).1.toNat = (s.toNat + 0x9E3779B97F4A7C15) % 2 ^ 64 :=
  BitVec.toNat_add ..

/-- One mixing step, as a number. -/
theorem xorShift_mul_toNat (z c : U64) (n : Nat) :
    ((z ^^^ (z >>> n)) * c).toNat = (z.toNat ^^^ (z.toNat / 2 ^ n)) * c.toNat % 2 ^ 64 := by
  rw [BitVec.toNat_mul, BitVec.toNat_xor, BitVec.toNat_ushiftRight, Nat.shiftRight_eq_div_pow]

/-- The last mixing step, as a number. -/
theorem xorShift_toNat (z : U64) (n : Nat) : (z ^^^ (z >>> n)).toNat = z.toNat ^^^ (z.toNat / 2 ^ n) := by
  rw [BitVec.toNat_xor, BitVec.toNat_ushiftRight, Nat.shiftRight_eq_div_pow]

@[simp] theorem swapEntries_length (t : List Byte) (i j : Nat) : (swapEntries t i j).length = t.length := by
  simp [swapEntries]

/-- An exchange of two entries keeps what the entries are. -/
theorem swapEntries_perm (t : List Byte) (i j : Nat) (hi : i < t.length) (hj : j < t.length) :
    (swapEntries t i j).Perm t := by
  have h1 : t.getD j 0#8 = t[j] := by simp [hj]
  have h2 : t.getD i 0#8 = t[i] := by simp [hi]
  unfold swapEntries
  rw [h1, h2]
  exact List.set_set_perm hi hj

theorem shufflePass_length (n : Nat) (s : U64) (t : List Byte) : (shufflePass n s t).length = t.length := by
  induction n generalizing s t with
  | zero => rfl
  | succ n ih =>
    rw [shufflePass]
    exact (ih _ _).trans (swapEntries_length _ _ _)

@[simp] theorem orderedBytes_length : orderedBytes.length = 256 := by
  rw [orderedBytes, List.length_map, List.length_range]

end Sys2Proof.Machine
end

