-- ==== Sys2Proof/Laws/State.lean ====
section
/-! SUPPORT. What each named update of the state leaves in each field: one lemma per field per update, so that no proof unfolds
a record update. -/

namespace Sys2Proof.Machine

@[simp] theorem recordFault_ieDone (c : ErrCode) (w : Word) (s : State) : (recordFault c w s).ieDone = s.ieDone := rfl

@[simp] theorem recordFault_ieErr (c : ErrCode) (w : Word) (s : State) : (recordFault c w s).ieErr = s.ieErr := rfl

@[simp] theorem recordFault_done (c : ErrCode) (w : Word) (s : State) : (recordFault c w s).done = s.done := rfl

@[simp] theorem recordFault_err (c : ErrCode) (w : Word) (s : State) : (recordFault c w s).err = true := rfl

@[simp] theorem recordFault_ovr (c : ErrCode) (w : Word) (s : State) : (recordFault c w s).ovr = s.ovr := rfl

@[simp] theorem recordFault_errCode (c : ErrCode) (w : Word) (s : State) : (recordFault c w s).errCode = c := rfl

@[simp] theorem recordFault_lastOpc (c : ErrCode) (w : Word) (s : State) : (recordFault c w s).lastOpc = wordOpcode w := rfl

@[simp] theorem recordFault_permData (c : ErrCode) (w : Word) (s : State) : (recordFault c w s).permData = s.permData := rfl

@[simp] theorem recordFault_seedLo (c : ErrCode) (w : Word) (s : State) : (recordFault c w s).seedLo = s.seedLo := rfl

@[simp] theorem recordFault_seedHi (c : ErrCode) (w : Word) (s : State) : (recordFault c w s).seedHi = s.seedHi := rfl

@[simp] theorem recordFault_xLo (c : ErrCode) (w : Word) (s : State) : (recordFault c w s).xLo = s.xLo := rfl

@[simp] theorem recordFault_xHi (c : ErrCode) (w : Word) (s : State) : (recordFault c w s).xHi = s.xHi := rfl

@[simp] theorem recordFault_yLo (c : ErrCode) (w : Word) (s : State) : (recordFault c w s).yLo = s.yLo := rfl

@[simp] theorem recordFault_yHi (c : ErrCode) (w : Word) (s : State) : (recordFault c w s).yHi = s.yHi := rfl

@[simp] theorem recordFault_dims (c : ErrCode) (w : Word) (s : State) : (recordFault c w s).dims = s.dims := rfl

@[simp] theorem recordFault_octaves (c : ErrCode) (w : Word) (s : State) : (recordFault c w s).octaves = s.octaves := rfl

@[simp] theorem recordFault_resultLo (c : ErrCode) (w : Word) (s : State) : (recordFault c w s).resultLo = s.resultLo := rfl

@[simp] theorem recordFault_resultHi (c : ErrCode) (w : Word) (s : State) : (recordFault c w s).resultHi = s.resultHi := rfl

@[simp] theorem recordFault_intensity (c : ErrCode) (w : Word) (s : State) : (recordFault c w s).intensity = s.intensity := rfl

@[simp] theorem recordFault_color (c : ErrCode) (w : Word) (s : State) : (recordFault c w s).color = s.color := rfl

@[simp] theorem recordFault_pixelCount (c : ErrCode) (w : Word) (s : State) : (recordFault c w s).pixelCount = s.pixelCount := rfl

@[simp] theorem recordFault_errCmd (c : ErrCode) (w : Word) (s : State) : (recordFault c w s).errCmd = w := rfl

@[simp] theorem recordFault_tableState (c : ErrCode) (w : Word) (s : State) : (recordFault c w s).tableState = s.tableState := rfl

@[simp] theorem recordFault_pt (c : ErrCode) (w : Word) (s : State) : (recordFault c w s).pt = s.pt := rfl

@[simp] theorem recordFault_engine (c : ErrCode) (w : Word) (s : State) : (recordFault c w s).engine = s.engine := rfl

@[simp] theorem recordFault_q (c : ErrCode) (w : Word) (s : State) : (recordFault c w s).q = s.q := rfl

@[simp] theorem recordFault_env (c : ErrCode) (w : Word) (s : State) : (recordFault c w s).env = s.env := rfl

@[simp] theorem acceptCommand_ieDone (w : Word) (s : State) : (acceptCommand w s).ieDone = s.ieDone := rfl

@[simp] theorem acceptCommand_ieErr (w : Word) (s : State) : (acceptCommand w s).ieErr = s.ieErr := rfl

@[simp] theorem acceptCommand_done (w : Word) (s : State) : (acceptCommand w s).done = s.done := rfl

@[simp] theorem acceptCommand_err (w : Word) (s : State) : (acceptCommand w s).err = s.err := rfl

@[simp] theorem acceptCommand_ovr (w : Word) (s : State) : (acceptCommand w s).ovr = s.ovr := rfl

@[simp] theorem acceptCommand_errCode (w : Word) (s : State) : (acceptCommand w s).errCode = s.errCode := rfl

@[simp] theorem acceptCommand_lastOpc (w : Word) (s : State) : (acceptCommand w s).lastOpc = wordOpcode w := rfl

@[simp] theorem acceptCommand_permData (w : Word) (s : State) : (acceptCommand w s).permData = s.permData := rfl

@[simp] theorem acceptCommand_seedLo (w : Word) (s : State) : (acceptCommand w s).seedLo = s.seedLo := rfl

@[simp] theorem acceptCommand_seedHi (w : Word) (s : State) : (acceptCommand w s).seedHi = s.seedHi := rfl

@[simp] theorem acceptCommand_xLo (w : Word) (s : State) : (acceptCommand w s).xLo = s.xLo := rfl

@[simp] theorem acceptCommand_xHi (w : Word) (s : State) : (acceptCommand w s).xHi = s.xHi := rfl

@[simp] theorem acceptCommand_yLo (w : Word) (s : State) : (acceptCommand w s).yLo = s.yLo := rfl

@[simp] theorem acceptCommand_yHi (w : Word) (s : State) : (acceptCommand w s).yHi = s.yHi := rfl

@[simp] theorem acceptCommand_dims (w : Word) (s : State) : (acceptCommand w s).dims = s.dims := rfl

@[simp] theorem acceptCommand_octaves (w : Word) (s : State) : (acceptCommand w s).octaves = s.octaves := rfl

@[simp] theorem acceptCommand_resultLo (w : Word) (s : State) : (acceptCommand w s).resultLo = s.resultLo := rfl

@[simp] theorem acceptCommand_resultHi (w : Word) (s : State) : (acceptCommand w s).resultHi = s.resultHi := rfl

@[simp] theorem acceptCommand_intensity (w : Word) (s : State) : (acceptCommand w s).intensity = s.intensity := rfl

@[simp] theorem acceptCommand_color (w : Word) (s : State) : (acceptCommand w s).color = s.color := rfl

@[simp] theorem acceptCommand_pixelCount (w : Word) (s : State) : (acceptCommand w s).pixelCount = s.pixelCount := rfl

@[simp] theorem acceptCommand_errCmd (w : Word) (s : State) : (acceptCommand w s).errCmd = s.errCmd := rfl

@[simp] theorem acceptCommand_tableState (w : Word) (s : State) : (acceptCommand w s).tableState = s.tableState := rfl

@[simp] theorem acceptCommand_pt (w : Word) (s : State) : (acceptCommand w s).pt = s.pt := rfl

@[simp] theorem acceptCommand_engine (w : Word) (s : State) : (acceptCommand w s).engine = .busy w (latch w s) none := rfl

@[simp] theorem acceptCommand_q (w : Word) (s : State) : (acceptCommand w s).q = s.q := rfl

@[simp] theorem acceptCommand_env (w : Word) (s : State) : (acceptCommand w s).env = s.env := rfl

@[simp] theorem acceptRender_ieDone (w : Word) (s : State) : (acceptRender w s).ieDone = s.ieDone := rfl

@[simp] theorem acceptRender_ieErr (w : Word) (s : State) : (acceptRender w s).ieErr = s.ieErr := rfl

@[simp] theorem acceptRender_done (w : Word) (s : State) : (acceptRender w s).done = s.done := rfl

@[simp] theorem acceptRender_err (w : Word) (s : State) : (acceptRender w s).err = s.err := rfl

@[simp] theorem acceptRender_ovr (w : Word) (s : State) : (acceptRender w s).ovr = s.ovr := rfl

@[simp] theorem acceptRender_errCode (w : Word) (s : State) : (acceptRender w s).errCode = s.errCode := rfl

@[simp] theorem acceptRender_lastOpc (w : Word) (s : State) : (acceptRender w s).lastOpc = wordOpcode w := rfl

@[simp] theorem acceptRender_permData (w : Word) (s : State) : (acceptRender w s).permData = s.permData := rfl

@[simp] theorem acceptRender_seedLo (w : Word) (s : State) : (acceptRender w s).seedLo = s.seedLo := rfl

@[simp] theorem acceptRender_seedHi (w : Word) (s : State) : (acceptRender w s).seedHi = s.seedHi := rfl

@[simp] theorem acceptRender_xLo (w : Word) (s : State) : (acceptRender w s).xLo = s.xLo := rfl

@[simp] theorem acceptRender_xHi (w : Word) (s : State) : (acceptRender w s).xHi = s.xHi := rfl

@[simp] theorem acceptRender_yLo (w : Word) (s : State) : (acceptRender w s).yLo = s.yLo := rfl

@[simp] theorem acceptRender_yHi (w : Word) (s : State) : (acceptRender w s).yHi = s.yHi := rfl

@[simp] theorem acceptRender_dims (w : Word) (s : State) : (acceptRender w s).dims = s.dims := rfl

@[simp] theorem acceptRender_octaves (w : Word) (s : State) : (acceptRender w s).octaves = s.octaves := rfl

@[simp] theorem acceptRender_resultLo (w : Word) (s : State) : (acceptRender w s).resultLo = s.resultLo := rfl

@[simp] theorem acceptRender_resultHi (w : Word) (s : State) : (acceptRender w s).resultHi = s.resultHi := rfl

@[simp] theorem acceptRender_intensity (w : Word) (s : State) : (acceptRender w s).intensity = s.intensity := rfl

@[simp] theorem acceptRender_color (w : Word) (s : State) : (acceptRender w s).color = s.color := rfl

@[simp] theorem acceptRender_pixelCount (w : Word) (s : State) : (acceptRender w s).pixelCount = 0#32 := rfl

@[simp] theorem acceptRender_errCmd (w : Word) (s : State) : (acceptRender w s).errCmd = s.errCmd := rfl

@[simp] theorem acceptRender_tableState (w : Word) (s : State) : (acceptRender w s).tableState = s.tableState := rfl

@[simp] theorem acceptRender_pt (w : Word) (s : State) : (acceptRender w s).pt = s.pt := rfl

@[simp] theorem acceptRender_engine (w : Word) (s : State) : (acceptRender w s).engine = .busy w (latch w s) (some ⟨0, 0, 0⟩) := rfl

@[simp] theorem acceptRender_q (w : Word) (s : State) : (acceptRender w s).q = s.q := rfl

@[simp] theorem acceptRender_env (w : Word) (s : State) : (acceptRender w s).env = s.env := rfl

@[simp] theorem finish_ieDone (s : State) : (finish s).ieDone = s.ieDone := rfl

@[simp] theorem finish_ieErr (s : State) : (finish s).ieErr = s.ieErr := rfl

@[simp] theorem finish_done (s : State) : (finish s).done = true := rfl

@[simp] theorem finish_err (s : State) : (finish s).err = s.err := rfl

@[simp] theorem finish_ovr (s : State) : (finish s).ovr = s.ovr := rfl

@[simp] theorem finish_errCode (s : State) : (finish s).errCode = s.errCode := rfl

@[simp] theorem finish_lastOpc (s : State) : (finish s).lastOpc = s.lastOpc := rfl

@[simp] theorem finish_permData (s : State) : (finish s).permData = s.permData := rfl

@[simp] theorem finish_seedLo (s : State) : (finish s).seedLo = s.seedLo := rfl

@[simp] theorem finish_seedHi (s : State) : (finish s).seedHi = s.seedHi := rfl

@[simp] theorem finish_xLo (s : State) : (finish s).xLo = s.xLo := rfl

@[simp] theorem finish_xHi (s : State) : (finish s).xHi = s.xHi := rfl

@[simp] theorem finish_yLo (s : State) : (finish s).yLo = s.yLo := rfl

@[simp] theorem finish_yHi (s : State) : (finish s).yHi = s.yHi := rfl

@[simp] theorem finish_dims (s : State) : (finish s).dims = s.dims := rfl

@[simp] theorem finish_octaves (s : State) : (finish s).octaves = s.octaves := rfl

@[simp] theorem finish_resultLo (s : State) : (finish s).resultLo = s.resultLo := rfl

@[simp] theorem finish_resultHi (s : State) : (finish s).resultHi = s.resultHi := rfl

@[simp] theorem finish_intensity (s : State) : (finish s).intensity = s.intensity := rfl

@[simp] theorem finish_color (s : State) : (finish s).color = s.color := rfl

@[simp] theorem finish_pixelCount (s : State) : (finish s).pixelCount = s.pixelCount := rfl

@[simp] theorem finish_errCmd (s : State) : (finish s).errCmd = s.errCmd := rfl

@[simp] theorem finish_tableState (s : State) : (finish s).tableState = s.tableState := rfl

@[simp] theorem finish_pt (s : State) : (finish s).pt = s.pt := rfl

@[simp] theorem finish_engine (s : State) : (finish s).engine = .idle := rfl

@[simp] theorem finish_q (s : State) : (finish s).q = s.q := rfl

@[simp] theorem finish_env (s : State) : (finish s).env = s.env := rfl

@[simp] theorem setResult_ieDone (v : F64) (s : State) : (setResult v s).ieDone = s.ieDone := rfl

@[simp] theorem setResult_ieErr (v : F64) (s : State) : (setResult v s).ieErr = s.ieErr := rfl

@[simp] theorem setResult_done (v : F64) (s : State) : (setResult v s).done = s.done := rfl

@[simp] theorem setResult_err (v : F64) (s : State) : (setResult v s).err = s.err := rfl

@[simp] theorem setResult_ovr (v : F64) (s : State) : (setResult v s).ovr = s.ovr := rfl

@[simp] theorem setResult_errCode (v : F64) (s : State) : (setResult v s).errCode = s.errCode := rfl

@[simp] theorem setResult_lastOpc (v : F64) (s : State) : (setResult v s).lastOpc = s.lastOpc := rfl

@[simp] theorem setResult_permData (v : F64) (s : State) : (setResult v s).permData = s.permData := rfl

@[simp] theorem setResult_seedLo (v : F64) (s : State) : (setResult v s).seedLo = s.seedLo := rfl

@[simp] theorem setResult_seedHi (v : F64) (s : State) : (setResult v s).seedHi = s.seedHi := rfl

@[simp] theorem setResult_xLo (v : F64) (s : State) : (setResult v s).xLo = s.xLo := rfl

@[simp] theorem setResult_xHi (v : F64) (s : State) : (setResult v s).xHi = s.xHi := rfl

@[simp] theorem setResult_yLo (v : F64) (s : State) : (setResult v s).yLo = s.yLo := rfl

@[simp] theorem setResult_yHi (v : F64) (s : State) : (setResult v s).yHi = s.yHi := rfl

@[simp] theorem setResult_dims (v : F64) (s : State) : (setResult v s).dims = s.dims := rfl

@[simp] theorem setResult_octaves (v : F64) (s : State) : (setResult v s).octaves = s.octaves := rfl

@[simp] theorem setResult_resultLo (v : F64) (s : State) : (setResult v s).resultLo = v.extractLsb' 0 32 := rfl

@[simp] theorem setResult_resultHi (v : F64) (s : State) : (setResult v s).resultHi = v.extractLsb' 32 32 := rfl

@[simp] theorem setResult_intensity (v : F64) (s : State) : (setResult v s).intensity = s.intensity := rfl

@[simp] theorem setResult_color (v : F64) (s : State) : (setResult v s).color = s.color := rfl

@[simp] theorem setResult_pixelCount (v : F64) (s : State) : (setResult v s).pixelCount = s.pixelCount := rfl

@[simp] theorem setResult_errCmd (v : F64) (s : State) : (setResult v s).errCmd = s.errCmd := rfl

@[simp] theorem setResult_tableState (v : F64) (s : State) : (setResult v s).tableState = s.tableState := rfl

@[simp] theorem setResult_pt (v : F64) (s : State) : (setResult v s).pt = s.pt := rfl

@[simp] theorem setResult_engine (v : F64) (s : State) : (setResult v s).engine = s.engine := rfl

@[simp] theorem setResult_q (v : F64) (s : State) : (setResult v s).q = s.q := rfl

@[simp] theorem setResult_env (v : F64) (s : State) : (setResult v s).env = s.env := rfl

@[simp] theorem rejectOverrun_ieDone (s : State) : (rejectOverrun s).ieDone = s.ieDone := rfl

@[simp] theorem rejectOverrun_ieErr (s : State) : (rejectOverrun s).ieErr = s.ieErr := rfl

@[simp] theorem rejectOverrun_done (s : State) : (rejectOverrun s).done = s.done := rfl

@[simp] theorem rejectOverrun_err (s : State) : (rejectOverrun s).err = s.err := rfl

@[simp] theorem rejectOverrun_ovr (s : State) : (rejectOverrun s).ovr = true := rfl

@[simp] theorem rejectOverrun_errCode (s : State) : (rejectOverrun s).errCode = s.errCode := rfl

@[simp] theorem rejectOverrun_lastOpc (s : State) : (rejectOverrun s).lastOpc = s.lastOpc := rfl

@[simp] theorem rejectOverrun_permData (s : State) : (rejectOverrun s).permData = s.permData := rfl

@[simp] theorem rejectOverrun_seedLo (s : State) : (rejectOverrun s).seedLo = s.seedLo := rfl

@[simp] theorem rejectOverrun_seedHi (s : State) : (rejectOverrun s).seedHi = s.seedHi := rfl

@[simp] theorem rejectOverrun_xLo (s : State) : (rejectOverrun s).xLo = s.xLo := rfl

@[simp] theorem rejectOverrun_xHi (s : State) : (rejectOverrun s).xHi = s.xHi := rfl

@[simp] theorem rejectOverrun_yLo (s : State) : (rejectOverrun s).yLo = s.yLo := rfl

@[simp] theorem rejectOverrun_yHi (s : State) : (rejectOverrun s).yHi = s.yHi := rfl

@[simp] theorem rejectOverrun_dims (s : State) : (rejectOverrun s).dims = s.dims := rfl

@[simp] theorem rejectOverrun_octaves (s : State) : (rejectOverrun s).octaves = s.octaves := rfl

@[simp] theorem rejectOverrun_resultLo (s : State) : (rejectOverrun s).resultLo = s.resultLo := rfl

@[simp] theorem rejectOverrun_resultHi (s : State) : (rejectOverrun s).resultHi = s.resultHi := rfl

@[simp] theorem rejectOverrun_intensity (s : State) : (rejectOverrun s).intensity = s.intensity := rfl

@[simp] theorem rejectOverrun_color (s : State) : (rejectOverrun s).color = s.color := rfl

@[simp] theorem rejectOverrun_pixelCount (s : State) : (rejectOverrun s).pixelCount = s.pixelCount := rfl

@[simp] theorem rejectOverrun_errCmd (s : State) : (rejectOverrun s).errCmd = s.errCmd := rfl

@[simp] theorem rejectOverrun_tableState (s : State) : (rejectOverrun s).tableState = s.tableState := rfl

@[simp] theorem rejectOverrun_pt (s : State) : (rejectOverrun s).pt = s.pt := rfl

@[simp] theorem rejectOverrun_engine (s : State) : (rejectOverrun s).engine = s.engine := rfl

@[simp] theorem rejectOverrun_q (s : State) : (rejectOverrun s).q = s.q := rfl

@[simp] theorem rejectOverrun_env (s : State) : (rejectOverrun s).env = s.env := rfl

@[simp] theorem writeStatus_ieDone (v : Word) (s : State) : (writeStatus v s).ieDone = s.ieDone := rfl

@[simp] theorem writeStatus_ieErr (v : Word) (s : State) : (writeStatus v s).ieErr = s.ieErr := rfl

@[simp] theorem writeStatus_done (v : Word) (s : State) : (writeStatus v s).done = (s.done && !v.getLsbD 1) := rfl

@[simp] theorem writeStatus_err (v : Word) (s : State) : (writeStatus v s).err = (s.err && !v.getLsbD 2) := rfl

@[simp] theorem writeStatus_ovr (v : Word) (s : State) : (writeStatus v s).ovr = (s.ovr && !v.getLsbD 3) := rfl

@[simp] theorem writeStatus_errCode (v : Word) (s : State) : (writeStatus v s).errCode = if v.getLsbD 2 then .none else s.errCode := rfl

@[simp] theorem writeStatus_lastOpc (v : Word) (s : State) : (writeStatus v s).lastOpc = s.lastOpc := rfl

@[simp] theorem writeStatus_permData (v : Word) (s : State) : (writeStatus v s).permData = s.permData := rfl

@[simp] theorem writeStatus_seedLo (v : Word) (s : State) : (writeStatus v s).seedLo = s.seedLo := rfl

@[simp] theorem writeStatus_seedHi (v : Word) (s : State) : (writeStatus v s).seedHi = s.seedHi := rfl

@[simp] theorem writeStatus_xLo (v : Word) (s : State) : (writeStatus v s).xLo = s.xLo := rfl

@[simp] theorem writeStatus_xHi (v : Word) (s : State) : (writeStatus v s).xHi = s.xHi := rfl

@[simp] theorem writeStatus_yLo (v : Word) (s : State) : (writeStatus v s).yLo = s.yLo := rfl

@[simp] theorem writeStatus_yHi (v : Word) (s : State) : (writeStatus v s).yHi = s.yHi := rfl

@[simp] theorem writeStatus_dims (v : Word) (s : State) : (writeStatus v s).dims = s.dims := rfl

@[simp] theorem writeStatus_octaves (v : Word) (s : State) : (writeStatus v s).octaves = s.octaves := rfl

@[simp] theorem writeStatus_resultLo (v : Word) (s : State) : (writeStatus v s).resultLo = s.resultLo := rfl

@[simp] theorem writeStatus_resultHi (v : Word) (s : State) : (writeStatus v s).resultHi = s.resultHi := rfl

@[simp] theorem writeStatus_intensity (v : Word) (s : State) : (writeStatus v s).intensity = s.intensity := rfl

@[simp] theorem writeStatus_color (v : Word) (s : State) : (writeStatus v s).color = s.color := rfl

@[simp] theorem writeStatus_pixelCount (v : Word) (s : State) : (writeStatus v s).pixelCount = s.pixelCount := rfl

@[simp] theorem writeStatus_errCmd (v : Word) (s : State) : (writeStatus v s).errCmd = s.errCmd := rfl

@[simp] theorem writeStatus_tableState (v : Word) (s : State) : (writeStatus v s).tableState = s.tableState := rfl

@[simp] theorem writeStatus_pt (v : Word) (s : State) : (writeStatus v s).pt = s.pt := rfl

@[simp] theorem writeStatus_engine (v : Word) (s : State) : (writeStatus v s).engine = s.engine := rfl

@[simp] theorem writeStatus_q (v : Word) (s : State) : (writeStatus v s).q = s.q := rfl

@[simp] theorem writeStatus_env (v : Word) (s : State) : (writeStatus v s).env = s.env := rfl

@[simp] theorem respond_ieDone (r : HostRsp) (s : State) : (respond r s).ieDone = s.ieDone := rfl

@[simp] theorem respond_ieErr (r : HostRsp) (s : State) : (respond r s).ieErr = s.ieErr := rfl

@[simp] theorem respond_done (r : HostRsp) (s : State) : (respond r s).done = s.done := rfl

@[simp] theorem respond_err (r : HostRsp) (s : State) : (respond r s).err = s.err := rfl

@[simp] theorem respond_ovr (r : HostRsp) (s : State) : (respond r s).ovr = s.ovr := rfl

@[simp] theorem respond_errCode (r : HostRsp) (s : State) : (respond r s).errCode = s.errCode := rfl

@[simp] theorem respond_lastOpc (r : HostRsp) (s : State) : (respond r s).lastOpc = s.lastOpc := rfl

@[simp] theorem respond_permData (r : HostRsp) (s : State) : (respond r s).permData = s.permData := rfl

@[simp] theorem respond_seedLo (r : HostRsp) (s : State) : (respond r s).seedLo = s.seedLo := rfl

@[simp] theorem respond_seedHi (r : HostRsp) (s : State) : (respond r s).seedHi = s.seedHi := rfl

@[simp] theorem respond_xLo (r : HostRsp) (s : State) : (respond r s).xLo = s.xLo := rfl

@[simp] theorem respond_xHi (r : HostRsp) (s : State) : (respond r s).xHi = s.xHi := rfl

@[simp] theorem respond_yLo (r : HostRsp) (s : State) : (respond r s).yLo = s.yLo := rfl

@[simp] theorem respond_yHi (r : HostRsp) (s : State) : (respond r s).yHi = s.yHi := rfl

@[simp] theorem respond_dims (r : HostRsp) (s : State) : (respond r s).dims = s.dims := rfl

@[simp] theorem respond_octaves (r : HostRsp) (s : State) : (respond r s).octaves = s.octaves := rfl

@[simp] theorem respond_resultLo (r : HostRsp) (s : State) : (respond r s).resultLo = s.resultLo := rfl

@[simp] theorem respond_resultHi (r : HostRsp) (s : State) : (respond r s).resultHi = s.resultHi := rfl

@[simp] theorem respond_intensity (r : HostRsp) (s : State) : (respond r s).intensity = s.intensity := rfl

@[simp] theorem respond_color (r : HostRsp) (s : State) : (respond r s).color = s.color := rfl

@[simp] theorem respond_pixelCount (r : HostRsp) (s : State) : (respond r s).pixelCount = s.pixelCount := rfl

@[simp] theorem respond_errCmd (r : HostRsp) (s : State) : (respond r s).errCmd = s.errCmd := rfl

@[simp] theorem respond_tableState (r : HostRsp) (s : State) : (respond r s).tableState = s.tableState := rfl

@[simp] theorem respond_pt (r : HostRsp) (s : State) : (respond r s).pt = s.pt := rfl

@[simp] theorem respond_engine (r : HostRsp) (s : State) : (respond r s).engine = s.engine := rfl

@[simp] theorem respond_q (r : HostRsp) (s : State) : (respond r s).q = s.q := rfl

@[simp] theorem respond_env (r : HostRsp) (s : State) : (respond r s).env = { s.env with rsp := some r } := rfl

@[simp] theorem releaseReset_ieDone (s : State) : (releaseReset s).ieDone = s.ieDone := rfl

@[simp] theorem releaseReset_ieErr (s : State) : (releaseReset s).ieErr = s.ieErr := rfl

@[simp] theorem releaseReset_done (s : State) : (releaseReset s).done = s.done := rfl

@[simp] theorem releaseReset_err (s : State) : (releaseReset s).err = s.err := rfl

@[simp] theorem releaseReset_ovr (s : State) : (releaseReset s).ovr = s.ovr := rfl

@[simp] theorem releaseReset_errCode (s : State) : (releaseReset s).errCode = s.errCode := rfl

@[simp] theorem releaseReset_lastOpc (s : State) : (releaseReset s).lastOpc = s.lastOpc := rfl

@[simp] theorem releaseReset_permData (s : State) : (releaseReset s).permData = s.permData := rfl

@[simp] theorem releaseReset_seedLo (s : State) : (releaseReset s).seedLo = s.seedLo := rfl

@[simp] theorem releaseReset_seedHi (s : State) : (releaseReset s).seedHi = s.seedHi := rfl

@[simp] theorem releaseReset_xLo (s : State) : (releaseReset s).xLo = s.xLo := rfl

@[simp] theorem releaseReset_xHi (s : State) : (releaseReset s).xHi = s.xHi := rfl

@[simp] theorem releaseReset_yLo (s : State) : (releaseReset s).yLo = s.yLo := rfl

@[simp] theorem releaseReset_yHi (s : State) : (releaseReset s).yHi = s.yHi := rfl

@[simp] theorem releaseReset_dims (s : State) : (releaseReset s).dims = s.dims := rfl

@[simp] theorem releaseReset_octaves (s : State) : (releaseReset s).octaves = s.octaves := rfl

@[simp] theorem releaseReset_resultLo (s : State) : (releaseReset s).resultLo = s.resultLo := rfl

@[simp] theorem releaseReset_resultHi (s : State) : (releaseReset s).resultHi = s.resultHi := rfl

@[simp] theorem releaseReset_intensity (s : State) : (releaseReset s).intensity = s.intensity := rfl

@[simp] theorem releaseReset_color (s : State) : (releaseReset s).color = s.color := rfl

@[simp] theorem releaseReset_pixelCount (s : State) : (releaseReset s).pixelCount = s.pixelCount := rfl

@[simp] theorem releaseReset_errCmd (s : State) : (releaseReset s).errCmd = s.errCmd := rfl

@[simp] theorem releaseReset_tableState (s : State) : (releaseReset s).tableState = s.tableState := rfl

@[simp] theorem releaseReset_pt (s : State) : (releaseReset s).pt = s.pt := rfl

@[simp] theorem releaseReset_engine (s : State) : (releaseReset s).engine = s.engine := rfl

@[simp] theorem releaseReset_q (s : State) : (releaseReset s).q = s.q := rfl

@[simp] theorem releaseReset_env (s : State) : (releaseReset s).env = { s.env with rstN := true } := rfl

@[simp] theorem producePixel_ieDone (cmd : Word) (l : Latched) (p : RenderSeq) (s : State) : (producePixel cmd l p s).ieDone = s.ieDone := rfl

@[simp] theorem producePixel_ieErr (cmd : Word) (l : Latched) (p : RenderSeq) (s : State) : (producePixel cmd l p s).ieErr = s.ieErr := rfl

@[simp] theorem producePixel_done (cmd : Word) (l : Latched) (p : RenderSeq) (s : State) : (producePixel cmd l p s).done = s.done := rfl

@[simp] theorem producePixel_err (cmd : Word) (l : Latched) (p : RenderSeq) (s : State) : (producePixel cmd l p s).err = s.err := rfl

@[simp] theorem producePixel_ovr (cmd : Word) (l : Latched) (p : RenderSeq) (s : State) : (producePixel cmd l p s).ovr = s.ovr := rfl

@[simp] theorem producePixel_errCode (cmd : Word) (l : Latched) (p : RenderSeq) (s : State) : (producePixel cmd l p s).errCode = s.errCode := rfl

@[simp] theorem producePixel_lastOpc (cmd : Word) (l : Latched) (p : RenderSeq) (s : State) : (producePixel cmd l p s).lastOpc = s.lastOpc := rfl

@[simp] theorem producePixel_permData (cmd : Word) (l : Latched) (p : RenderSeq) (s : State) : (producePixel cmd l p s).permData = s.permData := rfl

@[simp] theorem producePixel_seedLo (cmd : Word) (l : Latched) (p : RenderSeq) (s : State) : (producePixel cmd l p s).seedLo = s.seedLo := rfl

@[simp] theorem producePixel_seedHi (cmd : Word) (l : Latched) (p : RenderSeq) (s : State) : (producePixel cmd l p s).seedHi = s.seedHi := rfl

@[simp] theorem producePixel_xLo (cmd : Word) (l : Latched) (p : RenderSeq) (s : State) : (producePixel cmd l p s).xLo = s.xLo := rfl

@[simp] theorem producePixel_xHi (cmd : Word) (l : Latched) (p : RenderSeq) (s : State) : (producePixel cmd l p s).xHi = s.xHi := rfl

@[simp] theorem producePixel_yLo (cmd : Word) (l : Latched) (p : RenderSeq) (s : State) : (producePixel cmd l p s).yLo = s.yLo := rfl

@[simp] theorem producePixel_yHi (cmd : Word) (l : Latched) (p : RenderSeq) (s : State) : (producePixel cmd l p s).yHi = s.yHi := rfl

@[simp] theorem producePixel_dims (cmd : Word) (l : Latched) (p : RenderSeq) (s : State) : (producePixel cmd l p s).dims = s.dims := rfl

@[simp] theorem producePixel_octaves (cmd : Word) (l : Latched) (p : RenderSeq) (s : State) : (producePixel cmd l p s).octaves = s.octaves := rfl

@[simp] theorem producePixel_resultLo (cmd : Word) (l : Latched) (p : RenderSeq) (s : State) : (producePixel cmd l p s).resultLo = s.resultLo := rfl

@[simp] theorem producePixel_resultHi (cmd : Word) (l : Latched) (p : RenderSeq) (s : State) : (producePixel cmd l p s).resultHi = s.resultHi := rfl

@[simp] theorem producePixel_intensity (cmd : Word) (l : Latched) (p : RenderSeq) (s : State) : (producePixel cmd l p s).intensity = s.intensity := rfl

@[simp] theorem producePixel_color (cmd : Word) (l : Latched) (p : RenderSeq) (s : State) : (producePixel cmd l p s).color = s.color := rfl

@[simp] theorem producePixel_pixelCount (cmd : Word) (l : Latched) (p : RenderSeq) (s : State) : (producePixel cmd l p s).pixelCount = s.pixelCount := rfl

@[simp] theorem producePixel_errCmd (cmd : Word) (l : Latched) (p : RenderSeq) (s : State) : (producePixel cmd l p s).errCmd = s.errCmd := rfl

@[simp] theorem producePixel_tableState (cmd : Word) (l : Latched) (p : RenderSeq) (s : State) : (producePixel cmd l p s).tableState = s.tableState := rfl

@[simp] theorem producePixel_pt (cmd : Word) (l : Latched) (p : RenderSeq) (s : State) : (producePixel cmd l p s).pt = s.pt := rfl

@[simp] theorem producePixel_engine (cmd : Word) (l : Latched) (p : RenderSeq) (s : State) : (producePixel cmd l p s).engine = .busy cmd l (some (advanceSeq l p)) := rfl

@[simp] theorem producePixel_q (cmd : Word) (l : Latched) (p : RenderSeq) (s : State) : (producePixel cmd l p s).q = s.q ++ [{ word := pixelWord s.pt l.octaves p.rx p.ry, last := decide (p.produced + 1 = frameSize l) }] := rfl

@[simp] theorem producePixel_env (cmd : Word) (l : Latched) (p : RenderSeq) (s : State) : (producePixel cmd l p s).env = s.env := rfl

@[simp] theorem blockReset_ieDone (s : State) : (blockReset s).ieDone = State.reset.ieDone := rfl

@[simp] theorem blockReset_ieErr (s : State) : (blockReset s).ieErr = State.reset.ieErr := rfl

@[simp] theorem blockReset_done (s : State) : (blockReset s).done = State.reset.done := rfl

@[simp] theorem blockReset_err (s : State) : (blockReset s).err = State.reset.err := rfl

@[simp] theorem blockReset_ovr (s : State) : (blockReset s).ovr = State.reset.ovr := rfl

@[simp] theorem blockReset_errCode (s : State) : (blockReset s).errCode = State.reset.errCode := rfl

@[simp] theorem blockReset_lastOpc (s : State) : (blockReset s).lastOpc = State.reset.lastOpc := rfl

@[simp] theorem blockReset_permData (s : State) : (blockReset s).permData = State.reset.permData := rfl

@[simp] theorem blockReset_seedLo (s : State) : (blockReset s).seedLo = State.reset.seedLo := rfl

@[simp] theorem blockReset_seedHi (s : State) : (blockReset s).seedHi = State.reset.seedHi := rfl

@[simp] theorem blockReset_xLo (s : State) : (blockReset s).xLo = State.reset.xLo := rfl

@[simp] theorem blockReset_xHi (s : State) : (blockReset s).xHi = State.reset.xHi := rfl

@[simp] theorem blockReset_yLo (s : State) : (blockReset s).yLo = State.reset.yLo := rfl

@[simp] theorem blockReset_yHi (s : State) : (blockReset s).yHi = State.reset.yHi := rfl

@[simp] theorem blockReset_dims (s : State) : (blockReset s).dims = State.reset.dims := rfl

@[simp] theorem blockReset_octaves (s : State) : (blockReset s).octaves = State.reset.octaves := rfl

@[simp] theorem blockReset_resultLo (s : State) : (blockReset s).resultLo = State.reset.resultLo := rfl

@[simp] theorem blockReset_resultHi (s : State) : (blockReset s).resultHi = State.reset.resultHi := rfl

@[simp] theorem blockReset_intensity (s : State) : (blockReset s).intensity = State.reset.intensity := rfl

@[simp] theorem blockReset_color (s : State) : (blockReset s).color = State.reset.color := rfl

@[simp] theorem blockReset_pixelCount (s : State) : (blockReset s).pixelCount = State.reset.pixelCount := rfl

@[simp] theorem blockReset_errCmd (s : State) : (blockReset s).errCmd = State.reset.errCmd := rfl

@[simp] theorem blockReset_tableState (s : State) : (blockReset s).tableState = State.reset.tableState := rfl

@[simp] theorem blockReset_pt (s : State) : (blockReset s).pt = State.reset.pt := rfl

@[simp] theorem blockReset_engine (s : State) : (blockReset s).engine = State.reset.engine := rfl

@[simp] theorem blockReset_q (s : State) : (blockReset s).q = State.reset.q := rfl

@[simp] theorem blockReset_env (s : State) : (blockReset s).env = s.env := rfl

@[simp] theorem assertReset_ieDone (s : State) : (assertReset s).ieDone = State.reset.ieDone := rfl

@[simp] theorem assertReset_ieErr (s : State) : (assertReset s).ieErr = State.reset.ieErr := rfl

@[simp] theorem assertReset_done (s : State) : (assertReset s).done = State.reset.done := rfl

@[simp] theorem assertReset_err (s : State) : (assertReset s).err = State.reset.err := rfl

@[simp] theorem assertReset_ovr (s : State) : (assertReset s).ovr = State.reset.ovr := rfl

@[simp] theorem assertReset_errCode (s : State) : (assertReset s).errCode = State.reset.errCode := rfl

@[simp] theorem assertReset_lastOpc (s : State) : (assertReset s).lastOpc = State.reset.lastOpc := rfl

@[simp] theorem assertReset_permData (s : State) : (assertReset s).permData = State.reset.permData := rfl

@[simp] theorem assertReset_seedLo (s : State) : (assertReset s).seedLo = State.reset.seedLo := rfl

@[simp] theorem assertReset_seedHi (s : State) : (assertReset s).seedHi = State.reset.seedHi := rfl

@[simp] theorem assertReset_xLo (s : State) : (assertReset s).xLo = State.reset.xLo := rfl

@[simp] theorem assertReset_xHi (s : State) : (assertReset s).xHi = State.reset.xHi := rfl

@[simp] theorem assertReset_yLo (s : State) : (assertReset s).yLo = State.reset.yLo := rfl

@[simp] theorem assertReset_yHi (s : State) : (assertReset s).yHi = State.reset.yHi := rfl

@[simp] theorem assertReset_dims (s : State) : (assertReset s).dims = State.reset.dims := rfl

@[simp] theorem assertReset_octaves (s : State) : (assertReset s).octaves = State.reset.octaves := rfl

@[simp] theorem assertReset_resultLo (s : State) : (assertReset s).resultLo = State.reset.resultLo := rfl

@[simp] theorem assertReset_resultHi (s : State) : (assertReset s).resultHi = State.reset.resultHi := rfl

@[simp] theorem assertReset_intensity (s : State) : (assertReset s).intensity = State.reset.intensity := rfl

@[simp] theorem assertReset_color (s : State) : (assertReset s).color = State.reset.color := rfl

@[simp] theorem assertReset_pixelCount (s : State) : (assertReset s).pixelCount = State.reset.pixelCount := rfl

@[simp] theorem assertReset_errCmd (s : State) : (assertReset s).errCmd = State.reset.errCmd := rfl

@[simp] theorem assertReset_tableState (s : State) : (assertReset s).tableState = State.reset.tableState := rfl

@[simp] theorem assertReset_pt (s : State) : (assertReset s).pt = State.reset.pt := rfl

@[simp] theorem assertReset_engine (s : State) : (assertReset s).engine = State.reset.engine := rfl

@[simp] theorem assertReset_q (s : State) : (assertReset s).q = State.reset.q := rfl

@[simp] theorem assertReset_env (s : State) : (assertReset s).env = { s.env with rstN := false, rsp := none } := rfl

theorem busy_of_engine {s : State} {cmd : Word} {l : Latched} {seq : Option RenderSeq} (h : s.engine = .busy cmd l seq) :
    s.busy = true := by unfold State.busy; rw [h]

theorem busy_eq_true_iff (s : State) : s.busy = true ↔ ∃ cmd l seq, s.engine = .busy cmd l seq := by
  unfold State.busy
  cases s.engine with
  | idle => simp
  | busy cmd l seq => simp

theorem busy_eq_false_iff (s : State) : s.busy = false ↔ s.engine = .idle := by
  unfold State.busy
  cases s.engine with
  | idle => simp
  | busy cmd l seq => simp

end Sys2Proof.Machine
end

