-- ==== Sys2Proof/Laws/Step.lean ====
section
/-! SUPPORT. What a command, a transaction, a turn and a step can do, said once each: if it answers a next state, one of the
listed cases holds. -/

namespace Sys2Proof.Machine

/-- The operand checks of each command, in R99's order. -/
def commandCheck (i : Instr) : State → Option ErrCode :=
  match i with
  | .nop => checkNothing
  | .permBuild => checkNothing
  | .permWrite index _ => checkIndex index 255
  | .permRead index => checkIndex index 256
  | .noiseEval => checkNoise
  | .fbmEval => checkFbm
  | .intensityMap => checkIntensity
  | .colorMap _ => checkNothing
  | .pixelEval => checkFbm
  | .render => checkTable

/-- What the engine's step of a command leaves, from the latched operands. -/
def CommandStep (i : Instr) (l : Latched) (seq : Option RenderSeq) (s t : State) : Prop :=
  match i with
  | .nop => t = finish s
  | .permBuild => t = { finish s with pt := tableOfList (buildTable l.seed), tableState := .built }
  | .permWrite _ _ => l.index ≤ 255 ∧ t = { finish s with pt := writeEntry s.pt l.index l.data8, tableState := .host }
  | .permRead _ => l.index ≤ 256 ∧ t = { finish s with permData := s.pt.read l.index }
  | .noiseEval => t = setResult (noise2d s.pt l.x l.y) (finish s)
  | .fbmEval => t = setResult (fbm s.pt l.x l.y l.octaves) (finish s)
  | .intensityMap => t = { finish s with intensity := intensityOf l.x }
  | .colorMap _ => t = { finish s with color := packPixel (colorOf l.imm8) }
  | .pixelEval =>
    t = { setResult (fbm s.pt l.x l.y l.octaves) (finish s) with
          intensity := intensityOf (fbm s.pt l.x l.y l.octaves),
          color := packPixel (colorOf (intensityOf (fbm s.pt l.x l.y l.octaves))) }
  | .render => ∃ p, seq = some p ∧ t = renderStep (encode .render) l p s

/-- Acceptance of each command. -/
def commandAccept (i : Instr) (s : State) : State :=
  match i with
  | .render => acceptRender (encode i) s
  | _ => acceptCommand (encode i) s

theorem runCommand_idle {i : Instr} {check : State → Option ErrCode} {accept : Word → State → State}
    {eff : Latched → Option RenderSeq → Result} {s : State} (h : s.engine = .idle) :
    runCommand i check accept eff s =
      .next (match check s with | some c => recordFault c (encode i) s | none => accept (encode i) s) := by
  unfold runCommand
  rw [h]
  cases check s <;> rfl

theorem runCommand_busy {i : Instr} {check : State → Option ErrCode} {accept : Word → State → State}
    {eff : Latched → Option RenderSeq → Result} {s : State} {l : Latched} {seq : Option RenderSeq}
    (h : s.engine = .busy (encode i) l seq) : runCommand i check accept eff s = eff l seq := by
  unfold runCommand
  rw [h]
  exact if_pos rfl

theorem runCommand_busy_next {i : Instr} {check : State → Option ErrCode} {accept : Word → State → State}
    {eff : Latched → Option RenderSeq → Result} {s t : State} {cmd : Word} {l : Latched} {seq : Option RenderSeq}
    (h : s.engine = .busy cmd l seq) (hn : runCommand i check accept eff s = .next t) :
    cmd = encode i ∧ eff l seq = .next t := by
  unfold runCommand at hn
  rw [h] at hn
  simp only at hn
  split at hn
  · exact ⟨‹_›, hn⟩
  · cases hn

/-- The acceptance of every command: the first failing check is recorded, or the command is accepted (R99). -/
theorem exec_idle (i : Instr) {s : State} (h : s.engine = .idle) :
    exec i s = .next (match commandCheck i s with | some c => recordFault c (encode i) s | none => commandAccept i s) := by
  cases i <;> simp only [exec, execNop, execPermBuild, execPermWrite, execPermRead, execNoiseEval, execFbmEval, execIntensityMap, execColorMap,
    execPixelEval, execRender] <;>
    rw [runCommand_idle h] <;> rfl

/-- One engine step of every command: it is the one in flight, and the step is its own. -/
theorem exec_busy_next {i : Instr} {s t : State} {cmd : Word} {l : Latched} {seq : Option RenderSeq}
    (h : s.engine = .busy cmd l seq) (hn : exec i s = .next t) : cmd = encode i ∧ CommandStep i l seq s t := by
  cases i with
  | permWrite index data8 =>
    obtain ⟨hc, he⟩ := runCommand_busy_next h hn
    refine ⟨hc, ?_⟩
    split at he
    · cases he; exact ⟨‹_›, rfl⟩
    · cases he
  | permRead index =>
    obtain ⟨hc, he⟩ := runCommand_busy_next h hn
    refine ⟨hc, ?_⟩
    split at he
    · cases he; exact ⟨‹_›, rfl⟩
    · cases he
  | render =>
    obtain ⟨hc, he⟩ := runCommand_busy_next h hn
    refine ⟨hc, ?_⟩
    split at he
    · cases he; exact ⟨_, rfl, rfl⟩
    · cases he
  | _ =>
    simp only [exec, execNop, execPermBuild, execNoiseEval, execFbmEval, execIntensityMap, execColorMap, execPixelEval] at hn
    obtain ⟨hc, he⟩ := runCommand_busy_next h hn
    cases he
    exact ⟨hc, rfl⟩

/-- A command other than RENDER in flight takes its step wherever the table has the entry it names. -/
theorem exec_of_commandStep {i : Instr} {s t : State} {l : Latched} {seq : Option RenderSeq}
    (h : s.engine = .busy (encode i) l seq) (hs : CommandStep i l seq s t) : exec i s = .next t := by
  cases i with
  | permWrite index data8 =>
    obtain ⟨hi, rfl⟩ := hs
    exact (runCommand_busy h).trans (if_pos hi)
  | permRead index =>
    obtain ⟨hi, rfl⟩ := hs
    exact (runCommand_busy h).trans (if_pos hi)
  | render =>
    obtain ⟨p, rfl, rfl⟩ := hs
    exact runCommand_busy h
  | _ =>
    cases hs
    simp only [exec, execNop, execPermBuild, execNoiseEval, execFbmEval, execIntensityMap, execColorMap, execPixelEval]
    exact runCommand_busy h

/-- Every step of a command but RENDER idles the engine and sets DONE (R225); no step of any touches what follows. -/
theorem commandStep_frame {i : Instr} {l : Latched} {seq : Option RenderSeq} {s t : State} (h : CommandStep i l seq s t) :
    t.env = s.env ∧ t.err = s.err ∧ t.ovr = s.ovr ∧ t.errCode = s.errCode ∧ t.errCmd = s.errCmd ∧ t.lastOpc = s.lastOpc ∧
      t.pixelCount = s.pixelCount ∧ t.ieDone = s.ieDone ∧ t.ieErr = s.ieErr ∧
      (i ≠ .render → t.engine = .idle ∧ t.done = true ∧ t.q = s.q) := by
  cases i with
  | permWrite index data8 => obtain ⟨_, rfl⟩ := h; simp
  | permRead index => obtain ⟨_, rfl⟩ := h; simp
  | render =>
    obtain ⟨p, _, rfl⟩ := h
    unfold renderStep
    split
    · split <;> simp
    · split <;> simp
  | _ => cases h; simp

/-- The table after a command's step: only PERM_BUILD and PERM_WRITE change it (R80, R98). -/
theorem commandStep_pt {i : Instr} {l : Latched} {seq : Option RenderSeq} {s t : State} (h : CommandStep i l seq s t) :
    (t.pt = s.pt ∧ t.tableState = s.tableState) ∨
    (i = .permBuild ∧ t.pt = tableOfList (buildTable l.seed) ∧ t.tableState = .built) ∨
    (∃ index data8, i = .permWrite index data8 ∧ l.index ≤ 255 ∧ t.pt = writeEntry s.pt l.index l.data8 ∧
      t.tableState = .host) := by
  cases i with
  | permBuild => cases h; simp
  | permWrite index data8 => obtain ⟨hi, rfl⟩ := h; simp [hi]
  | permRead index => obtain ⟨_, rfl⟩ := h; simp
  | render =>
    obtain ⟨p, _, rfl⟩ := h
    unfold renderStep
    split
    · split <;> simp
    · split <;> simp
  | _ => cases h; simp

/-- What acceptance leaves (R224, R200): LAST_OPC, the latch, and for RENDER the sequencer and PIXEL_COUNT. -/
theorem commandAccept_frame (i : Instr) (s : State) :
    (commandAccept i s).engine =
      .busy (encode i) (latch (encode i) s) (if i = .render then some ⟨0, 0, 0⟩ else none) ∧
    (commandAccept i s).pixelCount = (if i = .render then 0#32 else s.pixelCount) ∧
    (commandAccept i s).lastOpc = wordOpcode (encode i) ∧ (commandAccept i s).pt = s.pt ∧
    (commandAccept i s).tableState = s.tableState ∧ (commandAccept i s).q = s.q ∧ (commandAccept i s).env = s.env ∧
    (commandAccept i s).errCmd = s.errCmd ∧ (commandAccept i s).permData = s.permData ∧
    (commandAccept i s).resultLo = s.resultLo ∧ (commandAccept i s).resultHi = s.resultHi ∧
    (commandAccept i s).intensity = s.intensity ∧ (commandAccept i s).color = s.color := by
  cases i <;> simp [commandAccept, acceptRender, acceptCommand]

/-- The operand checks raise BAD_INDEX, NO_TABLE or NONFINITE and no other code (R99). -/
theorem commandCheck_code {i : Instr} {s : State} {c : ErrCode} (h : commandCheck i s = some c) :
    c = .badIndex ∨ c = .noTable ∨ c = .nonFinite := by
  have ht : ∀ c, checkTable s = some c → c = .noTable := by
    intro c h; unfold checkTable at h; split at h <;> cases h; rfl
  cases i <;> simp only [commandCheck, checkNothing, checkIndex, checkNoise, checkFbm, checkIntensity,
    Option.or_eq_some_iff, reduceCtorEq] at h
  all_goals first
    | exact Or.inr (Or.inl (ht _ h))
    | (split at h <;> cases h <;> simp)
    | (rcases h with h | ⟨_, h⟩
       · exact Or.inr (Or.inl (ht _ h))
       · split at h <;> cases h; simp)

/-- The two halves of RESULT are the value (R33, R67). -/
theorem setResult_result (v : F64) (s : State) : (setResult v s).resultHi ++ (setResult v s).resultLo = v := by
  unfold setResult
  ext k hk
  simp only [BitVec.getElem_append, BitVec.getElem_extractLsb']
  split
  · simp [BitVec.getLsbD_eq_getElem, hk]
  · simp [BitVec.getLsbD_eq_getElem, hk, show 32 + (k - 32) = k by omega]

/-- The operand registers after an operand write; every other field stays. -/
def OperandWrite (s t : State) : Prop :=
  t = { s with seedLo := t.seedLo, seedHi := t.seedHi, xLo := t.xLo, xHi := t.xHi, yLo := t.yLo, yHi := t.yHi,
               dims := t.dims, octaves := t.octaves }

/-- What a register write can do (R64, R71): nothing, an operand's new value, a CTRL or STATUS action, or a CMD write. -/
theorem writeReg_cases {run : Instr → State → Result} {r : Reg} {v : Word} {s t : State}
    (h : writeReg run r v s = .next t) :
    OperandWrite s t ∨ (r = .ctrl ∧ t = writeCtrl v s) ∨ (r = .status ∧ t = writeStatus v s) ∨
      (r = .cmd ∧ writeCmd run v s = .next t) := by
  cases r <;> first
    | exact Or.inr (Or.inr (Or.inr ⟨rfl, h⟩))
    | (cases h; first
        | exact Or.inl rfl
        | exact Or.inr (Or.inl ⟨rfl, rfl⟩)
        | exact Or.inr (Or.inr (Or.inl ⟨rfl, rfl⟩)))

/-- The register at an offset is the one R21 puts there. -/
theorem regOffset_of_regAt {addr : BitVec 8} {r : Reg} (h : regAt addr = some r) : addr = regOffset r := by
  unfold regAt at h
  have := List.find?_some h
  simp only [beq_iff_eq] at this
  exact this.symm

/-- What a CMD write can do (R223). -/
theorem writeCmd_cases {run : Instr → State → Result} {w : Word} {s t : State} (h : writeCmd run w s = .next t) :
    (s.busy = true ∧ t = rejectOverrun s) ∨
    (s.engine = .idle ∧ ((decode w = .illegalOpcode ∧ t = recordFault .illegalOpcode w s) ∨
      (decode w = .reservedBits ∧ t = recordFault .reservedBits w s) ∨
      ∃ i, decode w = .command i ∧ run i s = .next t)) := by
  unfold writeCmd at h
  split at h
  · cases h; exact Or.inl ⟨‹_›, rfl⟩
  · rename_i hb
    refine Or.inr ⟨(busy_eq_false_iff s).1 (by simpa using hb), ?_⟩
    split at h
    · exact Or.inr (Or.inr ⟨_, ‹_›, h⟩)
    · cases h; exact Or.inl ⟨‹_›, rfl⟩
    · cases h; exact Or.inr (Or.inl ⟨‹_›, rfl⟩)

/-- What a host transaction can do, beside setting the response. -/
theorem hostTransact_cases {run : Instr → State → Result} {req : HostReq} {s t : State}
    (h : hostTransact run req s = .next t) :
    ∃ r, t = respond r s ∨ OperandWrite (respond r s) t ∨
      (∃ v, req = .write (regOffset .ctrl) v 0xF#4 ∧ t = writeCtrl v (respond r s)) ∨
      (∃ v, req = .write (regOffset .status) v 0xF#4 ∧ t = writeStatus v (respond r s)) ∨
      ∃ w, req = .write (regOffset .cmd) w 0xF#4 ∧ writeCmd run w (respond r s) = .next t := by
  cases req with
  | read addr =>
    unfold hostTransact at h
    simp only at h
    split at h <;> cases h <;> exact ⟨_, Or.inl rfl⟩
  | write addr v strb =>
    unfold hostTransact at h
    simp only at h
    split at h
    · rename_i ha
      simp only [Bool.and_eq_true, beq_iff_eq] at ha
      obtain ⟨_, rfl⟩ := ha
      refine ⟨⟨false, none⟩, ?_⟩
      unfold writeOffset at h
      split at h
      · rename_i r hr
        have hoff := regOffset_of_regAt hr
        rcases writeReg_cases h with h' | ⟨rfl, h'⟩ | ⟨rfl, h'⟩ | ⟨rfl, h'⟩
        · exact Or.inr (Or.inl h')
        · exact Or.inr (Or.inr (Or.inl ⟨v, by rw [hoff], h'⟩))
        · exact Or.inr (Or.inr (Or.inr (Or.inl ⟨v, by rw [hoff], h'⟩)))
        · exact Or.inr (Or.inr (Or.inr (Or.inr ⟨v, by rw [hoff], h'⟩)))
      · cases h; exact Or.inl rfl
    · cases h; exact ⟨_, Or.inl rfl⟩

/-- What a CTRL write can do (R221). -/
theorem writeCtrl_cases (v : Word) (s : State) :
    writeCtrl v s = blockReset s ∨ writeCtrl v s = { s with ieDone := v.getLsbD 2, ieErr := v.getLsbD 3 } ∨
    (s.busy = true ∧ writeCtrl v s = abortCommand { s with ieDone := v.getLsbD 2, ieErr := v.getLsbD 3 }) := by
  unfold writeCtrl
  split
  · exact Or.inl rfl
  · simp only
    split
    · rename_i hb
      simp only [Bool.and_eq_true] at hb
      exact Or.inr (Or.inr ⟨hb.2, rfl⟩)
    · exact Or.inr (Or.inl rfl)

/-- What an abort leaves (R222). -/
theorem abortCommand_busy {s : State} {cmd : Word} {l : Latched} {seq : Option RenderSeq} (h : s.engine = .busy cmd l seq) :
    abortCommand s =
      if wordOpcode cmd = 0x01#8 then
        { s with q := [], pt := unspecifiedTable s.env.draws, tableState := .none, engine := .idle, err := true,
                 errCode := .aborted, errCmd := cmd, env := { s.env with draws := s.env.draws + 1 } }
      else { s with q := [], engine := .idle, err := true, errCode := .aborted, errCmd := cmd } := by
  unfold abortCommand
  rw [h]

/-- The state with its next turn taken. -/
def dropTurn (s : State) : State := { s with env := { s.env with turns := s.env.turns.tail } }

/-- The state with its next turn and next request taken. -/
def dropRequest (s : State) : State :=
  { s with env := { s.env with turns := s.env.turns.tail, requests := s.env.requests.tail } }

/-- A step is the next turn, the engine's where none is scheduled, on the state with that turn taken. -/
theorem step_eq (s : State) : step s = anyTurn exec (s.env.turns.head?.getD .engine) (dropTurn s) := by
  unfold step scheduledStep dropTurn
  rcases hs : s.env.turns with _ | ⟨t, ts⟩
  · simp only [List.head?_nil, Option.getD_none, List.tail_nil]
    have : s = { s with env := { s.env with turns := [] } } := by rw [← hs]
    rw [← this]
  · rfl

/-- What a step can do. -/
theorem step_cases {s t : State} (h : step s = .next t) :
    (s.env.rstN = false ∧ (t = dropTurn s ∨ t = releaseReset (dropTurn s))) ∨
    (s.env.rstN = true ∧
      (t = dropTurn s ∨
       (∃ cmd l seq i, s.engine = .busy cmd l seq ∧ decode cmd = .command i ∧ exec i (dropTurn s) = .next t) ∨
       (s.env.rsp = none ∧ ∃ req, s.env.requests.head? = some req ∧ hostTransact exec req (dropRequest s) = .next t) ∨
       t = takeResponse (dropTurn s) ∨ t = sinkTransfer (dropTurn s) ∨ t = assertReset (dropTurn s))) := by
  rw [step_eq] at h
  generalize (s.env.turns.head?.getD .engine) = turn at h
  unfold anyTurn at h
  have hr : (dropTurn s).env.rstN = s.env.rstN := rfl
  rw [hr] at h
  split at h
  · rename_i hrst
    refine Or.inr ⟨hrst, ?_⟩
    cases turn with
    | engine =>
      unfold takeTurn engineTurn at h
      simp only at h
      have he : (dropTurn s).engine = s.engine := rfl
      rw [he] at h
      split at h
      · cases h; exact Or.inl rfl
      · split at h
        · exact Or.inr (Or.inl ⟨_, _, _, _, ‹_›, ‹_›, h⟩)
        · cases h
        · cases h
    | host =>
      unfold takeTurn hostTurn at h
      simp only at h
      split at h
      · rename_i req rest hrsp hreq
        refine Or.inr (Or.inr (Or.inl ⟨hrsp, req, ?_, ?_⟩))
        · have hreq' : s.env.requests = req :: rest := hreq
          rw [hreq', List.head?_cons]
        have : dropRequest s = { dropTurn s with env := { (dropTurn s).env with requests := rest } } := by
          have hreq' : s.env.requests = req :: rest := hreq
          unfold dropRequest dropTurn
          rw [hreq']
          rfl
        rw [this]
        exact h
      · cases h; exact Or.inl rfl
    | response => cases h; exact Or.inr (Or.inr (Or.inr (Or.inl rfl)))
    | sink => cases h; exact Or.inr (Or.inr (Or.inr (Or.inr (Or.inl rfl))))
    | rstAssert => cases h; exact Or.inr (Or.inr (Or.inr (Or.inr (Or.inr rfl))))
    | rstRelease => cases h; exact Or.inl rfl
  · rename_i hrst
    refine Or.inl ⟨by simpa using hrst, ?_⟩
    cases turn <;> cases h <;> first | exact Or.inl rfl | exact Or.inr rfl

end Sys2Proof.Machine
end

