-- ==== Sys2Proof/Tests/Slice0.lean ====
section
/-! SUPPORT. Tests on small states, with expected values from spec/95_test_vectors.md and the rules' own examples; and for each
statement with hypotheses a state and operands that meet them. -/

namespace Sys2Proof.Tests

open Sys2Proof Sys2Proof.Machine Sys2Proof.Statements

/-! ## Well-formedness and decoding -/

theorem test_permWrite_index_512_refused : (Instr.permWrite 512 0#8).wellFormed = false := by decide

theorem test_permRead_index_512_refused : (Instr.permRead 512).wellFormed = false := by decide

theorem test_index_511_wellFormed :
    (Instr.permWrite 511 255#8).wellFormed = true ∧ (Instr.permRead 511).wellFormed = true := by decide

/-- Each format R word, from its opcode (30_encoding.md R91, R94). -/
theorem test_decode_format_r :
    decode 0b00000000000000000000000000000000#32 = .command .nop ∧
    decode 0b00000000000000000000000000000001#32 = .command .permBuild ∧
    decode 0b00000000000000000000000000010000#32 = .command .noiseEval ∧
    decode 0b00000000000000000000000000010001#32 = .command .fbmEval ∧
    decode 0b00000000000000000000000000010010#32 = .command .intensityMap ∧
    decode 0b00000000000000000000000000100001#32 = .command .pixelEval ∧
    decode 0b00000000000000000000000000110000#32 = .command .render := by decide

/-- DATA8, 7 zeros, INDEX, OPC (R92): 0xAB, 5, 0x02, and 256, 0x03. -/
theorem test_decode_format_t :
    decode 0b10101011_0000000_000000101_00000010#32 = .command (.permWrite 5 0xAB#8) ∧
    decode 0b00000000_0000000_100000000_00000011#32 = .command (.permRead 256) := by decide

/-- 16 zeros, IMM8, OPC (R93): 150, 0x20. -/
theorem test_decode_format_i : decode 0b0000000000000000_10010110_00100000#32 = .command (.colorMap 150#8) := by decide

/-- spec/95_test_vectors.md 2.2 and 60_exceptions.md R241, R242. -/
theorem test_decode_refuses :
    decode 0x00000004#32 = .illegalOpcode ∧ decode 0xFFFFFFFF#32 = .illegalOpcode ∧
    decode 0x00000110#32 = .reservedBits ∧ decode 0x01000003#32 = .reservedBits ∧
    decode 0x00020002#32 = .reservedBits ∧ decode 0x00030002#32 = .reservedBits := by decide

theorem test_decodeTableWord :
    decodeTableWord 32 0xAB000502 = some (.permWrite 5 0xAB#8) ∧ decodeTableWord 32 0x00020002 = none := by decide

/-! ## The commands -/

/-- The next state, where there is one. -/
def after : Result → Option State
  | .next t => some t
  | .fault _ => none
  | .refused _ => none

/-- `s` with the word in flight on the operands it holds. -/
def inFlight (w : Word) (seq : Option RenderSeq) (s : State) : State := { s with engine := .busy w (latch w s) seq }

/-- The reset state with a table marked as the host's. -/
def withTable : State := { State.reset with tableState := .host }

/-- The reset state with X and Y. -/
def at2 (x y : F64) (octaves : Byte) (s : State) : State :=
  { s with xLo := x.extractLsb' 0 32, xHi := x.extractLsb' 32 32, yLo := y.extractLsb' 0 32, yHi := y.extractLsb' 32 32,
           octaves := octaves }

/-- The entries of seed 42's table that the examples look up, from the table printed in spec/95_test_vectors.md 2.1. -/
def built42 : State :=
  { State.reset with
    tableState := .built,
    pt := [(0, 104#8), (1, 89#8), (2, 155#8), (3, 1#8), (4, 39#8), (5, 36#8), (6, 128#8), (10, 148#8), (11, 18#8), (21, 66#8),
      (22, 220#8), (28, 242#8), (29, 42#8), (41, 7#8), (42, 117#8), (89, 153#8), (90, 46#8), (91, 184#8), (104, 65#8),
      (105, 63#8), (133, 47#8), (134, 226#8), (151, 109#8), (152, 123#8), (155, 198#8), (156, 35#8), (157, 161#8),
      (158, 33#8), (159, 107#8)] }

theorem test_nop_status :
    (after (exec .nop (inFlight 0x00000000#32 none State.reset))).map statusWord = some 0x00000002#32 := by decide

/-- 40_permutation_table.md R125's example. -/
theorem test_build_42 :
    (buildTable 42#64).take 8 = [104#8, 89#8, 155#8, 1#8, 39#8, 36#8, 128#8, 92#8] ∧
    (buildTable 42#64).drop 255 = [189#8, 104#8] := by decide +kernel

/-- spec/95_test_vectors.md 2.1: the first draw for seed 42 and the first exchange it selects. -/
theorem test_draw_42 :
    (splitmixNext 42#64).2 = 0xBDD732262FEB6E95#64 ∧ mulhi64 (splitmixNext 42#64).2 256 = 189 := by decide +kernel

theorem test_permWrite_zero_wraps :
    (after (exec (.permWrite 0 0xAB#8) (inFlight 0xAB000002#32 none State.reset))).map
      (fun t => (t.pt.read 0, t.pt.read 1, t.pt.read 256, t.tableState)) = some (0xAB#8, 1#8, 0xAB#8, .host) := by decide

theorem test_permWrite_128 :
    (after (exec (.permWrite 128 0x37#8) (inFlight 0x37008002#32 none State.reset))).map
      (fun t => (t.pt.read 128, t.pt.read 256)) = some (0x37#8, 0#8) := by decide

theorem test_permRead_200 :
    (after (exec (.permRead 200) (inFlight 0x0000C803#32 none State.reset))).map (fun t => (t.permData, t.done)) =
      some (200#8, true) := by decide

theorem test_permRead_badIndex :
    (after (exec (.permRead 511) State.reset)).map (fun t => (t.errCode, t.errCmd, t.busy)) =
      some (.badIndex, 0x0001FF03#32, false) := by decide

/-- 41_gradient_noise.md R147's example: X = 10.5, Y = 3.25. -/
theorem test_noiseEval_42 :
    (after (exec .noiseEval (inFlight 0x00000010#32 none (at2 0x4025000000000000#64 0x400A000000000000#64 0#8 built42)))).map
      State.result = some 0xBFD9A80000000000#64 := by decide +kernel

/-- 60_exceptions.md R244's example. -/
theorem test_noiseEval_noTable :
    (after (exec .noiseEval State.reset)).map (fun t => (t.errCode, t.err, t.lastOpc)) = some (.noTable, true, 0x10#8) := by
  decide

/-- 42_fbm.md R173's example: X = 100, Y = 37, two octaves. -/
theorem test_fbmEval_42 :
    (after (exec .fbmEval (inFlight 0x00000011#32 none (at2 0x4059000000000000#64 0x4042800000000000#64 2#8 built42)))).map
      State.result = some 0xBFD5778F0BAAA4AA#64 := by decide +kernel

/-- 60_exceptions.md R245: X is +inf. -/
theorem test_fbmEval_nonFinite :
    (after (exec .fbmEval (at2 0x7FF0000000000000#64 0#64 1#8 withTable))).map (fun t => t.errCode) = some .nonFinite := by
  decide +kernel

/-- 43_color_mapper.md R186: X = 0 gives 128. -/
theorem test_intensityMap_zero :
    (after (exec .intensityMap (inFlight 0x00000012#32 none State.reset))).map (fun t => t.intensity) = some 128#8 := by
  decide +kernel

/-- 43_color_mapper.md R181 and R186: 2/255 rounds away from zero to 129, 1e300 saturates, -1.01 wraps to 255. -/
theorem test_intensity_corners :
    intensityUnder .saturate 0x3F80101010101010#64 = 129#8 ∧ intensityUnder .saturate 0x7E37E43C8800759C#64 = 255#8 ∧
    intensityUnder .wrap 0xBFF028F5C28F5C29#64 = 255#8 := by decide +kernel

/-- 43_color_mapper.md R187's band edges. -/
theorem test_colorMap_edges :
    [100#8, 101#8, 140#8, 141#8, 210#8, 211#8].map (fun k => packPixel (colorOf k)) =
      [0xFFFFA543#32, 0xFF2C65A1#32, 0xFF2C8CC8#32, 0xFF24BA5C#32, 0xFF24FF5C#32, 0xFFFFF9F4#32] := by decide

theorem test_colorMap_150 :
    (after (exec (.colorMap 150#8) (inFlight 0x00009620#32 none State.reset))).map (fun t => t.color) =
      some 0xFF24C35C#32 := by decide

/-- 43_color_mapper.md R188's example: X = Y = 250, four octaves. -/
theorem test_pixelEval_42 :
    (after (exec .pixelEval (inFlight 0x00000021#32 none (at2 0x406F400000000000#64 0x406F400000000000#64 4#8 built42)))).map
      (fun t => (t.result, t.intensity, t.color)) = some (0x3FCABF2000000000#64, 154#8, 0xFF24C75C#32) := by decide +kernel

/-- 44_render.md R200's example: the first word of the frame, and the first of row 1 (spec/95_test_vectors.md S7). -/
theorem test_render_words :
    pixelWord built42.pt 1#8 0 0 = 0xFF2C80BC#32 ∧ pixelWord built42.pt 1#8 0 1 = 0xFF2C7FBB#32 := by decide +kernel

theorem test_render_accepts :
    (after (exec .render { withTable with pixelCount := 7#32 })).map (fun t => (t.pixelCount, t.busy, t.lastOpc)) =
      some (0#32, true, 0x30#8) := by decide

/-! ## States that meet the hypotheses of the statements -/

/-- The host's next transaction is a CMD write of `w`. -/
def hostWrites (w : Word) (s : State) : State := s.withFetchWord 32 w.toNat

/-- `s` with the engine's turn next. -/
def engineNext (s : State) : State := { s with env := { s.env with turns := [.engine] } }

theorem witness_DecodeOfEncode :
    (Instr.permWrite 511 255#8).wellFormed = true ∧ (Instr.permRead 0).wellFormed = true ∧ Instr.render.wellFormed = true := by
  decide

theorem witness_EncodeOfDecode : decode 0xFF01FF02#32 = .command (.permWrite 511 255#8) := by decide

theorem witness_HostTurnRunsDecodedCommand :
    let s := hostWrites 0x00000010#32 State.reset
    s.env.rstN = true ∧ s.env.rsp = none ∧ s.engine = .idle ∧ decode 0x00000010#32 = .command .noiseEval ∧
      s.env.turns = [.host] ∧ s.env.requests = [.write 0x10#8 0x00000010#32 0xF#4] := by decide

theorem witness_EngineTurnRunsCommandInFlight :
    let s := inFlight 0x00000030#32 (some ⟨0, 0, 0⟩) withTable
    s.env.rstN = true ∧ s.engine = .busy 0x00000030#32 (latch 0x00000030#32 withTable) (some ⟨0, 0, 0⟩) ∧
      decode 0x00000030#32 = .command .render ∧ s.env.turns = [] ∧ (engineNext s).env.turns.head? = some .engine := by decide

theorem witness_FetchedWordRunsNext : (Instr.permRead 511).wellFormed = true := by decide

/-- 30_encoding.md R104: `perm.load`'s waits may make different numbers of reads of STATUS, each at least one. -/
theorem test_permLoad_waits :
    permLoadReqs 254 [(7, 1), (9, 0)] = some [wrReq .cmd 0x0700FE02#32, rdReq .status, rdReq .status,
      wrReq .cmd 0x0900FF02#32, rdReq .status] := by decide

theorem witness_AcceptChecksInOrder :
    State.reset.engine = .idle ∧ faultOf 0x00000004#32 State.reset = some .illegalOpcode ∧
      faultOf 0x00000110#32 State.reset = some .reservedBits ∧ faultOf 0x00010002#32 State.reset = some .badIndex ∧
      faultOf 0x0000FF02#32 State.reset = none ∧ faultOf 0x00010103#32 State.reset = some .badIndex ∧
      faultOf 0x00010003#32 State.reset = none ∧ faultOf 0x00000030#32 State.reset = some .noTable ∧
      faultOf 0x00000030#32 withTable = none := by decide

theorem witness_AcceptChecksInOrder_nonFinite :
    faultOf 0x00000010#32 (at2 0#64 0x7FF0000000000000#64 0#8 withTable) = some .nonFinite ∧
      faultOf 0x00000021#32 (at2 0x7FEAB36D48E1ACF0#64 0#64 9#8 withTable) = some .nonFinite ∧
      faultOf 0x00000012#32 (at2 0x7FF0000000000001#64 0#64 0#8 State.reset) = some .nonFinite := by decide +kernel

/-- The agents with one host turn and this write to issue. -/
def hostTurnOf (addr : BitVec 8) (v : Word) : Env :=
  { Env.initial with turns := [.host], requests := [.write addr v 0xF#4] }

theorem witness_OverrunOnlySetsOvr :
    let s : State := { inFlight 0x00000000#32 none State.reset with env := hostTurnOf 0x10#8 0x00000001#32 }
    s.env.rstN = true ∧ s.env.rsp = none ∧ s.busy = true ∧ s.env.turns = [.host] ∧
      s.env.requests = [.write 0x10#8 0x00000001#32 0xF#4] := by decide

/-- A STATUS write and a SOFT_RESET each clear OVR. -/
theorem witness_OverrunOnlySetsOvr_cleared :
    (∃ t, step { State.reset with ovr := true, env := hostTurnOf 0x0C#8 0x00000008#32 } = .next t ∧ t.ovr = false) ∧
    (∃ t, step { State.reset with ovr := true, env := hostTurnOf 0x08#8 0x00000001#32 } = .next t ∧ t.ovr = false) :=
  ⟨⟨_, rfl, rfl⟩, ⟨_, rfl, rfl⟩⟩

theorem witness_AcceptChecksInOrder_busy : (inFlight 0x00000000#32 none State.reset).busy = true := by decide

theorem witness_EngineReadsOnlyLatchedOperands :
    (inFlight 0x00000012#32 none State.reset).busy = true ∧
      ∃ t, exec .intensityMap (inFlight 0x00000012#32 none State.reset) = .next t := ⟨by decide, _, rfl⟩

/-- The states of the completion statements of the commands without a field, and of RENDER's. -/
theorem witness_completions (w : Word) : ∃ l seq, (inFlight w none State.reset).engine = .busy w l seq := ⟨_, _, rfl⟩

theorem witness_NopCompletes : ∃ l seq, (inFlight 0x00000000#32 none State.reset).engine = .busy 0x00000000#32 l seq :=
  witness_completions _

theorem witness_PermBuildCompletes : ∃ l seq, (inFlight 0x00000001#32 none State.reset).engine = .busy 0x00000001#32 l seq :=
  witness_completions _

theorem witness_PermWriteCompletes_0 :
    let s := inFlight 0xAB000002#32 none State.reset
    s.engine = .busy (encode (.permWrite 0 0xAB#8)) (latch 0xAB000002#32 State.reset) none ∧
      (latch 0xAB000002#32 State.reset).index = 0 ∧ (latch 0xAB000002#32 State.reset).data8 = 0xAB#8 ∧ s.pt.wf = true := by
  decide

theorem witness_PermWriteCompletes_255 :
    let s := inFlight 0x0000FF02#32 none State.reset
    s.engine = .busy (encode (.permWrite 255 0#8)) (latch 0x0000FF02#32 State.reset) none ∧
      (latch 0x0000FF02#32 State.reset).index = 255 ∧ (latch 0x0000FF02#32 State.reset).data8 = 0#8 ∧ s.pt.wf = true := by
  decide

theorem witness_PermReadCompletes :
    (inFlight 0x00010003#32 none State.reset).engine =
        .busy (encode (.permRead 256)) (latch 0x00010003#32 State.reset) none ∧
      (latch 0x00010003#32 State.reset).index = 256 := by decide

theorem witness_NoiseEvalCompletes : ∃ l seq, (inFlight 0x00000010#32 none built42).engine = .busy 0x00000010#32 l seq :=
  ⟨_, _, rfl⟩

theorem witness_FbmEvalCompletes : ∃ l seq, (inFlight 0x00000011#32 none built42).engine = .busy 0x00000011#32 l seq :=
  ⟨_, _, rfl⟩

theorem witness_IntensityMapCompletes :
    (∃ l seq, (inFlight 0x00000012#32 none State.reset).engine = .busy 0x00000012#32 l seq) ∧
      f64IsFinite (latch 0x00000012#32 State.reset).x = true := ⟨witness_completions _, by decide⟩

theorem witness_ColorMapCompletes :
    [0#8, 100#8, 101#8, 140#8, 141#8, 210#8, 211#8, 255#8].all (fun k =>
      let w := encode (.colorMap k)
      decide ((inFlight w none State.reset).engine = .busy w (latch w State.reset) none) &&
        decide ((latch w State.reset).imm8 = k)) = true := by decide

theorem witness_PixelEvalCompletes :
    (∃ l seq, (inFlight 0x00000021#32 none built42).engine = .busy 0x00000021#32 l seq) ∧
      fbmOperandsOk (latch 0x00000021#32 built42).x (latch 0x00000021#32 built42).y
        (latch 0x00000021#32 built42).octaves = true := ⟨⟨_, _, rfl⟩, by decide +kernel⟩

/-- A 4 by 1 frame in flight, with so many pixels emitted and this queue. -/
def rendering (produced : Nat) (q : List PixEntry) : State :=
  { inFlight 0x00000030#32 (some ⟨produced, 0, produced⟩) { withTable with dims := 0x00010004#32 } with q := q }

theorem witness_RenderProducesNextPixel : (rendering 3 []).q.length < Config.pixFifoDepth ∧
    (latch 0x00000030#32 { withTable with dims := 0x00010004#32 }).width.toNat *
      (latch 0x00000030#32 { withTable with dims := 0x00010004#32 }).height.toNat = 4 :=
  ⟨Nat.succ_pos _, by decide⟩

theorem witness_RenderHoldsOnFullQueue (e : PixEntry) :
    (rendering 3 (List.replicate Config.pixFifoDepth e)).q.length = Config.pixFifoDepth ∧ (rendering 4 [e]).q ≠ [] ∧
      (latch 0x00000030#32 { withTable with dims := 0x00010004#32 }).width.toNat *
        (latch 0x00000030#32 { withTable with dims := 0x00010004#32 }).height.toNat = 4 :=
  ⟨List.length_replicate, List.cons_ne_nil _ _, by decide⟩

theorem witness_RenderCompletes :
    (rendering 4 []).engine = .busy 0x00000030#32 (latch 0x00000030#32 { withTable with dims := 0x00010004#32 })
      (some ⟨4, 0, 4⟩) ∧ (rendering 4 []).q = [] := by decide

theorem witness_RenderOfZeroSize :
    withTable.engine = .idle ∧ withTable.q = [] ∧ withTable.tableState ≠ .none ∧ State.reset.tableState = .none ∧
      ({ withTable with dims := 0xFFFF0000#32 } : State).dims.toNat % 2 ^ 16 = 0 ∧
      ({ withTable with dims := 0x0000FFFF#32 } : State).dims.toNat / 2 ^ 16 = 0 := by decide

theorem witness_CtrlWriteActs :
    (0xF#32).getLsbD 0 = true ∧ (0xC#32).getLsbD 0 = false ∧ (0xC#32).getLsbD 1 = false ∧ (0x2#32).getLsbD 0 = false ∧
      (0x2#32).getLsbD 1 = true ∧ State.reset.busy = false ∧ (inFlight 0x00000030#32 none State.reset).busy = true := by decide

theorem witness_AbortEndsCommand :
    (inFlight 0x00000001#32 none State.reset).busy = true ∧ (0x00000001#32).toNat % 2 ^ 8 = 0x01 ∧
      (rendering 2 []).busy = true ∧ (0x00000030#32).toNat % 2 ^ 8 ≠ 0x01 := by decide

theorem witness_MalformedAccessHasNoEffect :
    (0x01#8).toNat % 4 ≠ 0 ∧ (0xFF#8).toNat % 4 ≠ 0 ∧ (0x0#4) ≠ 0xF#4 ∧ (0x7#4) ≠ 0xF#4 := by decide

theorem witness_ReservedOffsetsReadZero :
    (0x54#8).toNat % 4 = 0 ∧ 0x54 ≤ (0x54#8).toNat ∧ (0xFC#8).toNat % 4 = 0 ∧ 0x54 ≤ (0xFC#8).toNat := by decide

/-- The first, the last and a result register have their rows. -/
theorem witness_ReadsHaveNoSideEffect (s : State) :
    (.id, 0x00#8, 0x504E3244#32) ∈ registerRows s ∧ (.resultHi, 0x3C#8, s.resultHi) ∈ registerRows s ∧
      (.errCmd, 0x50#8, s.errCmd) ∈ registerRows s := by simp [registerRows]

theorem witness_ReadOnlyRegistersIgnoreWrites : .id ∈ readOnlyRegs ∧ .errCmd ∈ readOnlyRegs := by decide

theorem witness_OperandWriteReadsBack : .seedLo ∈ operandRegs ∧ .octaves ∈ operandRegs := by decide

theorem witness_ResetFromEveryState :
    let s : State := { rendering 2 [] with env := { Env.initial with turns := [.rstAssert] } }
    let r : State := { rendering 2 [] with env := hostTurnOf 0x08#8 0xF#32 }
    s.env.rstN = true ∧ s.env.turns = [.rstAssert] ∧ r.env.rstN = true ∧ r.env.turns = [.host] ∧ r.env.rsp = none ∧
      (0xF#32).getLsbD 0 = true ∧ r.env.requests = [.write 0x08#8 0xF#32 0xF#4] := by decide

theorem witness_HeldResetTakesNoStep :
    let s : State := { State.reset with env := { Env.initial with rstN := false, turns := [.host, .rstRelease] } }
    let r : State := { State.reset with env := { Env.initial with rstN := false, turns := [.rstRelease, .host] } }
    s.env.rstN = false ∧ s.env.turns.head? ≠ some .rstRelease ∧ r.env.rstN = false ∧ r.env.turns = [.rstRelease, .host] := by
  decide

/-- 1.0 and 2^-53: a tie that goes to the even 1.0. The largest finite value and 2^970 overflow; with less it stays. -/
theorem witness_AdditionRoundsToNearestEven :
    f64IsFinite f64OneVal = true ∧ f64IsFinite 0x3CA0000000000000#64 = true ∧
      f64Add f64OneVal 0x3CA0000000000000#64 = f64OneVal ∧ f64IsFinite 0x7FEFFFFFFFFFFFFF#64 = true ∧
      f64Add 0x7FEFFFFFFFFFFFFF#64 0x7C90000000000000#64 = 0x7FF0000000000000#64 ∧
      f64Add 0x7FEFFFFFFFFFFFFF#64 0x7C8FFFFFFFFFFFFF#64 = 0x7FEFFFFFFFFFFFFF#64 := by
  decide +kernel

/-- Two sums of zero: opposite signs give +0.0, two negative zeros -0.0. -/
theorem witness_AdditionRoundsToNearestEven_zero :
    f64Units f64OneVal + f64Units 0xBFF0000000000000#64 = 0 ∧ f64Add f64OneVal 0xBFF0000000000000#64 = 0#64 ∧
      f64Units 0x8000000000000000#64 + f64Units 0x8000000000000000#64 = 0 := by decide +kernel

/-- The smallest subnormal times 0.5: a tie that goes to zero. Twice the largest finite value overflows. -/
theorem witness_MultiplicationRoundsToNearestEven :
    f64IsFinite 1#64 = true ∧ f64IsFinite f64Half = true ∧ f64Mul 1#64 f64Half = 0#64 ∧
      f64IsFinite 0xFFEFFFFFFFFFFFFF#64 = true ∧ f64IsFinite f64Two = true ∧
      f64Mul 0xFFEFFFFFFFFFFFFF#64 f64Two = 0xFFF0000000000000#64 := by decide +kernel

/-- 1/10 is 0x3FB999999999999A. The largest finite value over 0.5 overflows. -/
theorem witness_DivisionRoundsToNearestEven :
    f64IsFinite f64OneVal = true ∧ f64IsFinite f64Ten = true ∧ f64Units f64Ten ≠ 0 ∧
      f64Div f64OneVal f64Ten = 0x3FB999999999999A#64 ∧ f64Units f64Half ≠ 0 ∧
      f64Div 0x7FEFFFFFFFFFFFFF#64 f64Half = 0x7FF0000000000000#64 := by decide +kernel

/-- -1e-20: the offset rounds up to exactly 1.0 (90_conflicts.md C3). -/
theorem witness_LatticeCellIsFloorAndOffset :
    f64IsFinite 0xBBC79CA10C924223#64 = true ∧ latticeCell 0xBBC79CA10C924223#64 = (255, f64OneVal) := by decide +kernel

theorem witness_CornerHashesWrap : State.reset.pt.read 256 = State.reset.pt.read 0 := by decide

theorem witness_NoiseIsFinite :
    f64IsFinite 0x7FEFFFFFFFFFFFFF#64 = true ∧ f64IsFinite 0xFFEFFFFFFFFFFFFF#64 = true := by decide

/-- spec/95_test_vectors.md 2.7: 1.5e308 is accepted with 8 octaves and not with 9. -/
theorem witness_FbmIsFinite :
    fbmOperandsOk 0x7FEAB36D48E1ACF0#64 0#64 8#8 = true ∧ fbmOperandsOk 0#64 0#64 0#8 = true := by
  decide +kernel

theorem witness_OctaveFrequencyPatterns : (0 : Nat) ≤ 254 ∧ (254 : Nat) ≤ 254 := by decide

theorem witness_FbmOfFewOctaves : f64IsFinite (f64Mul f64OneVal freq0) = true := by decide +kernel

theorem witness_LastOctaveDecidesOperandCheck :
    f64IsFinite (f64Mul f64OneVal (octaveFreq 0)) = true ∧ 0 < (1#8).toNat := by decide +kernel

/-- 127.5 and -0.5: ties. -/
theorem witness_RoundHalfAwayFromZero :
    f64IsFinite 0x405FE00000000000#64 = true ∧ roundHalfAway 0x405FE00000000000#64 = .int 128 ∧
      roundHalfAway 0xBFE0000000000000#64 = .int (-1) := by decide +kernel

theorem witness_ColorBandsNeverWrap :
    (100#8).toNat ≤ 100 ∧ 101 ≤ (101#8).toNat ∧ (140#8).toNat ≤ 140 ∧ 141 ≤ (141#8).toNat ∧ (210#8).toNat ≤ 210 ∧
      211 ≤ (211#8).toNat := by decide

/-- A state with the invariant: an idle machine with a table. -/
theorem inv_withTable : Inv withTable :=
  ⟨⟨rfl, by decide⟩, fun h => (by cases h), trivial, ⟨Nat.zero_le _, rfl⟩, fun h => (by cases h)⟩

/-- A completion: the statements about every step hold of a step that does something. -/
theorem witness_steps :
    ∃ t, step (inFlight 0x00000000#32 none State.reset) = .next t ∧ t.done = true ∧ t.engine = .idle := ⟨_, rfl, rfl, rfl⟩

theorem witness_StepKeepsInv : ∃ s t, Inv s ∧ step s = .next t := ⟨_, _, inv_withTable, rfl⟩

theorem witness_StepKeepsTable : ∃ s t, TableOk s ∧ step s = .next t := ⟨_, _, inv_withTable.table, rfl⟩

theorem witness_StepNeverStops : ∃ s, Inv s := ⟨_, inv_withTable⟩

theorem witness_TableChangesOnlyByTableCommands :
    ∃ t, step (inFlight 0xAB000002#32 none State.reset) = .next t ∧ t.pt.read 256 = 0xAB#8 := ⟨_, rfl, by decide⟩

theorem witness_ErrCmdWrittenOnlyByFaults :
    ∃ t, step (hostWrites 0x00000004#32 State.reset) = .next t ∧ t.errCmd = 0x00000004#32 := ⟨_, rfl, rfl⟩

theorem witness_PixelCountCountsTransfers :
    let s : State := { rendering 1 [⟨0xFF2C80BC#32, false⟩] with env := { Env.initial with turns := [.sink] } }
    ∃ t, step s = .next t ∧ t.pixelCount = s.pixelCount + 1#32 := ⟨_, rfl, rfl⟩

theorem witness_ResultsHoldWhileBusy :
    let s : State := { rendering 1 [] with env := hostTurnOf 0x10#8 0x00000010#32 }
    ∃ t, step s = .next t ∧ s.busy = true ∧ t.busy = true ∧ t.ovr = true := ⟨_, rfl, rfl, rfl, rfl⟩

/-- PERM_READ of entry 256 in flight, the engine's turn next. -/
theorem witness_EngineTurnCompletesCommand :
    let s := engineNext (inFlight 0x00010003#32 none State.reset)
    Inv s ∧ s.engine = .busy 0x00010003#32 (latch 0x00010003#32 State.reset) none ∧ s.env.rstN = true ∧
      s.env.turns.head? = some .engine ∧ (0x00010003#32).toNat % 2 ^ 8 ≠ 0x30 :=
  ⟨⟨⟨rfl, by decide⟩, fun h => (by cases h),
      ⟨.permRead 256, by decide, ⟨rfl, rfl, rfl⟩, Nat.le_refl _, by decide⟩, ⟨Nat.zero_le _, rfl⟩, fun h => (by cases h)⟩,
    rfl, rfl, rfl, by decide⟩

/-- A 2 by 1 frame just accepted, and its schedule. -/
theorem witness_RenderDeliversFrame :
    let d : State := { withTable with dims := 0x00010002#32 }
    let s : State := { inFlight 0x00000030#32 (some ⟨0, 0, 0⟩) d with
                       env := { Env.initial with turns := [.engine, .sink, .engine, .sink, .engine] } }
    s.engine = .busy 0x00000030#32 (latch 0x00000030#32 d) (some ⟨0, 0, 0⟩) ∧ s.q = [] ∧ s.pixelCount = 0#32 ∧
      s.env.rstN = true ∧
      s.env.turns = (List.replicate (frameSize (latch 0x00000030#32 d)) [Turn.engine, Turn.sink]).flatten ++ [Turn.engine] := by
  decide

end Sys2Proof.Tests
end

section
/-! O37 to O39: a binary64 sum, product and quotient of finite values is the exact value rounded once (00_scope.md R13). All
three operations pack a sign with `f64RoundMag` of a magnitude, so one lemma, `roundedOnce_pack_round`, carries the rounding
facts about magnitudes over to signed values; each operation then only says which sign and magnitude its exact value has. -/

namespace Sys2Proof.Rounding

open Sys2Proof Sys2Proof.Machine Sys2Proof.Statements

/-! ## Integers as a sign and a magnitude -/

/-- The integer with this sign and this magnitude. -/
def signed (neg : Bool) (m : Nat) : Int := if neg then -(m : Int) else m

@[simp] theorem signed_false (m : Nat) : signed false m = m := rfl

@[simp] theorem signed_true (m : Nat) : signed true m = -(m : Int) := rfl

@[simp] theorem signed_zero (neg : Bool) : signed neg 0 = 0 := by cases neg <;> rfl

@[simp] theorem abs_signed (neg : Bool) (m : Nat) : |signed neg m| = m := by cases neg <;> simp

theorem signed_natAbs (n : Int) : signed (decide (n < 0)) n.natAbs = n := by
  by_cases h : n < 0
  · rw [decide_eq_true h, signed_true]; omega
  · rw [decide_eq_false h, signed_false]; omega

theorem signed_lt_zero_iff (neg : Bool) {m : Nat} (hm : 0 < m) : signed neg m < 0 ↔ neg = true := by
  cases neg <;> simp [hm]

theorem signed_mul_signed (s t : Bool) (m n : Nat) : signed s m * signed t n = signed (s != t) (m * n) := by
  cases s <;> cases t <;> simp

theorem sign_signed (neg : Bool) {m : Nat} (hm : 0 < m) : (signed neg m).sign = signed neg 1 := by
  cases neg <;> simp [hm]

/-- Two values of one sign are as far apart as their magnitudes. -/
theorem abs_signed_mul_sub_signed (neg : Bool) (m n den : Nat) :
    |signed neg m * den - signed neg n| = |(m * den : Int) - n| := by
  cases neg
  · rfl
  · rw [signed_true, signed_true, abs_sub_comm (m * den : Int)]
    congr 1
    ring

/-- Two values of opposite signs are their magnitudes' sum apart. -/
theorem abs_signed_mul_sub_signed_of_ne {s t : Bool} (h : s ≠ t) (m n den : Nat) :
    |signed s m * den - signed t n| = m * den + n := by
  obtain rfl : t = !s := Bool.eq_not_of_ne h.symm
  have habs : |(m * den + n : Int)| = m * den + n := abs_of_nonneg (by positivity)
  cases s
  · rw [Bool.not_false, signed_true, signed_false, sub_neg_eq_add, habs]
  · rw [Bool.not_true, signed_true, signed_false, neg_mul, ← neg_add', abs_neg, habs]

theorem f64Units_eq_signed (a : F64) : f64Units a = signed (f64Sign a) (f64Mag a) := rfl

theorem f64Units_pack_eq_signed (neg : Bool) {mag : Nat} (h : mag < 2 ^ 63) :
    f64Units (f64Pack neg mag) = signed neg (magUnits mag) := f64Units_pack neg mag h

/-! ## Rounding a signed value -/

/-- Any finite value `c` is at least as far from a value of sign `neg` as some value of that same sign, and strictly farther
unless it is that value: a value of the other sign is beaten by zero. -/
theorem exists_pattern_as_near (neg : Bool) (num den : Nat) (hden : 0 < den) (c : F64) :
    ∃ p, |(magUnits p * den : Int) - num| ≤ |f64Units c * den - signed neg num| ∧
      (|(magUnits p * den : Int) - num| = |f64Units c * den - signed neg num| → f64Units c = signed neg (magUnits p)) := by
  rw [f64Units_eq_signed, f64Mag_eq]
  by_cases hs : f64Sign c = neg
  · rw [hs, abs_signed_mul_sub_signed]
    exact ⟨magPattern c, le_rfl, fun _ => rfl⟩
  · rw [abs_signed_mul_sub_signed_of_ne hs]
    have hzero : |(magUnits 0 * den : Int) - num| = num := by simp
    refine ⟨0, ?_, fun heq => ?_⟩
    · rw [hzero]
      exact_mod_cast Nat.le_add_left _ _
    · have hmul : magUnits (magPattern c) * den = 0 := by
        rw [hzero] at heq
        exact_mod_cast right_eq_add.1 heq
      rw [(Nat.mul_eq_zero.1 hmul).resolve_right hden.ne', magUnits_zero, signed_zero, signed_zero]

/-- The fraction of a packed value has the parity of its magnitude pattern. -/
theorem f64Frac_pack_mod_two (neg : Bool) {mag : Nat} (h : mag < 2 ^ 63) : f64Frac (f64Pack neg mag) % 2 = mag % 2 := by
  rw [f64Frac_eq, magPattern_pack neg mag h]
  omega

/-- Where the rounded magnitude is finite, the packed value is nearest among the finite values of either sign. -/
theorem nearestEven_pack_round (neg : Bool) (num den : Nat) (hden : 0 < den) (hfin : f64RoundMag num den < f64InfMag) :
    NearestEven (f64Pack neg (f64RoundMag num den)) (signed neg num) den := by
  intro c _
  obtain ⟨p, hle, heq⟩ := exists_pattern_as_near neg num den hden c
  have hnear := f64RoundMag_nearest num den p hden hfin
  rw [f64Units_pack_eq_signed neg (roundMag_lt num den), abs_signed_mul_sub_signed,
    f64Frac_pack_mod_two neg (roundMag_lt num den)]
  refine ⟨hnear.trans hle, fun hne htie => ?_⟩
  have hp : |(magUnits p * den : Int) - num| = |f64Units c * den - signed neg num| :=
    le_antisymm hle (htie ▸ hnear)
  have hpne : p ≠ f64RoundMag num den := by
    rintro rfl
    exact hne (heq hp)
  exact f64RoundMag_tie_even num den p hden hfin hpne (htie.trans hp.symm)

theorem f64One_eq : f64One = 2 ^ 1074 := by unfold f64One; rfl

theorem overflowUnits_eq : overflowUnits = (2 ^ 1024 - 2 ^ 970) * f64One := by
  rw [f64One_eq]
  unfold overflowUnits
  rfl

/-- The statement's overflow bound is the one at which `f64RoundMag` answers the infinity. -/
theorem abs_signed_lt_overflow_iff (neg : Bool) (num den : Nat) (hden : 0 < den) :
    |signed neg num| < overflowUnits * den ↔ f64RoundMag num den < f64InfMag := by
  rw [abs_signed, f64RoundMag_finite_iff num den hden, ← overflowUnits_eq]
  exact_mod_cast Iff.rfl

theorem f64RoundMag_zero {den : Nat} (hden : 0 < den) : f64RoundMag 0 den = 0 := by
  have h := f64RoundMag_exact den 0 hden (Nat.zero_le _)
  rwa [magUnits_zero, Nat.zero_mul] at h

theorem f64Pack_inf (neg : Bool) :
    f64Pack neg f64InfMag = if neg then 0xFFF0000000000000#64 else 0x7FF0000000000000#64 := by
  cases neg <;> decide

/-- A sign packed with a rounded magnitude is the signed exact value rounded once. -/
theorem roundedOnce_pack_round (neg : Bool) (num den : Nat) (hden : 0 < den) :
    RoundedOnce (f64Pack neg (f64RoundMag num den)) (signed neg num) den := by
  unfold RoundedOnce
  split
  case isTrue hlt =>
    have hfin := (abs_signed_lt_overflow_iff neg num den hden).1 hlt
    exact ⟨(f64IsFinite_iff _).2 (by rwa [magPattern_pack neg _ (roundMag_lt num den)]),
      nearestEven_pack_round neg num den hden hfin⟩
  case isFalse hge =>
    rw [abs_signed_lt_overflow_iff neg num den hden] at hge
    have hinf : f64RoundMag num den = f64InfMag := le_antisymm (f64RoundMag_le_inf num den) (Nat.le_of_not_lt hge)
    have hpos : 0 < num := by
      refine Nat.pos_of_ne_zero fun h0 => hge ?_
      rw [h0, f64RoundMag_zero hden]
      decide
    simp only [hinf, f64Pack_inf, signed_lt_zero_iff neg hpos]

/-! ## The operations -/

theorem f64Pack_zero (neg : Bool) :
    f64Pack neg 0 = if neg then 0x8000000000000000#64 else 0x0000000000000000#64 := by
  cases neg <;> decide

/-- Settles O37: away from a zero sum by `roundedOnce_pack_round`; the zero sum's sign is the one `f64Add` packs. -/
theorem additionRoundsToNearestEven : Obligations.AdditionRoundsToNearestEven := by
  unfold Obligations.AdditionRoundsToNearestEven
  intro a b ha hb
  rw [f64Add_finite ha hb]
  by_cases hu : f64Units a + f64Units b = 0
  · rw [if_pos hu, hu]
    refine ⟨?_, fun _ => ?_⟩
    · have h := roundedOnce_pack_round (f64Sign a && f64Sign b) 0 1 one_pos
      rwa [f64RoundMag_zero one_pos, signed_zero] at h
    · simp only [f64Pack_zero, Bool.and_eq_true]
  · rw [if_neg hu]
    refine ⟨?_, fun h0 => absurd h0 hu⟩
    have h := roundedOnce_pack_round (decide (f64Units a + f64Units b < 0)) (f64Units a + f64Units b).natAbs 1 one_pos
    rwa [signed_natAbs] at h

/-- Settles O38: `f64Mul` packs the product's sign with its rounded magnitude, over 2^1074 because both factors are in units. -/
theorem multiplicationRoundsToNearestEven : Obligations.MultiplicationRoundsToNearestEven := by
  unfold Obligations.MultiplicationRoundsToNearestEven
  intro a b ha hb
  rw [f64Mul_finite ha hb, f64Units_eq_signed, f64Units_eq_signed, signed_mul_signed, ← f64One_eq,
    f64Sign_pack _ _ (roundMag_lt _ _), bne_iff_ne]
  exact ⟨roundedOnce_pack_round _ _ _ f64One_pos, Iff.rfl⟩

/-- The exact quotient's numerator, with the divisor's sign moved into it. -/
theorem quotient_numerator_eq_signed (a b : F64) (hb : 0 < f64Mag b) :
    f64Units a * 2 ^ 1074 * (f64Units b).sign = signed (f64Sign a != f64Sign b) (f64Mag a * f64One) := by
  have hOne : (2 ^ 1074 : Int) = signed false f64One := by
    rw [signed_false, f64One_eq, Nat.cast_pow, Nat.cast_ofNat]
  rw [hOne, f64Units_eq_signed, f64Units_eq_signed, sign_signed _ hb, signed_mul_signed, signed_mul_signed, Bool.bne_false,
    Nat.mul_one]

/-- Settles O39: `f64Div` packs the quotient's sign with its rounded magnitude. -/
theorem divisionRoundsToNearestEven : Obligations.DivisionRoundsToNearestEven := by
  unfold Obligations.DivisionRoundsToNearestEven
  intro a b ha hb hb0
  have hmag : 0 < f64Mag b := by
    rw [← f64Units_natAbs]
    exact Int.natAbs_pos.2 hb0
  rw [f64Div_finite ha hb hmag.ne', quotient_numerator_eq_signed a b hmag, f64Units_natAbs,
    f64Sign_pack _ _ (roundMag_lt _ _), bne_iff_ne]
  exact ⟨roundedOnce_pack_round _ _ _ hmag, Iff.rfl⟩

end Sys2Proof.Rounding
end

section
/-! A word that decodes is the word of its command (30_encoding.md R90 to R97): acceptance keeps the word the host wrote. -/

namespace Sys2Proof.StepRules

open Sys2Proof Sys2Proof.Machine

/-- Bits 7:0 are the opcode, and under a clear format R mask there are no others (R91). -/
theorem formatR_wordOpcode {w : Word} (h : w &&& 0xFFFFFF00#32 = 0#32) : formatR (wordOpcode w) = w := by
  apply BitVec.eq_of_getLsbD_eq
  intro k hk
  have hmask : ∀ k < 32, 8 ≤ k → (0xFFFFFF00#32).getLsbD k = true := by decide
  by_cases h8 : k < 8
  · simp [formatR, wordOpcode, hk, h8]
  · simpa [formatR, wordOpcode, hk, h8] using getLsbD_of_masked h k (hmask k hk (by omega))

/-- A format T word is its three fields where bits 23:17 are 0 (R92). -/
theorem formatT_fields {w : Word} (h : w &&& 0x00FE0000#32 = 0#32) :
    formatT (wordOpcode w) (w.extractLsb' 8 9) (w.extractLsb' 24 8) = w := by
  apply BitVec.eq_of_getLsbD_eq
  intro k hk
  have hmask : ∀ k < 24, 17 ≤ k → (0x00FE0000#32).getLsbD k = true := by decide
  by_cases h8 : k < 8
  · simp [formatT, wordOpcode, hk, h8, show k < 24 by omega]
  by_cases h17 : k < 17
  · simp [formatT, wordOpcode, hk, h8, show k < 24 by omega, show k - 8 < 9 by omega, show 8 + (k - 8) = k by omega]
  by_cases h24 : k < 24
  · simpa [formatT, wordOpcode, hk, h8, h24, show ¬ k - 8 < 9 by omega] using
      getLsbD_of_masked h k (hmask k h24 (by omega))
  · simp [formatT, wordOpcode, hk, h8, h24, show ¬ k - 8 < 9 by omega, show k - 24 < 8 by omega,
      show 24 + (k - 24) = k by omega]

/-- A format I word is its two fields where bits 31:16 are 0 (R93). -/
theorem formatI_fields {w : Word} (h : w &&& 0xFFFF0000#32 = 0#32) : formatI (wordOpcode w) (wordImm8 w) = w := by
  apply BitVec.eq_of_getLsbD_eq
  intro k hk
  have hmask : ∀ k < 32, 16 ≤ k → (0xFFFF0000#32).getLsbD k = true := by decide
  by_cases h8 : k < 8
  · simp [formatI, wordOpcode, wordImm8, hk, h8]
  by_cases h16 : k < 16
  · simp [formatI, wordOpcode, wordImm8, hk, h8, show k - 8 < 8 by omega, show 8 + (k - 8) = k by omega]
  · simpa [formatI, wordOpcode, wordImm8, hk, h8, show ¬ k - 8 < 8 by omega] using
      getLsbD_of_masked h k (hmask k hk (by omega))

/-- The opcode of a word in R94's table is the opcode of the command it selects. -/
theorem wordOpcode_of_commandOf {w : Word} {i : Instr} (h : commandOf w = some i) : wordOpcode w = i.opcode := by
  apply BitVec.eq_of_toNat_eq
  unfold commandOf at h
  split at h <;> cases h <;> assumption

/-- PERM_READ's mask clears DATA8 besides the bits that format T reserves. -/
theorem permRead_masked {w : Word} (h : w &&& 0xFFFE0000#32 = 0#32) :
    w &&& 0x00FE0000#32 = 0#32 ∧ w.extractLsb' 24 8 = 0#8 := by
  have hmask : ∀ k < 32, 17 ≤ k → (0xFFFE0000#32).getLsbD k = true := by decide
  have hzero : ∀ k < 32, 17 ≤ k → w.getLsbD k = false := fun k hk h17 => getLsbD_of_masked h k (hmask k hk h17)
  constructor
  · rw [show (0x00FE0000#32) = 0xFFFE0000#32 &&& 0x00FE0000#32 by decide, ← BitVec.and_assoc, h, BitVec.zero_and]
  · apply BitVec.eq_of_getLsbD_eq
    intro k hk
    simp [hk, hzero (24 + k) (by omega) (by omega)]

/-- A word that decodes to a command is that command's word. -/
theorem encode_of_decode {w : Word} {i : Instr} (h : decode w = .command i) : encode i = w := by
  obtain ⟨⟨m, hm, hw⟩, hc⟩ := (decode_command_iff w i).1 h
  have hopc := wordOpcode_of_commandOf hc
  rw [hopc] at hm
  have hidx : BitVec.ofNat 9 (wordIndex w) = w.extractLsb' 8 9 := by
    simp only [wordIndex, BitVec.ofNat_toNat, BitVec.setWidth_eq]
  unfold commandOf at hc
  split at hc <;> cases hc <;> cases hm
  -- PERM_WRITE, format T
  case h_3 => exact (congrArg₂ (formatT · · _) hopc.symm hidx).trans (formatT_fields hw)
  -- PERM_READ, format T with DATA8 reserved
  case h_4 =>
    obtain ⟨hw', hdata⟩ := permRead_masked hw
    have := formatT_fields hw'
    rw [hdata, hopc, ← hidx] at this
    exact this
  -- COLOR_MAP, format I
  case h_8 => exact (congrArg (formatI · _) hopc.symm).trans (formatI_fields hw)
  all_goals exact (congrArg formatR hopc.symm).trans (formatR_wordOpcode hw)

end Sys2Proof.StepRules
end

section
/-! What a step can do, in one flat list: `LiveStep` joins the inversions of a step, a transaction, a CTRL write, a CMD write
and a command, so that a statement about every step needs one case split. -/

namespace Sys2Proof.StepRules

open Sys2Proof Sys2Proof.Machine

/-- `t` holds what the whole-machine statements speak of as `s` does: the table, the engine, the stream, ERR_CMD, `rst_n`. -/
structure Quiet (s t : State) : Prop where
  pt : t.pt = s.pt
  tableState : t.tableState = s.tableState
  engine : t.engine = s.engine
  q : t.q = s.q
  pixelCount : t.pixelCount = s.pixelCount
  errCmd : t.errCmd = s.errCmd
  received : t.env.received = s.env.received
  rstN : t.env.rstN = s.env.rstN

theorem Quiet.trans {s t u : State} (h : Quiet s t) (h' : Quiet t u) : Quiet s u :=
  ⟨h'.pt.trans h.pt, h'.tableState.trans h.tableState, h'.engine.trans h.engine, h'.q.trans h.q,
    h'.pixelCount.trans h.pixelCount, h'.errCmd.trans h.errCmd, h'.received.trans h.received, h'.rstN.trans h.rstN⟩

theorem quiet_dropTurn (s : State) : Quiet s (dropTurn s) := ⟨rfl, rfl, rfl, rfl, rfl, rfl, rfl, rfl⟩

theorem quiet_dropRequest (s : State) : Quiet s (dropRequest s) := ⟨rfl, rfl, rfl, rfl, rfl, rfl, rfl, rfl⟩

theorem quiet_respond (r : HostRsp) (s : State) : Quiet s (respond r s) := ⟨rfl, rfl, rfl, rfl, rfl, rfl, rfl, rfl⟩

theorem quiet_rejectOverrun (s : State) : Quiet s (rejectOverrun s) := ⟨rfl, rfl, rfl, rfl, rfl, rfl, rfl, rfl⟩

theorem quiet_writeStatus (v : Word) (s : State) : Quiet s (writeStatus v s) := ⟨rfl, rfl, rfl, rfl, rfl, rfl, rfl, rfl⟩

theorem quiet_enables (d e : Bool) (s : State) : Quiet s { s with ieDone := d, ieErr := e } :=
  ⟨rfl, rfl, rfl, rfl, rfl, rfl, rfl, rfl⟩

theorem quiet_of_operandWrite {s t : State} (h : OperandWrite s t) : Quiet s t := by
  unfold OperandWrite at h
  rw [h]
  exact ⟨rfl, rfl, rfl, rfl, rfl, rfl, rfl, rfl⟩

theorem quiet_takeResponse (s : State) : Quiet s (takeResponse s) := by
  unfold takeResponse
  split <;> exact ⟨rfl, rfl, rfl, rfl, rfl, rfl, rfl, rfl⟩

/-- What a step can do while `rst_n` is high. `u` is the state that the turn, the request and the response have left. -/
inductive LiveStep (s : State) : State → Prop
  /-- Nothing but operands, flags, enables or the ports changes. -/
  | quiet {t : State} (h : Quiet s t) : LiveStep s t
  /-- The command in flight takes its engine step (R225). -/
  | command {t : State} {cmd : Word} {l : Latched} {seq : Option RenderSeq} {i : Instr} (hbusy : s.engine = .busy cmd l seq)
      (hdecode : decode cmd = .command i) (hstep : CommandStep i l seq (dropTurn s) t) : LiveStep s t
  /-- A CMD write is refused with a fault (R247). -/
  | fault {u : State} {code : ErrCode} {w : Word} {rest : List HostReq} (h : Quiet s u) (hidle : s.engine = .idle)
      (hnone : code ≠ .none) (haborted : code ≠ .aborted) (hreq : s.env.requests = .write 0x10#8 w 0xF#4 :: rest) :
      LiveStep s (recordFault code w u)
  /-- A CMD write is accepted (R224). -/
  | accept {u : State} {i : Instr} (h : Quiet s u) (hidle : s.engine = .idle) (hdecode : decode (encode i) = .command i)
      (hcheck : commandCheck i u = none) : LiveStep s (commandAccept i u)
  /-- A CTRL write aborts the command in flight (R222). -/
  | abort {u : State} {cmd : Word} {l : Latched} {seq : Option RenderSeq} (h : Quiet s u) (hbusy : s.engine = .busy cmd l seq) :
      LiveStep s (abortCommand u)
  /-- The block is reset, by SOFT_RESET or by `rst_n`, whose fall drops the response (R271, R272). -/
  | reset {t : State} (h : t = { State.reset with env := t.env }) (hrsp : t.env.rstN = false → t.env.rsp = none) :
      LiveStep s t
  /-- The sink takes the head of Q (R204). -/
  | transfer {e : PixEntry} {rest : List PixEntry} (h : s.q = e :: rest) : LiveStep s (sinkTransfer (dropTurn s))

/-- A command's meaning for an idle engine: acceptance, or the fault of the first failing check (R99). -/
theorem liveStep_exec_idle {s u t : State} {i : Instr} {rest : List HostReq} (hu : Quiet s u) (hidle : u.engine = .idle)
    (hdecode : decode (encode i) = .command i) (hreq : s.env.requests = .write 0x10#8 (encode i) 0xF#4 :: rest)
    (h : exec i u = .next t) : LiveStep s t := by
  rw [exec_idle i hidle] at h
  have hs : s.engine = .idle := hu.engine.symm.trans hidle
  cases hc : commandCheck i u with
  | none =>
    rw [hc] at h
    cases h
    exact .accept hu hs hdecode hc
  | some code =>
    rw [hc] at h
    cases h
    obtain rfl | rfl | rfl := commandCheck_code hc <;> exact .fault hu hs (by decide) (by decide) hreq

/-- A CMD write: an overrun, a fault, or an acceptance (R223). -/
theorem liveStep_writeCmd {s u t : State} {w : Word} {rest : List HostReq} (hu : Quiet s u)
    (hreq : s.env.requests = .write 0x10#8 w 0xF#4 :: rest) (h : writeCmd exec w u = .next t) : LiveStep s t := by
  obtain ⟨_, rfl⟩ | ⟨hidle, hcases⟩ := writeCmd_cases h
  · exact .quiet (hu.trans (quiet_rejectOverrun u))
  have hs : s.engine = .idle := hu.engine.symm.trans hidle
  obtain ⟨_, rfl⟩ | ⟨_, rfl⟩ | ⟨i, hdecode, hexec⟩ := hcases
  · exact .fault hu hs (by decide) (by decide) hreq
  · exact .fault hu hs (by decide) (by decide) hreq
  · obtain rfl := encode_of_decode hdecode
    exact liveStep_exec_idle hu hidle hdecode hreq hexec

/-- A CTRL write: SOFT_RESET, the enables alone, or an abort (R221). -/
theorem liveStep_writeCtrl {s u : State} (v : Word) (hu : Quiet s u) (hrst : s.env.rstN = true) :
    LiveStep s (writeCtrl v u) := by
  obtain h | h | ⟨hbusy, h⟩ := writeCtrl_cases v u <;> rw [h]
  · refine .reset rfl fun hlow => ?_
    rw [blockReset_env, hu.rstN, hrst] at hlow
    cases hlow
  · exact .quiet (hu.trans (quiet_enables _ _ u))
  · obtain ⟨cmd, l, seq, he⟩ := (busy_eq_true_iff u).1 hbusy
    exact .abort (hu.trans (quiet_enables _ _ u)) (hu.engine.symm.trans he)

/-- A host transaction, from the state whose request it is (R61, R64). -/
theorem liveStep_hostTransact {s t : State} {req : HostReq} (hrst : s.env.rstN = true)
    (hreq : s.env.requests.head? = some req) (h : hostTransact exec req (dropRequest s) = .next t) : LiveStep s t := by
  obtain ⟨r, hcases⟩ := hostTransact_cases h
  have hu : Quiet s (respond r (dropRequest s)) := (quiet_dropRequest s).trans (quiet_respond r _)
  obtain rfl | hop | ⟨v, _, rfl⟩ | ⟨v, _, rfl⟩ | ⟨w, rfl, hcmd⟩ := hcases
  · exact .quiet hu
  · exact .quiet (hu.trans (quiet_of_operandWrite hop))
  · exact liveStep_writeCtrl v hu hrst
  · exact .quiet (hu.trans (quiet_writeStatus v _))
  · obtain ⟨rest, hrest⟩ := List.head?_eq_some_iff.1 hreq
    exact liveStep_writeCmd hu hrest hcmd

/-- The sink's turn: a transfer where Q has a head (R204). -/
theorem liveStep_sinkTransfer (s : State) : LiveStep s (sinkTransfer (dropTurn s)) := by
  cases hq : s.q with
  | nil =>
    have hnone : sinkTransfer (dropTurn s) = dropTurn s := by
      unfold sinkTransfer
      rw [show (dropTurn s).q = [] from hq]
    rw [hnone]
    exact .quiet (quiet_dropTurn s)
  | cons e rest => exact .transfer hq

/-- A step while `rst_n` is low drops a turn or raises `rst_n`; any other is a `LiveStep`. -/
theorem step_live {s t : State} (h : step s = .next t) :
    (s.env.rstN = false ∧ (t = dropTurn s ∨ t = releaseReset (dropTurn s))) ∨ (s.env.rstN = true ∧ LiveStep s t) := by
  obtain hheld | ⟨hrst, hcases⟩ := step_cases h
  · exact Or.inl hheld
  refine Or.inr ⟨hrst, ?_⟩
  obtain rfl | ⟨cmd, l, seq, i, hbusy, hdecode, hexec⟩ | ⟨_, req, hreq, hhost⟩ | rfl | rfl | rfl := hcases
  · exact .quiet (quiet_dropTurn s)
  · exact .command hbusy hdecode (exec_busy_next (s := dropTurn s) hbusy hexec).2
  · exact liveStep_hostTransact hrst hreq hhost
  · exact .quiet ((quiet_dropTurn s).trans (quiet_takeResponse _))
  · exact liveStep_sinkTransfer s
  · exact .reset rfl fun _ => rfl

end Sys2Proof.StepRules
end

section
/-! O53: every step keeps the table's canonical form and `PT[256] = PT[0]` (10_state.md R40, 40_permutation_table.md R120),
whatever else holds of the state. -/

namespace Sys2Proof.StepRules

open Sys2Proof Sys2Proof.Machine

/-- A table in canonical form with its wrap entry; `TableOk` says it of a state's table. -/
def WrapTable (m : Memory) : Prop := m.wf = true ∧ m.read 256 = m.read 0

theorem tableOk_iff (s : State) : TableOk s ↔ WrapTable s.pt := Iff.rfl

theorem shuffled_length (seed : U64) : (shuffled seed).length = 256 := by
  rw [shuffled, shufflePass_length, orderedBytes_length]

/-- A list of 256 entries followed by a copy of its first reads alike at 256 and at 0. -/
theorem getD_append_first {t : List Byte} (h : t.length = 256) :
    (t ++ [t.getD 0 0#8]).getD 256 0#8 = (t ++ [t.getD 0 0#8]).getD 0 0#8 := by
  rw [List.getD_append _ _ _ 0 (by omega), List.getD_append_right _ _ _ 256 (by omega), h, Nat.sub_self,
    List.getD_cons_zero]

/-- `build(seed)` ends with a copy of entry 0 (R123). -/
theorem buildTable_wrap (seed : U64) : (buildTable seed).getD 256 0#8 = (buildTable seed).getD 0 0#8 := by
  rw [buildTable]
  exact getD_append_first (shuffled_length seed)

theorem wrapTable_build (seed : U64) : WrapTable (tableOfList (buildTable seed)) := by
  refine ⟨tableOfList_wf _, ?_⟩
  rw [read_tableOfList _ 256 le_rfl, read_tableOfList _ 0 (Nat.zero_le _)]
  exact buildTable_wrap seed

/-- PERM_WRITE writes entry 256 with entry 0 and otherwise neither of them alone (R126). -/
theorem WrapTable.writeEntry {m : Memory} (h : WrapTable m) {index : Nat} (hi : index ≤ 255) (v : Byte) :
    WrapTable (writeEntry m index v) := by
  obtain ⟨hwf, hwrap⟩ := h
  refine ⟨writeEntry_wf m index v hwf hi, ?_⟩
  rw [read_writeEntry m index 256 v hwf hi, read_writeEntry m index 0 v hwf hi, hwrap]
  by_cases h0 : index = 0
  · simp [h0]
  · rw [if_neg (by omega), if_neg (by omega)]

theorem wrapTable_unspecified (n : Nat) : WrapTable (unspecifiedTable n) := by
  refine ⟨unspecifiedTable_wf n, ?_⟩
  rw [read_unspecifiedTable n 256 le_rfl, read_unspecifiedTable n 0 (Nat.zero_le _)]
  rfl

theorem wrapTable_reset : WrapTable State.reset.pt := ⟨rfl, rfl⟩

theorem wrapTable_commandStep {i : Instr} {l : Latched} {seq : Option RenderSeq} {s t : State}
    (h : CommandStep i l seq s t) (hs : WrapTable s.pt) : WrapTable t.pt := by
  obtain ⟨hpt, _⟩ | ⟨_, hpt, _⟩ | ⟨_, _, _, hi, hpt, _⟩ := commandStep_pt h <;> rw [hpt]
  · exact hs
  · exact wrapTable_build l.seed
  · exact hs.writeEntry hi l.data8

/-- An abort keeps the table or draws a fresh one (R222). -/
theorem wrapTable_abortCommand {s : State} (hs : WrapTable s.pt) : WrapTable (abortCommand s).pt := by
  unfold abortCommand
  split
  · exact hs
  · split
    · exact wrapTable_unspecified _
    · exact hs

theorem wrapTable_liveStep {s t : State} (h : LiveStep s t) (hs : WrapTable s.pt) : WrapTable t.pt := by
  cases h with
  | quiet h => rwa [h.pt]
  | command _ _ hstep => exact wrapTable_commandStep hstep hs
  | fault h => rwa [recordFault_pt, h.pt]
  | @accept u i h =>
    obtain ⟨_, _, _, hpt, _⟩ := commandAccept_frame i u
    rwa [hpt, h.pt]
  | abort h => exact wrapTable_abortCommand (h.pt ▸ hs)
  | reset h => rw [h]; exact wrapTable_reset
  | transfer hq =>
    unfold sinkTransfer
    split <;> exact hs

/-- Settles O53: the table after each case of a step. -/
theorem stepKeepsTable : Obligations.StepKeepsTable := by
  unfold Obligations.StepKeepsTable
  intro s t hs h
  rw [tableOk_iff] at hs ⊢
  obtain ⟨_, rfl | rfl⟩ | ⟨_, hlive⟩ := step_live h
  · exact hs
  · exact hs
  · exact wrapTable_liveStep hlive hs

end Sys2Proof.StepRules
end

section
/-! O52: every step keeps the invariant (10_state.md R40 to R45, 20_memory.md R76, 30_encoding.md R99). The table part is O53's
lemma. For the others each case of a step is one lemma: what is quiet carries over, a command but RENDER idles the engine,
acceptance starts a stream, a produce step and a transfer each move it on by one pixel, an abort and a reset end it. -/

namespace Sys2Proof.StepRules

open Sys2Proof Sys2Proof.Machine

/-! ## The invariant as its fields see the state -/

/-- The parts of `Inv` that speak of what is in the block, beside the table's form. -/
structure FlowOk (s : State) : Prop where
  built : BuiltOk s
  engine : EngineOk s
  stream : StreamOk s

theorem Quiet.takenOfFrame {s t : State} (h : Quiet s t) : takenOfFrame t = takenOfFrame s := by
  unfold Machine.takenOfFrame
  rw [h.received, h.pixelCount]

theorem Quiet.flowOk {s t : State} (h : Quiet s t) (hs : FlowOk s) : FlowOk t := by
  obtain ⟨hb, he, hst⟩ := hs
  refine ⟨?_, ?_, ?_⟩
  · unfold BuiltOk at hb ⊢
    rwa [h.tableState, h.pt]
  · unfold EngineOk at he ⊢
    rwa [h.engine, h.tableState]
  · unfold StreamOk at hst ⊢
    rwa [h.takenOfFrame, h.engine, h.q, h.pt, h.pixelCount]

theorem engineOk_of_idle {s : State} (h : s.engine = .idle) : EngineOk s := by
  unfold EngineOk
  rw [h]
  trivial

theorem streamOk_of_idle {s : State} (h : s.engine = .idle) (hq : s.q = []) : StreamOk s := by
  unfold StreamOk
  rw [h, hq]
  exact ⟨Nat.zero_le _, rfl⟩

theorem queue_of_idle {s : State} (hs : StreamOk s) (h : s.engine = .idle) : s.q = [] := by
  unfold StreamOk at hs
  rw [h] at hs
  exact hs.2

theorem queue_of_noSeq {s : State} {cmd : Word} {l : Latched} (hs : StreamOk s) (h : s.engine = .busy cmd l none) :
    s.q = [] := by
  unfold StreamOk at hs
  rw [h] at hs
  exact hs.2

/-- Where the sequencer of a RENDER stands, and what has been delivered of its frame. -/
structure FrameAt (s : State) (l : Latched) (p : RenderSeq) : Prop where
  bound : p.produced ≤ frameSize l
  position : p.produced = p.ry * l.width.toNat + p.rx
  column : p.produced < frameSize l → p.rx < l.width.toNat
  count : s.pixelCount.toNat + s.q.length = p.produced
  delivered : takenOfFrame s ++ s.q = framePrefix s.pt l p.produced

theorem streamOk_iff_of_seq {s : State} {cmd : Word} {l : Latched} {p : RenderSeq} (h : s.engine = .busy cmd l (some p)) :
    StreamOk s ↔ s.q.length ≤ Config.pixFifoDepth ∧ FrameAt s l p := by
  unfold StreamOk
  rw [h]
  exact and_congr_right' ⟨fun ⟨hb, hp, hc, hn, hd⟩ => ⟨hb, hp, hc, hn, hd⟩,
    fun ⟨hb, hp, hc, hn, hd⟩ => ⟨hb, hp, hc, hn, hd⟩⟩

theorem engineOk_iff_of_busy {s : State} {cmd : Word} {l : Latched} {seq : Option RenderSeq} (h : s.engine = .busy cmd l seq) :
    EngineOk s ↔ ∃ i, decode cmd = .command i ∧ LatchedFieldsOk cmd l ∧ Admitted i l s.tableState ∧
      (seq.isSome = true ↔ i = .render) := by
  unfold EngineOk
  rw [h]

/-! ## The frame -/

theorem framePrefix_succ (pt : Memory) (l : Latched) (n : Nat) :
    framePrefix pt l (n + 1) = framePrefix pt l n ++
      [{ word := pixelWord pt l.octaves (n % l.width.toNat) (n / l.width.toNat), last := decide (n + 1 = frameSize l) }] := by
  unfold framePrefix
  rw [List.range_succ, List.map_append, List.map_singleton]

theorem frameSize_lt (l : Latched) : frameSize l < 2 ^ 32 :=
  calc frameSize l ≤ (2 ^ 16 - 1) * (2 ^ 16 - 1) :=
        Nat.mul_le_mul (Nat.le_sub_one_of_lt l.width.isLt) (Nat.le_sub_one_of_lt l.height.isLt)
    _ < 2 ^ 32 := by norm_num

theorem advanceSeq_produced (l : Latched) (p : RenderSeq) : (advanceSeq l p).produced = p.produced + 1 := by
  unfold advanceSeq
  split <;> rfl

/-- The next position is the next one in row-major order (R202). -/
theorem advanceSeq_position {l : Latched} {p : RenderSeq} (h : p.produced = p.ry * l.width.toNat + p.rx) :
    (advanceSeq l p).produced = (advanceSeq l p).ry * l.width.toNat + (advanceSeq l p).rx := by
  rw [advanceSeq_produced]
  unfold advanceSeq
  split
  · simp only [Nat.add_mul]; omega
  · simp only; omega

theorem advanceSeq_column {l : Latched} {p : RenderSeq} (h : p.rx < l.width.toNat) :
    (advanceSeq l p).rx < l.width.toNat := by
  unfold advanceSeq
  split
  · exact Nat.zero_lt_of_lt h
  · simp only; omega

/-- A produce step appends the frame's next pixel (R202). -/
theorem FrameAt.produce {s : State} {l : Latched} {p : RenderSeq} (h : FrameAt s l p) (hlt : p.produced < frameSize l)
    (cmd : Word) : FrameAt (producePixel cmd l p s) l (advanceSeq l p) := by
  have hrx := h.column hlt
  have hcol : p.produced % l.width.toNat = p.rx := by
    rw [h.position, Nat.mul_add_mod_of_lt hrx]
  have hrow : p.produced / l.width.toNat = p.ry := by
    rw [h.position, Nat.mul_comm, Nat.mul_add_div (Nat.zero_lt_of_lt hrx), Nat.div_eq_of_lt hrx, Nat.add_zero]
  refine ⟨?_, advanceSeq_position h.position, fun _ => advanceSeq_column hrx, ?_, ?_⟩
  · rw [advanceSeq_produced]; exact hlt
  · rw [advanceSeq_produced, producePixel_pixelCount, producePixel_q, List.length_append, ← Nat.add_assoc, h.count]
    rfl
  · rw [advanceSeq_produced, producePixel_q, producePixel_pt, framePrefix_succ, hcol, hrow, ← h.delivered,
      ← List.append_assoc]
    rfl

theorem sinkTransfer_cons {s : State} {e : PixEntry} {rest : List PixEntry} (hq : s.q = e :: rest) : sinkTransfer s =
    { s with q := rest, pixelCount := s.pixelCount + 1#32,
             env := { s.env with received := s.env.received ++ [e] } } := by
  unfold sinkTransfer
  rw [hq]

/-- A transfer moves the head of Q to what the sink has taken (R204). -/
theorem FrameAt.transfer {s : State} {l : Latched} {p : RenderSeq} {e : PixEntry} {rest : List PixEntry} (h : FrameAt s l p)
    (hq : s.q = e :: rest) : FrameAt (sinkTransfer s) l p := by
  obtain ⟨hb, hp, hc, hn, hd⟩ := h
  have hs := sinkTransfer_cons hq
  rw [hq, List.length_cons] at hn
  have hcount : (s.pixelCount + 1#32).toNat = s.pixelCount.toNat + 1 := by
    have := frameSize_lt l
    rw [BitVec.toNat_add_of_lt (by simp only [BitVec.toNat_ofNat]; omega)]
    rfl
  have htaken : takenOfFrame (sinkTransfer s) = takenOfFrame s ++ [e] := by
    unfold takenOfFrame
    rw [hs]
    simp only [hcount, List.length_append, List.length_singleton, Nat.add_sub_add_right]
    exact List.drop_append_of_le_length (Nat.sub_le _ _)
  refine ⟨hb, hp, hc, ?_, ?_⟩
  · rw [hs]
    simp only [hcount]
    omega
  · rw [htaken, List.append_assoc, hs]
    rwa [hq] at hd

/-- A RENDER just accepted stands at pixel 0 with nothing delivered (R200). -/
theorem frameAt_start {s : State} {l : Latched} (hq : s.q = []) (hcount : s.pixelCount = 0#32) : FrameAt s l ⟨0, 0, 0⟩ := by
  refine ⟨Nat.zero_le _, by simp, Nat.pos_of_mul_pos_right, ?_, ?_⟩
  · rw [hq, hcount]; rfl
  · unfold takenOfFrame
    rw [hq, hcount]
    exact (List.append_nil _).trans (List.drop_length ..)

/-! ## Acceptance -/

theorem checkTable_eq_none_iff (s : State) : checkTable s = none ↔ s.tableState ≠ .none := by
  unfold checkTable
  split <;> simp_all

/-- A command that no check stops has what `Admitted` says of its latched operands (R99). -/
theorem admitted_of_check {i : Instr} {s : State} (w : Word) (h : commandCheck i s = none) :
    Admitted i (latch w s) s.tableState := by
  cases i with
  | nop => trivial
  | permBuild => trivial
  | colorMap imm8 => trivial
  | permWrite index data8 => simpa [Admitted, latch, commandCheck, checkIndex] using h
  | permRead index => simpa [Admitted, latch, commandCheck, checkIndex] using h
  | noiseEval => simpa [Admitted, latch, commandCheck, checkNoise, checkTable_eq_none_iff] using h
  | fbmEval => simpa [Admitted, latch, commandCheck, checkFbm, checkTable_eq_none_iff] using h
  | pixelEval => simpa [Admitted, latch, commandCheck, checkFbm, checkTable_eq_none_iff] using h
  | intensityMap => simpa [Admitted, latch, commandCheck, checkIntensity] using h
  | render => exact (checkTable_eq_none_iff s).1 h

theorem flowOk_accept {i : Instr} {u : State} (hu : FlowOk u) (hidle : u.engine = .idle)
    (hdecode : decode (encode i) = .command i) (hcheck : commandCheck i u = none) : FlowOk (commandAccept i u) := by
  obtain ⟨hengine, hcount, _, hpt, hts, hq, _⟩ := commandAccept_frame i u
  have hempty : (commandAccept i u).q = [] := hq.trans (queue_of_idle hu.stream hidle)
  refine ⟨?_, ?_, ?_⟩
  · have hb := hu.built
    unfold BuiltOk at hb ⊢
    rwa [hts, hpt]
  · refine (engineOk_iff_of_busy hengine).2 ⟨i, hdecode, ⟨rfl, rfl, rfl⟩, hts ▸ admitted_of_check _ hcheck, ?_⟩
    split <;> simp_all
  · by_cases hi : i = .render
    · rw [if_pos hi] at hengine hcount
      exact (streamOk_iff_of_seq hengine).2 ⟨by rw [hempty]; exact Nat.zero_le _, frameAt_start hempty hcount⟩
    · rw [if_neg hi] at hengine
      unfold StreamOk
      rw [hengine, hempty]
      exact ⟨Nat.zero_le _, rfl⟩

/-! ## Engine steps -/

/-- A command's step leaves no table marked BUILT but a built one (R41). -/
theorem builtOk_commandStep {i : Instr} {l : Latched} {seq : Option RenderSeq} {s t : State}
    (h : CommandStep i l seq s t) (hs : BuiltOk s) : BuiltOk t := by
  unfold BuiltOk at hs ⊢
  obtain ⟨hpt, hts⟩ | ⟨_, hpt, _⟩ | ⟨_, _, _, _, _, hts⟩ := commandStep_pt h
  · rwa [hpt, hts]
  · exact fun _ => ⟨l.seed, hpt⟩
  · intro hbuilt
    rw [hts] at hbuilt
    cases hbuilt

/-- A RENDER's step produces a pixel, completes, or holds. -/
theorem renderStep_cases (cmd : Word) (l : Latched) (p : RenderSeq) (s : State) :
    (p.produced < frameSize l ∧ s.q.length < Config.pixFifoDepth ∧ renderStep cmd l p s = producePixel cmd l p s) ∨
    (s.q = [] ∧ renderStep cmd l p s = finish s) ∨ renderStep cmd l p s = s := by
  unfold renderStep
  split
  case isTrue hlt =>
    split
    case isTrue hroom => exact Or.inl ⟨hlt, hroom, rfl⟩
    case isFalse => exact Or.inr (Or.inr rfl)
  case isFalse =>
    split
    case isTrue hdone => exact Or.inr (Or.inl ⟨hdone.2, rfl⟩)
    case isFalse => exact Or.inr (Or.inr rfl)

theorem flowOk_renderStep {cmd : Word} {l : Latched} {p : RenderSeq} {s : State} (hs : FlowOk s)
    (hbusy : s.engine = .busy cmd l (some p)) : FlowOk (renderStep cmd l p s) := by
  obtain ⟨hlt, hroom, h⟩ | ⟨hq, h⟩ | h := renderStep_cases cmd l p s <;> rw [h]
  · refine ⟨hs.built, (engineOk_iff_of_busy (producePixel_engine cmd l p s)).2 ?_, ?_⟩
    · exact (engineOk_iff_of_busy hbusy).1 hs.engine
    · obtain ⟨_, hframe⟩ := (streamOk_iff_of_seq hbusy).1 hs.stream
      refine (streamOk_iff_of_seq (producePixel_engine cmd l p s)).2 ⟨?_, hframe.produce hlt cmd⟩
      rw [producePixel_q, List.length_append]
      exact hroom
  · exact ⟨hs.built, engineOk_of_idle rfl, streamOk_of_idle rfl hq⟩
  · exact hs

theorem flowOk_commandStep {s t : State} {cmd : Word} {l : Latched} {seq : Option RenderSeq} {i : Instr} (hs : FlowOk s)
    (hbusy : s.engine = .busy cmd l seq) (hdecode : decode cmd = .command i) (h : CommandStep i l seq s t) : FlowOk t := by
  by_cases hi : i = .render
  · subst hi
    obtain ⟨p, rfl, rfl⟩ := h
    rw [encode_of_decode hdecode]
    exact flowOk_renderStep hs hbusy
  · obtain ⟨_, _, _, _, _, _, _, _, _, hdone⟩ := commandStep_frame h
    obtain ⟨hidle, _, hq⟩ := hdone hi
    obtain ⟨j, hj, _, _, hseq⟩ := (engineOk_iff_of_busy hbusy).1 hs.engine
    rw [hdecode] at hj
    cases hj
    have hnone : seq = none := by
      cases seq with
      | none => rfl
      | some p => exact absurd (hseq.1 rfl) hi
    subst hnone
    exact ⟨builtOk_commandStep h hs.built, engineOk_of_idle hidle,
      streamOk_of_idle hidle (hq.trans (queue_of_noSeq hs.stream hbusy))⟩

/-! ## The other steps -/

/-- An abort empties Q and idles the engine; a table it leaves marked BUILT is the one it found (R222). -/
theorem flowOk_abort {s : State} {cmd : Word} {l : Latched} {seq : Option RenderSeq} (hs : FlowOk s)
    (hbusy : s.engine = .busy cmd l seq) : FlowOk (abortCommand s) := by
  rw [abortCommand_busy hbusy]
  split
  · exact ⟨(fun h => nomatch h), engineOk_of_idle rfl, streamOk_of_idle rfl rfl⟩
  · exact ⟨hs.built, engineOk_of_idle rfl, streamOk_of_idle rfl rfl⟩

theorem flowOk_reset {t : State} (h : t = { State.reset with env := t.env }) : FlowOk t := by
  rw [h]
  exact ⟨(fun h => nomatch h), engineOk_of_idle rfl, streamOk_of_idle rfl rfl⟩

/-- Only a RENDER has pixels in Q, so a transfer is one of its frame (R45, R204). -/
theorem flowOk_transfer {s : State} {e : PixEntry} {rest : List PixEntry} (hs : FlowOk s) (hq : s.q = e :: rest) :
    FlowOk (sinkTransfer s) := by
  have hs' := sinkTransfer_cons hq
  refine ⟨by rw [hs']; exact hs.built, by rw [hs']; exact hs.engine, ?_⟩
  cases hbusy : s.engine with
  | idle => exact absurd (hq.symm.trans (queue_of_idle hs.stream hbusy)) (List.cons_ne_nil _ _)
  | busy cmd l seq =>
    cases seq with
    | none => exact absurd (hq.symm.trans (queue_of_noSeq hs.stream hbusy)) (List.cons_ne_nil _ _)
    | some p =>
      obtain ⟨hlen, hframe⟩ := (streamOk_iff_of_seq hbusy).1 hs.stream
      have hengine : (sinkTransfer s).engine = .busy cmd l (some p) := by rw [hs']; exact hbusy
      refine (streamOk_iff_of_seq hengine).2 ⟨?_, hframe.transfer hq⟩
      rw [hq] at hlen
      rw [hs']
      exact (Nat.le_succ _).trans hlen

/-! ## Every step -/

theorem flowOk_liveStep {s t : State} (h : LiveStep s t) (hs : FlowOk s) : FlowOk t := by
  cases h with
  | quiet h => exact h.flowOk hs
  | command hbusy hdecode hstep => exact flowOk_commandStep ((quiet_dropTurn s).flowOk hs) hbusy hdecode hstep
  | fault h =>
    obtain ⟨hb, he, hst⟩ := h.flowOk hs
    exact ⟨hb, he, hst⟩
  | accept h hidle hdecode hcheck => exact flowOk_accept (h.flowOk hs) (h.engine.trans hidle) hdecode hcheck
  | abort h hbusy => exact flowOk_abort (h.flowOk hs) (h.engine.trans hbusy)
  | reset h => exact flowOk_reset h
  | transfer hq => exact flowOk_transfer ((quiet_dropTurn s).flowOk hs) hq

theorem heldOk_of_high {s : State} (h : s.env.rstN = true) : HeldOk s := by
  intro hlow
  rw [h] at hlow
  cases hlow

/-- `rst_n` falls only by the step that resets the block and drops the response (R270, R272). -/
theorem heldOk_liveStep {s t : State} (h : LiveStep s t) (hrst : s.env.rstN = true) : HeldOk t := by
  cases h with
  | quiet h => exact heldOk_of_high (h.rstN.trans hrst)
  | command _ _ hstep =>
    obtain ⟨henv, _⟩ := commandStep_frame hstep
    exact heldOk_of_high (by rw [henv]; exact hrst)
  | fault h => exact heldOk_of_high (h.rstN.trans hrst)
  | @accept u i h =>
    obtain ⟨_, _, _, _, _, _, henv, _⟩ := commandAccept_frame i u
    exact heldOk_of_high (by rw [henv]; exact h.rstN.trans hrst)
  | abort h hbusy =>
    rw [abortCommand_busy (h.engine.trans hbusy)]
    split <;> exact heldOk_of_high (h.rstN.trans hrst)
  | reset h hrsp => exact fun hlow => ⟨h, hrsp hlow⟩
  | transfer =>
    unfold sinkTransfer
    split <;> exact heldOk_of_high hrst

/-- While `rst_n` is low only the schedule moves, and its rise ends what `HeldOk` asks. -/
theorem inv_held {s t : State} (hs : Inv s) (h : t = dropTurn s ∨ t = releaseReset (dropTurn s)) : Inv t := by
  obtain ⟨htable, hbuilt, hengine, hstream, hheld⟩ := hs
  obtain rfl | rfl := h
  · refine ⟨htable, hbuilt, hengine, hstream, fun hlow => ?_⟩
    obtain ⟨hreset, hrsp⟩ := hheld hlow
    exact ⟨by rw [hreset]; rfl, hrsp⟩
  · exact ⟨htable, hbuilt, hengine, hstream, fun hlow => by cases hlow⟩

/-- Settles O52: the table by O53's lemma, the built table, the engine and the stream by `flowOk_liveStep`, held reset by
`heldOk_liveStep`. -/
theorem stepKeepsInv : Obligations.StepKeepsInv := by
  unfold Obligations.StepKeepsInv
  intro s t hs h
  obtain ⟨_, hheld⟩ | ⟨hrst, hlive⟩ := step_live h
  · exact inv_held hs hheld
  · obtain ⟨hbuilt, hengine, hstream⟩ := flowOk_liveStep hlive ⟨hs.built, hs.engine, hs.stream⟩
    exact ⟨(tableOk_iff t).2 (wrapTable_liveStep hlive ((tableOk_iff s).1 hs.table)), hbuilt, hengine, hstream,
      heldOk_liveStep hlive hrst⟩

end Sys2Proof.StepRules
end

section
/-! O56 and O57: what writes ERR_CMD (10_state.md R38) and what writes PIXEL_COUNT (R36), over every case of a step. -/

namespace Sys2Proof.StepRules

open Sys2Proof Sys2Proof.Machine

/-- An abort keeps PIXEL_COUNT and records the word in flight (R222). -/
theorem abortCommand_records {s : State} {cmd : Word} {l : Latched} {seq : Option RenderSeq} (h : s.engine = .busy cmd l seq) :
    (abortCommand s).pixelCount = s.pixelCount ∧ (abortCommand s).engine = .idle ∧ (abortCommand s).err = true ∧
      (abortCommand s).errCode = .aborted ∧ (abortCommand s).errCmd = cmd := by
  rw [abortCommand_busy h]
  split <;> exact ⟨rfl, rfl, rfl, rfl, rfl⟩

/-- Settles O56: ERR_CMD after each case of a step. -/
theorem errCmdWrittenOnlyByFaults : Obligations.ErrCmdWrittenOnlyByFaults := by
  unfold Obligations.ErrCmdWrittenOnlyByFaults
  intro s t hnext
  obtain ⟨_, rfl | rfl⟩ | ⟨_, hlive⟩ := step_live hnext
  · exact Or.inl rfl
  · exact Or.inl rfl
  cases hlive with
  | quiet h => exact Or.inl h.errCmd
  | command _ _ hstep =>
    obtain ⟨_, _, _, _, herrCmd, _⟩ := commandStep_frame hstep
    exact Or.inl herrCmd
  | fault h hidle hnone haborted hreq =>
    exact Or.inr (Or.inr ⟨rfl, h.engine.trans hidle, Or.inr ⟨hidle, hnone, haborted, wordOpcode_eq _, _, hreq⟩⟩)
  | @accept u i h =>
    obtain ⟨_, _, _, _, _, _, _, herrCmd, _⟩ := commandAccept_frame i u
    exact Or.inl (herrCmd.trans h.errCmd)
  | abort h hbusy =>
    obtain ⟨_, hidle, herr, hcode, hcmd⟩ := abortCommand_records (h.engine.trans hbusy)
    exact Or.inr (Or.inr ⟨herr, hidle, Or.inl ⟨_, _, by rw [hcmd]; exact hbusy, hcode⟩⟩)
  | reset h => exact Or.inr (Or.inl h)
  | transfer hq =>
    rw [sinkTransfer_cons (s := dropTurn s) hq]
    exact Or.inl rfl

/-- Settles O57: PIXEL_COUNT after each case of a step. -/
theorem pixelCountCountsTransfers : Obligations.PixelCountCountsTransfers := by
  unfold Obligations.PixelCountCountsTransfers
  intro s t hnext
  obtain ⟨_, rfl | rfl⟩ | ⟨_, hlive⟩ := step_live hnext
  · exact Or.inl rfl
  · exact Or.inl rfl
  cases hlive with
  | quiet h => exact Or.inl h.pixelCount
  | command _ _ hstep =>
    obtain ⟨_, _, _, _, _, _, hcount, _⟩ := commandStep_frame hstep
    exact Or.inl hcount
  | fault h => exact Or.inl h.pixelCount
  | @accept u i h hidle =>
    obtain ⟨hengine, hcount, hopc, _⟩ := commandAccept_frame i u
    by_cases hi : i = .render
    · subst hi
      exact Or.inr (Or.inl ⟨hcount, hidle, hopc.trans (by decide), _, hengine⟩)
    · rw [if_neg hi] at hcount
      exact Or.inl (hcount.trans h.pixelCount)
  | abort h hbusy =>
    obtain ⟨hcount, _⟩ := abortCommand_records (h.engine.trans hbusy)
    exact Or.inl (hcount.trans h.pixelCount)
  | reset h => exact Or.inr (Or.inr (Or.inl h))
  | transfer hq =>
    rw [sinkTransfer_cons (s := dropTurn s) hq]
    exact Or.inr (Or.inr (Or.inr ⟨_, hq, rfl, rfl⟩))

end Sys2Proof.StepRules
end

section
/-! O10: an engine step never reads the live operand registers (10_state.md R43, 30_encoding.md R98). -/

namespace Sys2Proof.Operands

open Sys2Proof Sys2Proof.Machine Sys2Proof.Statements

/-- Stated for any table, so that no proof evaluates the built one. -/
theorem withOperands_newTable (s : State) (a b c d e f g : Word) (o : Byte) (m : Memory) (ts : TableState) :
    withOperands { finish s with pt := m, tableState := ts } a b c d e f g o =
      { finish (withOperands s a b c d e f g o) with pt := m, tableState := ts } := rfl

theorem renderStep_withOperands (cmd : Word) (l : Latched) (p : RenderSeq) (s : State) (a b c d e f g : Word) (o : Byte) :
    renderStep cmd l p (withOperands s a b c d e f g o) = withOperands (renderStep cmd l p s) a b c d e f g o := by
  have hq : (withOperands s a b c d e f g o).q = s.q := rfl
  unfold renderStep
  rw [hq]
  split
  · split <;> rfl
  · split <;> rfl

/-- Each command's step, taken beside other operand registers, is the same step beside them. -/
theorem commandStep_withOperands {i : Instr} {l : Latched} {seq : Option RenderSeq} {s t : State}
    (h : CommandStep i l seq s t) (a b c d e f g : Word) (o : Byte) :
    CommandStep i l seq (withOperands s a b c d e f g o) (withOperands t a b c d e f g o) := by
  cases i with
  | permWrite index data8 =>
    obtain ⟨hi, rfl⟩ := h
    exact ⟨hi, rfl⟩
  | permRead index =>
    obtain ⟨hi, rfl⟩ := h
    exact ⟨hi, rfl⟩
  | render =>
    obtain ⟨p, hp, rfl⟩ := h
    exact ⟨p, hp, (renderStep_withOperands _ l p s a b c d e f g o).symm⟩
  | permBuild =>
    cases h
    exact withOperands_newTable s a b c d e f g o _ _
  | _ =>
    cases h
    rfl

/-- Settles O10: the command in flight is `i`, and its step does not see the operand registers. -/
theorem engineReadsOnlyLatchedOperands : Obligations.EngineReadsOnlyLatchedOperands := by
  unfold Obligations.EngineReadsOnlyLatchedOperands
  intro i s t a b c d e f g o hbusy h
  obtain ⟨cmd, l, seq, hengine⟩ := (busy_eq_true_iff s).1 hbusy
  obtain ⟨rfl, hstep⟩ := exec_busy_next hengine h
  exact exec_of_commandStep (s := withOperands s a b c d e f g o) hengine (commandStep_withOperands hstep a b c d e f g o)

end Sys2Proof.Operands
end

section
/-! O27 and O28: the bits of STATUS and CTRL (10_state.md R24, R25, R46). `statusWord_getLsbD` gives every bit of
STATUS; its number, the write that clears and `irq` all follow from the fields. -/

namespace Sys2Proof.StatusRules

open Sys2Proof Sys2Proof.Machine Sys2Proof.Statements

/-! ## The words -/

theorem toNat_append_eq {m n : Nat} (x : BitVec m) (y : BitVec n) : (x ++ y).toNat = x.toNat * 2 ^ n + y.toNat := by
  rw [BitVec.toNat_append, ← Nat.shiftLeft_add_eq_or_of_lt y.isLt, Nat.shiftLeft_eq]

theorem statusWord_toNat (s : State) : (statusWord s).toNat = s.busy.toNat + s.done.toNat * 2 + s.err.toNat * 2 ^ 2 +
    s.ovr.toNat * 2 ^ 3 + (tableStateBits s.tableState).toNat * 2 ^ 4 + (errCodeBits s.errCode).toNat * 2 ^ 8 +
    s.lastOpc.toNat * 2 ^ 16 := by
  unfold statusWord
  simp only [toNat_append_eq, BitVec.toNat_ofBool, BitVec.toNat_ofNat]
  omega

theorem ctrlWord_toNat (s : State) : (ctrlWord s).toNat = s.ieDone.toNat * 2 ^ 2 + s.ieErr.toNat * 2 ^ 3 := by
  unfold ctrlWord
  simp only [toNat_append_eq, BitVec.toNat_ofBool, BitVec.toNat_ofNat]
  omega

/-- Settles O27: the fields' places, and the numbers of TABLE_STATE and ERR_CODE. -/
theorem statusWordLayout : Obligations.StatusWordLayout := by
  unfold Obligations.StatusWordLayout
  intro s
  rw [statusWord_toNat]
  unfold statusNumber
  cases s.tableState <;> cases s.errCode <;> rfl

/-- Every bit of STATUS, from bit 0 up (R25). -/
theorem statusWord_getLsbD (s : State) (k : Nat) : (statusWord s).getLsbD k =
    if k = 0 then s.busy else if k = 1 then s.done else if k = 2 then s.err else if k = 3 then s.ovr
    else if k < 6 then (tableStateBits s.tableState).getLsbD (k - 4)
    else if k < 8 then false
    else if k < 12 then (errCodeBits s.errCode).getLsbD (k - 8)
    else if k < 16 then false
    else if k < 24 then s.lastOpc.getLsbD (k - 16)
    else false := by
  unfold statusWord
  simp only [BitVec.getLsbD_append, BitVec.getLsbD_ofBool, BitVec.getLsbD_zero]
  simp only [Nat.sub_sub, Nat.reduceAdd]
  rcases Nat.lt_or_ge k 4 with h | h
  · interval_cases k <;> simp
  · simp only [show ¬ k < 1 by omega, show ¬ k - 1 < 1 by omega, show ¬ k - 2 < 1 by omega, show ¬ k - 3 < 1 by omega,
      show k ≠ 0 by omega, show k ≠ 1 by omega, show k ≠ 2 by omega, show k ≠ 3 by omega,
      show k - 4 < 2 ↔ k < 6 by omega, show k - 6 < 2 ↔ k < 8 by omega, show k - 8 < 4 ↔ k < 12 by omega,
      show k - 12 < 4 ↔ k < 16 by omega, show k - 16 < 8 ↔ k < 24 by omega, if_false]

theorem ctrlWord_getLsbD_two (s : State) : (ctrlWord s).getLsbD 2 = s.ieDone := by
  unfold ctrlWord
  rw [BitVec.getLsbD_append, BitVec.getLsbD_append, BitVec.getLsbD_append]
  simp

theorem ctrlWord_getLsbD_three (s : State) : (ctrlWord s).getLsbD 3 = s.ieErr := by
  unfold ctrlWord
  rw [BitVec.getLsbD_append, BitVec.getLsbD_append, BitVec.getLsbD_append]
  simp

/-! ## The write that clears -/

/-- A 1 in bit 2 makes ERR_CODE 0 and a 0 keeps it (R251). -/
theorem errCode_cleared_bits (b : Bool) (c : ErrCode) (k : Nat) :
    (errCodeBits (if b then .none else c)).getLsbD k = ((errCodeBits c).getLsbD k && !b) := by
  cases b
  · simp
  · simp [errCodeBits]

/-- STATUS as read after a STATUS write, bit by bit (R25, R251). -/
theorem statusWord_writeStatus (v : Word) (s : State) (k : Nat) : (statusWord (writeStatus v s)).getLsbD k =
    if k = 1 ∨ k = 2 ∨ k = 3 then (statusWord s).getLsbD k && !v.getLsbD k
    else if 8 ≤ k ∧ k < 12 then (statusWord s).getLsbD k && !v.getLsbD 2
    else (statusWord s).getLsbD k := by
  have hbusy : (writeStatus v s).busy = s.busy := rfl
  rw [statusWord_getLsbD, statusWord_getLsbD, hbusy, writeStatus_done, writeStatus_err, writeStatus_ovr, writeStatus_errCode,
    writeStatus_tableState, writeStatus_lastOpc, errCode_cleared_bits]
  by_cases h1 : k = 1
  · simp [h1]
  by_cases h2 : k = 2
  · simp [h2]
  by_cases h3 : k = 3
  · simp [h3]
  by_cases h8 : k < 8
  · simp [h1, h2, h3, h8, show ¬ 8 ≤ k by omega]
  have h0 : k ≠ 0 := by omega
  have h6 : ¬ k < 6 := by omega
  by_cases h12 : k < 12
  · simp [h0, h1, h2, h3, h6, h8, h12, Nat.le_of_not_lt h8]
  · simp [h0, h1, h2, h3, h6, h8, h12]

/-! ## The interrupt -/

theorem statusWord_getLsbD_one (s : State) : (statusWord s).getLsbD 1 = s.done := statusWord_getLsbD s 1

theorem statusWord_getLsbD_two (s : State) : (statusWord s).getLsbD 2 = s.err := statusWord_getLsbD s 2

theorem statusWord_getLsbD_three (s : State) : (statusWord s).getLsbD 3 = s.ovr := statusWord_getLsbD s 3

/-- A STATUS write of 1 to DONE, ERR and OVR drops the level (R251). -/
theorem irq_writeStatus_all (s : State) : irq (writeStatus 0x0000000E#32 s) = false := by
  have h1 : (0x0000000E#32).getLsbD 1 = true := by decide
  have h2 : (0x0000000E#32).getLsbD 2 = true := by decide
  have h3 : (0x0000000E#32).getLsbD 3 = true := by decide
  simp only [irq, writeStatus_done, writeStatus_err, writeStatus_ovr, h1, h2, h3, Bool.not_true, Bool.and_false,
    Bool.or_self, Bool.false_and]

/-- Settles O28: the bits read are the fields `irq` takes. -/
theorem irqIsSourcesAndEnables : Obligations.IrqIsSourcesAndEnables := by
  unfold Obligations.IrqIsSourcesAndEnables
  intro s
  refine ⟨?_, irq_writeStatus_all s, rfl⟩
  rw [show readReg .status s = statusWord s from rfl, show readReg .ctrl s = ctrlWord s from rfl, statusWord_getLsbD_one,
    statusWord_getLsbD_two, statusWord_getLsbD_three, ctrlWord_getLsbD_two, ctrlWord_getLsbD_three]
  rfl

end Sys2Proof.StatusRules
end

section
/-! What a well-formed transaction to a register's offset does (20_memory.md R61, R64), and O26, O31 and O33: the STATUS write,
R21's table, operand writes. -/

namespace Sys2Proof.BusRules

open Sys2Proof Sys2Proof.Machine Sys2Proof.Statements Sys2Proof.StatusRules

/-! ## The address map -/

theorem aligned_regOffset (r : Reg) : aligned (regOffset r) = true := by cases r <;> decide

/-- No two registers share an offset (R21). -/
theorem regAt_regOffset (r : Reg) : regAt (regOffset r) = some r := by cases r <;> decide

theorem mem_allRegs (r : Reg) : r ∈ allRegs := by cases r <;> decide

theorem readOffset_regOffset (r : Reg) (s : State) : readOffset (regOffset r) s = readReg r s := by
  unfold readOffset
  rw [regAt_regOffset]

theorem hostTransact_read_reg (run : Instr → State → Result) (r : Reg) (s : State) :
    hostTransact run (.read (regOffset r)) s = .next (respond ⟨false, some (readReg r s)⟩ s) := by
  unfold hostTransact
  simp only [aligned_regOffset, readOffset_regOffset, if_true]

theorem hostTransact_write_reg (run : Instr → State → Result) (r : Reg) (v : Word) (s : State) :
    hostTransact run (.write (regOffset r) v 0xF#4) s = writeReg run r v (respond ⟨false, none⟩ s) := by
  unfold hostTransact writeOffset
  simp only [aligned_regOffset, regAt_regOffset, beq_self_eq_true, Bool.and_self, if_true]

/-! ## The STATUS write -/

/-- Settles O26: the transaction is `writeStatus` on the state with its response, and `statusWord_writeStatus` gives its bits. -/
theorem statusWriteClears : Obligations.StatusWriteClears := by
  unfold Obligations.StatusWriteClears
  intro v s
  exact ⟨⟨false, none⟩, writeStatus v (respond ⟨false, none⟩ s), rfl, hostTransact_write_reg exec .status v s, rfl,
    fun k _ => statusWord_writeStatus v (respond ⟨false, none⟩ s) k⟩

/-! ## R21's table -/

/-- R10's bound: the depth fits CONFIG's 8-bit field. -/
theorem pixFifoDepth_lt : Config.pixFifoDepth < 2 ^ 8 := Nat.add_lt_of_lt_sub Config.pixFifoDepthPred.isLt

theorem configWord_toNat : configWord.toNat = Config.pixFifoDepth * 2 ^ 8 := by
  have hdepth := pixFifoDepth_lt
  have hbit : narrowBit Config.intensityNarrow = 0#1 := rfl
  unfold configWord
  simp only [toNat_append_eq, hbit, BitVec.toNat_ofNat]
  omega

theorem configWord_eq : configWord = resetValue .config := by
  apply BitVec.eq_of_toNat_eq
  have hlt : Config.pixFifoDepth * 2 ^ 8 < 2 ^ 32 :=
    calc Config.pixFifoDepth * 2 ^ 8 < 2 ^ 8 * 2 ^ 8 := Nat.mul_lt_mul_of_pos_right pixFifoDepth_lt (by norm_num)
      _ < 2 ^ 32 := by norm_num
  have hmode : Config.intensityNarrow ≠ .wrap := by decide
  unfold resetValue
  rw [configWord_toNat, if_neg hmode, Nat.add_zero, BitVec.toNat_ofNat, Nat.mod_eq_of_lt hlt]

/-- The table written out is R21's registers in order, each with the model's offset and value. -/
theorem registerRows_eq (s : State) : registerRows s = allRegs.map (fun r => (r, regOffset r, readReg r s)) := by
  have hctrl : BitVec.ofNat 32 (s.ieDone.toNat * 2 ^ 2 + s.ieErr.toNat * 2 ^ 3) = ctrlWord s := by
    rw [← ctrlWord_toNat, BitVec.ofNat_toNat, BitVec.setWidth_eq]
  have hstatus : BitVec.ofNat 32 (statusNumber s) = statusWord s := by
    rw [← statusWordLayout s, BitVec.ofNat_toNat, BitVec.setWidth_eq]
  have hbyte : ∀ b : Byte, BitVec.ofNat 32 b.toNat = b.zeroExtend 32 := fun b => BitVec.ofNat_toNat 32 b
  unfold registerRows
  rw [hctrl, hstatus, hbyte, hbyte, hbyte, ← configWord_eq]
  rfl

/-- Settles O31: by `registerRows_eq` each row is a register's own, and a read of a register's offset only responds. -/
theorem readsHaveNoSideEffect : Obligations.ReadsHaveNoSideEffect := by
  unfold Obligations.ReadsHaveNoSideEffect
  intro s
  rw [registerRows_eq]
  refine ⟨fun r => ?_, fun r offset value hrow => ?_⟩
  · rw [List.map_map]
    exact List.mem_map.2 ⟨r, mem_allRegs r, rfl⟩
  · obtain ⟨r', _, heq⟩ := List.mem_map.1 hrow
    cases heq
    exact ⟨rfl, rfl, hostTransact_read_reg exec r s⟩

/-! ## Operand writes -/

/-- `s` with `v` stored in an operand register; the other registers are not operands. -/
def withOperand (r : Reg) (v : Word) (s : State) : State :=
  match r with
  | .seedLo => { s with seedLo := v }
  | .seedHi => { s with seedHi := v }
  | .xLo => { s with xLo := v }
  | .xHi => { s with xHi := v }
  | .yLo => { s with yLo := v }
  | .yHi => { s with yHi := v }
  | .dims => { s with dims := v }
  | .octaves => { s with octaves := v.extractLsb' 0 8 }
  | _ => s

theorem writeReg_operand {r : Reg} (hr : r ∈ operandRegs) (run : Instr → State → Result) (v : Word) (s : State) :
    writeReg run r v s = .next (withOperand r v s) := by
  cases r with
  | ctrl | status | cmd => exact absurd hr (by decide)
  | _ => rfl

/-- OCTAVES keeps the low byte of what is written (R32). -/
theorem zeroExtend_low_byte (v : Word) : (v.extractLsb' 0 8).zeroExtend 32 = v &&& 0xFF#32 := by
  apply BitVec.eq_of_toNat_eq
  have hmask : (0xFF#32).toNat = 2 ^ 8 - 1 := rfl
  rw [BitVec.toNat_and, hmask, Nat.and_two_pow_sub_one_eq_mod, BitVec.zeroExtend, BitVec.toNat_setWidth,
    BitVec.extractLsb'_toNat, Nat.shiftRight_zero]
  omega

theorem readReg_withOperand_self {r : Reg} (hr : r ∈ operandRegs) (v : Word) (s : State) :
    readReg r (withOperand r v s) = if r = .octaves then v &&& 0xFF#32 else v := by
  cases r with
  | octaves => exact zeroExtend_low_byte v
  | seedLo | seedHi | xLo | xHi | yLo | yHi | dims => rfl
  | _ => exact absurd hr (by decide)

/-- An operand write is seen in no register but its own. -/
theorem readReg_withOperand_of_ne {r r' : Reg} (h : r' ≠ r) (v : Word) (s : State) :
    readReg r' (withOperand r v s) = readReg r' s := by
  cases r with
  | seedLo | seedHi | xLo | xHi | yLo | yHi | dims | octaves =>
    cases r' <;> first | rfl | exact absurd rfl h
  | _ => rfl

theorem withOperand_frame (r : Reg) (v : Word) (s : State) :
    (withOperand r v s).pt = s.pt ∧ (withOperand r v s).engine = s.engine ∧ (withOperand r v s).q = s.q ∧
      (withOperand r v s).env = s.env := by
  cases r <;> exact ⟨rfl, rfl, rfl, rfl⟩

/-- A response is in no register. -/
theorem readReg_respond (r : Reg) (a : HostRsp) (s : State) : readReg r (respond a s) = readReg r s := by
  cases r <;> rfl

/-- Settles O33: the write is `withOperand` on the state with its response. -/
theorem operandWriteReadsBack : Obligations.OperandWriteReadsBack := by
  unfold Obligations.OperandWriteReadsBack
  intro r v s hr
  have hwrite := (hostTransact_write_reg exec r v s).trans (writeReg_operand hr exec v _)
  obtain ⟨hpt, hengine, hq, henv⟩ := withOperand_frame r v (respond ⟨false, none⟩ s)
  exact ⟨⟨false, none⟩, _, rfl, hwrite, readReg_withOperand_self hr v _,
    fun r' hne => (readReg_withOperand_of_ne hne v _).trans (readReg_respond r' _ s), hpt, hengine, hq, henv⟩

end Sys2Proof.BusRules
end

section
/-! O55 and O58: what changes the table (20_memory.md R80), and that a step that changes a result register leaves the engine
IDLE (R75), over every case of a step. -/

namespace Sys2Proof.StepRules

open Sys2Proof Sys2Proof.Machine Sys2Proof.Statements

/-! ## The table -/

/-- A word that decodes carries its command's opcode in bits 7:0 (30_encoding.md R94). -/
theorem opcode_toNat_of_decode {w : Word} {i : Instr} (h : decode w = .command i) : w.toNat % 2 ^ 8 = i.opcode.toNat := by
  obtain ⟨_, hcommand⟩ := (decode_command_iff w i).1 h
  rw [← wordOpcode_toNat, wordOpcode_of_commandOf hcommand]

/-- An abort keeps the table, or ends PERM_BUILD and leaves TABLE_STATE NONE (45_control.md R222). -/
theorem abortCommand_table {s : State} {cmd : Word} {l : Latched} {seq : Option RenderSeq} (h : s.engine = .busy cmd l seq) :
    (abortCommand s).pt = s.pt ∨ (cmd.toNat % 2 ^ 8 = 0x01 ∧ (abortCommand s).tableState = .none) := by
  rw [abortCommand_busy h, ← wordOpcode_toNat]
  split
  · next hopc => exact Or.inr ⟨congrArg BitVec.toNat hopc, rfl⟩
  · exact Or.inl rfl

/-- Settles O55: the table after each case of a step. -/
theorem tableChangesOnlyByTableCommands : Obligations.TableChangesOnlyByTableCommands := by
  unfold Obligations.TableChangesOnlyByTableCommands
  intro s t hnext
  obtain ⟨_, rfl | rfl⟩ | ⟨_, hlive⟩ := step_live hnext
  · exact Or.inl rfl
  · exact Or.inl rfl
  cases hlive with
  | quiet h => exact Or.inl h.pt
  | command hbusy hdecode hstep =>
    have hopc := opcode_toNat_of_decode hdecode
    obtain ⟨_, _, _, _, _, _, _, _, _, hdone⟩ := commandStep_frame hstep
    obtain ⟨hpt, _⟩ | ⟨rfl, hpt, hts⟩ | ⟨_, _, rfl, _, hpt, hts⟩ := commandStep_pt hstep
    · exact Or.inl hpt
    · obtain ⟨hidle, _⟩ := hdone (by simp)
      exact Or.inr (Or.inr ⟨_, _, _, hbusy, hidle, Or.inl ⟨hopc, hts, hpt⟩⟩)
    · obtain ⟨hidle, _⟩ := hdone (by simp)
      exact Or.inr (Or.inr ⟨_, _, _, hbusy, hidle, Or.inr (Or.inl ⟨hopc, hts, hpt⟩)⟩)
  | fault h => exact Or.inl h.pt
  | @accept u i h =>
    obtain ⟨_, _, _, hpt, _⟩ := commandAccept_frame i u
    exact Or.inl (hpt.trans h.pt)
  | abort h hbusy =>
    have hu := h.engine.trans hbusy
    obtain ⟨_, hidle, herr, hcode, hcmd⟩ := abortCommand_records hu
    obtain hpt | ⟨hopc, hts⟩ := abortCommand_table hu
    · exact Or.inl (hpt.trans h.pt)
    · exact Or.inr (Or.inr ⟨_, _, _, hbusy, hidle, Or.inr (Or.inr ⟨hopc, hts, herr, hcode, hcmd⟩)⟩)
  | reset h => exact Or.inr (Or.inl h)
  | transfer hq =>
    rw [sinkTransfer_cons (s := dropTurn s) hq]
    exact Or.inl rfl

/-! ## The result registers

`Quiet` does not speak of them, so their cases are those of `step_cases` and not of `LiveStep`. -/

theorem resultRegs_of_operandWrite {s t : State} (h : OperandWrite s t) : resultRegs t = resultRegs s := by
  unfold OperandWrite at h
  rw [h]
  rfl

theorem resultRegs_takeResponse (s : State) : resultRegs (takeResponse s) = resultRegs s := by
  unfold takeResponse
  split <;> rfl

theorem resultRegs_sinkTransfer (s : State) : resultRegs (sinkTransfer s) = resultRegs s := by
  unfold sinkTransfer
  split <;> rfl

/-- RENDER writes no result register, in no step of it (44_render.md R205). -/
theorem resultRegs_renderStep (cmd : Word) (l : Latched) (p : RenderSeq) (s : State) :
    resultRegs (renderStep cmd l p s) = resultRegs s := by
  unfold renderStep
  split <;> split <;> rfl

/-- A command's step that writes a result register completes the command (45_control.md R225). -/
theorem resultRegs_commandStep {i : Instr} {l : Latched} {seq : Option RenderSeq} {s t : State}
    (h : CommandStep i l seq s t) : resultRegs t = resultRegs s ∨ t.engine = .idle := by
  by_cases hi : i = .render
  · subst hi
    obtain ⟨p, _, rfl⟩ := h
    exact Or.inl (resultRegs_renderStep _ l p s)
  · obtain ⟨_, _, _, _, _, _, _, _, _, hdone⟩ := commandStep_frame h
    obtain ⟨hidle, _⟩ := hdone hi
    exact Or.inr hidle

/-- Of what a CTRL write does, only SOFT_RESET writes a result register; an abort leaves the engine IDLE too (R221, R222). -/
theorem resultRegs_writeCtrl (v : Word) (s : State) :
    resultRegs (writeCtrl v s) = resultRegs s ∨ (writeCtrl v s).engine = .idle := by
  obtain h | h | ⟨hbusy, h⟩ := writeCtrl_cases v s <;> rw [h]
  · exact Or.inr rfl
  · exact Or.inl rfl
  · obtain ⟨cmd, l, seq, he⟩ := (busy_eq_true_iff s).1 hbusy
    obtain ⟨_, hidle, _⟩ := abortCommand_records (s := { s with ieDone := v.getLsbD 2, ieErr := v.getLsbD 3 }) he
    exact Or.inr hidle

/-- While BUSY a host transaction leaves the result registers, or ends the command in flight (R71, R75). -/
theorem resultRegs_hostTransact {req : HostReq} {s t : State} (hbusy : s.busy = true)
    (h : hostTransact exec req s = .next t) : resultRegs t = resultRegs s ∨ t.engine = .idle := by
  obtain ⟨r, rfl | hop | ⟨v, _, rfl⟩ | ⟨v, _, rfl⟩ | ⟨w, _, hcmd⟩⟩ := hostTransact_cases h
  · exact Or.inl rfl
  · exact Or.inl (resultRegs_of_operandWrite (s := respond r s) hop)
  · exact resultRegs_writeCtrl v (respond r s)
  · exact Or.inl rfl
  · obtain ⟨_, rfl⟩ | ⟨hidle, _⟩ := writeCmd_cases hcmd
    · exact Or.inl rfl
    · rw [(busy_eq_false_iff s).2 hidle] at hbusy
      cases hbusy

/-- A step from a BUSY state leaves the result registers, or leaves the engine IDLE. -/
theorem resultRegs_step {s t : State} (h : step s = .next t) (hbusy : s.busy = true) :
    resultRegs t = resultRegs s ∨ t.engine = .idle := by
  obtain ⟨_, rfl | rfl⟩ | ⟨_, hcases⟩ := step_cases h
  · exact Or.inl rfl
  · exact Or.inl rfl
  obtain rfl | ⟨cmd, l, seq, i, he, _, hexec⟩ | ⟨_, req, _, hhost⟩ | rfl | rfl | rfl := hcases
  · exact Or.inl rfl
  · exact resultRegs_commandStep (s := dropTurn s) (exec_busy_next (s := dropTurn s) he hexec).2
  · exact resultRegs_hostTransact (s := dropRequest s) hbusy hhost
  · exact Or.inl (resultRegs_takeResponse (dropTurn s))
  · exact Or.inl (resultRegs_sinkTransfer (dropTurn s))
  · exact Or.inr rfl

/-- Settles O58: by `resultRegs_step`, a step that ends BUSY kept them. -/
theorem resultsHoldWhileBusy : Obligations.ResultsHoldWhileBusy := by
  unfold Obligations.ResultsHoldWhileBusy
  intro s t hnext hs ht
  refine (resultRegs_step hnext hs).resolve_right fun hidle => ?_
  rw [(busy_eq_false_iff t).2 hidle] at ht
  cases ht

end Sys2Proof.StepRules
end

section
/-! O29, O30 and O32: the transactions with no effect but the response: a malformed access (20_memory.md R62, R63), a
reserved offset (R65), a write to a read-only register (R64). -/

namespace Sys2Proof.BusRules

open Sys2Proof Sys2Proof.Machine Sys2Proof.Statements

/-! ## Malformed accesses -/

theorem aligned_eq (addr : BitVec 8) : aligned addr = decide (addr.toNat % 4 = 0) := by
  unfold aligned
  rw [Bool.eq_iff_iff, beq_iff_eq, decide_eq_true_iff, ← BitVec.toNat_inj, BitVec.extractLsb'_toNat, Nat.shiftRight_zero]
  rfl

theorem hostTransact_read_misaligned (run : Instr → State → Result) {addr : BitVec 8} (h : addr.toNat % 4 ≠ 0) (s : State) :
    hostTransact run (.read addr) s = .next (respond ⟨true, some 0#32⟩ s) := by
  simp only [hostTransact, aligned_eq, h, decide_false, Bool.false_eq_true, if_false]

theorem hostTransact_write_malformed (run : Instr → State → Result) {addr : BitVec 8} {strb : BitVec 4}
    (h : addr.toNat % 4 ≠ 0 ∨ strb ≠ 0xF#4) (v : Word) (s : State) :
    hostTransact run (.write addr v strb) s = .next (respond ⟨true, none⟩ s) := by
  have hmalformed : (aligned addr && strb == 0xF#4) = false := by
    rwa [aligned_eq, Bool.and_eq_false_iff, decide_eq_false_iff_not, beq_eq_false_iff_ne]
  simp only [hostTransact, hmalformed, Bool.false_eq_true, if_false]

/-- Settles O29: either access only responds. -/
theorem malformedAccessHasNoEffect : Obligations.MalformedAccessHasNoEffect := by
  unfold Obligations.MalformedAccessHasNoEffect
  intro addr v strb s
  exact ⟨fun h => hostTransact_read_misaligned exec h s,
    fun h => ⟨⟨true, none⟩, rfl, hostTransact_write_malformed exec h v s⟩⟩

/-! ## Reserved offsets -/

/-- ERR_CMD, at 0x50, is the last register (R21). -/
theorem regOffset_lt (r : Reg) : (regOffset r).toNat < 0x54 := by cases r <;> decide

theorem regAt_reserved {addr : BitVec 8} (h : 0x54 ≤ addr.toNat) : regAt addr = none := by
  cases hreg : regAt addr with
  | none => rfl
  | some r =>
    have hlt := regOffset_lt r
    rw [← regOffset_of_regAt hreg] at hlt
    omega

theorem hostTransact_read_aligned (run : Instr → State → Result) {addr : BitVec 8} (h : addr.toNat % 4 = 0) (s : State) :
    hostTransact run (.read addr) s = .next (respond ⟨false, some (readOffset addr s)⟩ s) := by
  simp only [hostTransact, aligned_eq, h, decide_true, if_true]

theorem hostTransact_write_aligned (run : Instr → State → Result) {addr : BitVec 8} (h : addr.toNat % 4 = 0) (v : Word)
    (s : State) :
    hostTransact run (.write addr v 0xF#4) s = writeOffset run addr v (respond ⟨false, none⟩ s) := by
  simp only [hostTransact, aligned_eq, h, decide_true, beq_self_eq_true, Bool.and_self, if_true]

theorem readOffset_reserved {addr : BitVec 8} (h : 0x54 ≤ addr.toNat) (s : State) : readOffset addr s = 0#32 := by
  unfold readOffset
  rw [regAt_reserved h]

theorem writeOffset_reserved (run : Instr → State → Result) {addr : BitVec 8} (h : 0x54 ≤ addr.toNat) (v : Word)
    (s : State) : writeOffset run addr v s = .next s := by
  unfold writeOffset
  rw [regAt_reserved h]

/-- Settles O30: an aligned transaction reaches the offset, where there is no register. -/
theorem reservedOffsetsReadZero : Obligations.ReservedOffsetsReadZero := by
  unfold Obligations.ReservedOffsetsReadZero
  intro addr v s haligned hreserved
  have hread := hostTransact_read_aligned exec haligned s
  rw [readOffset_reserved hreserved] at hread
  exact ⟨hread, ⟨false, none⟩, rfl,
    (hostTransact_write_aligned exec haligned v s).trans (writeOffset_reserved exec hreserved v _)⟩

/-! ## Read-only registers -/

theorem writeReg_readOnly {r : Reg} (hr : r ∈ readOnlyRegs) (run : Instr → State → Result) (v : Word) (s : State) :
    writeReg run r v s = .next s := by
  cases r with
  | id | version | permData | resultLo | resultHi | intensity | color | pixelCount | config | errCmd => rfl
  | _ => exact absurd hr (by decide)

/-- Settles O32: the write reaches the register, which ignores it. -/
theorem readOnlyRegistersIgnoreWrites : Obligations.ReadOnlyRegistersIgnoreWrites := by
  unfold Obligations.ReadOnlyRegistersIgnoreWrites
  intro r v s hr
  exact ⟨⟨false, none⟩, rfl, (hostTransact_write_reg exec r v s).trans (writeReg_readOnly hr exec v _)⟩

end Sys2Proof.BusRules
end

section
/-! The decoder as R94's table: `decode_of_row` and `decode_of_no_row` say all that it answers, by the row that bits 7:0 of the
word select. O3 and O1 follow: the first is the two lemmas, the second is the first at the row of the command's own word, once
each format gives its fields back (30_encoding.md R90 to R97). O2 is `encode_of_decode` and the width of INDEX. -/

namespace Sys2Proof.Encoding

open Sys2Proof Sys2Proof.Machine Sys2Proof.Statements Sys2Proof.StepRules

/-! ## The row of a word -/

/-- A word whose opcode is in the table: its reserved bits decide, and the fields are the word's bits (R94 to R97). -/
theorem decode_of_row {w : Word} {r : OpcodeRow} (hr : r ∈ opcodeRows) (hopc : w.toNat % 2 ^ 8 = r.opc) :
    decode w = if w &&& r.res = 0#32 then .command (r.command w) else .reservedBits := by
  simp only [opcodeRows, List.mem_cons, List.not_mem_nil, or_false] at hr
  unfold decode reservedMask commandOf
  rw [wordOpcode_toNat, wordIndex_eq, wordData8_eq, wordImm8_eq, hopc]
  rcases hr with rfl | rfl | rfl | rfl | rfl | rfl | rfl | rfl | rfl | rfl <;> rfl

/-- A word whose opcode is not in the table (R100). -/
theorem decode_of_no_row {w : Word} (h : ∀ r ∈ opcodeRows, w.toNat % 2 ^ 8 ≠ r.opc) : decode w = .illegalOpcode := by
  have hmask : reservedMask (wordOpcode w) = none := by
    unfold reservedMask
    rw [wordOpcode_toNat]
    split <;> simp_all [opcodeRows]
  unfold decode
  rw [hmask]

/-- Settles O3: the word has a row, whose answer is the decoder's, or none. -/
theorem legalWordsAreTheTable : Obligations.LegalWordsAreTheTable := by
  intro w i
  constructor
  · intro h
    by_cases hrow : ∃ r ∈ opcodeRows, w.toNat % 2 ^ 8 = r.opc
    · obtain ⟨r, hr, hopc⟩ := hrow
      rw [decode_of_row hr hopc] at h
      split at h
      · next hres => cases h; exact ⟨r, hr, hopc, hres, rfl⟩
      · cases h
    · rw [decode_of_no_row (by simpa using hrow)] at h
      cases h
  · rintro ⟨r, hr, hopc, hres, rfl⟩
    rw [decode_of_row hr hopc, if_pos hres]

/-! ## The fields of each format's word -/

theorem wordIndex_formatT (opc : Byte) (index : BitVec 9) (data8 : Byte) : wordIndex (formatT opc index data8) = index.toNat := by
  unfold wordIndex formatT
  congr 1
  ext k hk
  simp [hk, show 8 + k < 24 by omega, show 8 + k < 32 by omega]

theorem wordData8_formatT (opc : Byte) (index : BitVec 9) (data8 : Byte) : wordData8 (formatT opc index data8) = data8 := by
  unfold wordData8 formatT
  ext k hk
  have hopc : opc.getLsbD (24 + k) = false := BitVec.getLsbD_of_ge opc _ (by omega)
  simp [hk, hopc, show 24 + k < 32 by omega, show 9 ≤ 24 + k - 8 by omega]

theorem wordImm8_formatI (opc imm8 : Byte) : wordImm8 (formatI opc imm8) = imm8 := by
  unfold wordImm8 formatI
  ext k hk
  simp [hk, show 8 + k < 32 by omega]

/-! ## The round trip -/

/-- The word of every well-formed command carries its opcode and no reserved bit (R91 to R94). -/
theorem encodeForm (i : Instr) : Laws.EncodeForm.Statement i := by
  cases i with
  | nop => exact Laws.EncodeForm.nop
  | permBuild => exact Laws.EncodeForm.permBuild
  | permWrite index data8 => exact Laws.EncodeForm.permWrite index data8
  | permRead index => exact Laws.EncodeForm.permRead index
  | noiseEval => exact Laws.EncodeForm.noiseEval
  | fbmEval => exact Laws.EncodeForm.fbmEval
  | intensityMap => exact Laws.EncodeForm.intensityMap
  | colorMap imm8 => exact Laws.EncodeForm.colorMap imm8
  | pixelEval => exact Laws.EncodeForm.pixelEval
  | render => exact Laws.EncodeForm.render

/-- The row of a command's opcode takes the command back from its word: every field survives (R91 to R97). -/
theorem commandOf_encode {i : Instr} (hwf : i.wellFormed = true) : commandOf (encode i) = some i := by
  obtain ⟨hopc, _⟩ := encodeForm i hwf
  unfold commandOf
  rw [hopc]
  cases i with
  | permWrite index data8 =>
    have hindex : index < 512 := of_decide_eq_true hwf
    have : wordIndex (encode (.permWrite index data8)) = index :=
      (wordIndex_formatT _ _ _).trans (Nat.mod_eq_of_lt hindex)
    have hdata : wordData8 (encode (.permWrite index data8)) = data8 := wordData8_formatT _ _ _
    rw [this, hdata]
    rfl
  | permRead index =>
    have hindex : index < 512 := of_decide_eq_true hwf
    have : wordIndex (encode (.permRead index)) = index := (wordIndex_formatT _ _ _).trans (Nat.mod_eq_of_lt hindex)
    rw [this]
    rfl
  | colorMap imm8 => exact congrArg (some <| Instr.colorMap ·) (wordImm8_formatI _ _)
  | _ => rfl

/-- Settles O1: the word passes its mask, and its fields are the command's. -/
theorem decodeOfEncode : Obligations.DecodeOfEncode := by
  intro i hwf
  obtain ⟨hopc, mask, hmask, hres⟩ := encodeForm i hwf
  exact (decode_command_iff _ _).2 ⟨⟨mask, hopc ▸ hmask, hres⟩, commandOf_encode hwf⟩

/-- INDEX taken from a word fits its 9 bits (R95). -/
theorem wellFormed_of_commandOf {w : Word} {i : Instr} (h : commandOf w = some i) : i.wellFormed = true := by
  have hindex : wordIndex w < 512 := (w.extractLsb' 8 9).isLt
  unfold commandOf at h
  split at h <;> cases h
  case h_3 => exact decide_eq_true hindex
  case h_4 => exact decide_eq_true hindex
  all_goals rfl

/-- Settles O2: the fields fit, and a clear mask leaves the word no bit beside them (`encode_of_decode`). -/
theorem encodeOfDecode : Obligations.EncodeOfDecode := fun w i h =>
  ⟨wellFormed_of_commandOf ((decode_command_iff w i).1 h).2, encode_of_decode h⟩

/-- Settles O4 by running the decoder on the twelve closed words. -/
theorem sampleWordsDecode : Obligations.SampleWordsDecode := by
  unfold Obligations.SampleWordsDecode
  decide

end Sys2Proof.Encoding
end

section
/-! O8: a CMD write runs `accept` when the engine is idle, and only sets OVR while it is BUSY (30_encoding.md R99, 45_control.md
R223). The checks written out in `faultOf` are the decoder's two, by the word's row, and then the command's own
(`faultOf_of_command`). -/

namespace Sys2Proof.Encoding

open Sys2Proof Sys2Proof.Machine Sys2Proof.Statements Sys2Proof.StatusRules Sys2Proof.StepRules Sys2Proof.BusRules

/-! ## The checks in order -/

theorem faultOf_of_no_row {w : Word} (h : ∀ r ∈ opcodeRows, w.toNat % 2 ^ 8 ≠ r.opc) (s : State) :
    faultOf w s = some .illegalOpcode :=
  if_pos fun hmem => by simp_all [opcodeRows]

theorem opc_mem_of_row {w : Word} {r : OpcodeRow} (hr : r ∈ opcodeRows) (hopc : w.toNat % 2 ^ 8 = r.opc) :
    w.toNat % 2 ^ 8 ∈ [0x00, 0x01, 0x02, 0x03, 0x10, 0x11, 0x12, 0x20, 0x21, 0x30] :=
  hopc ▸ List.mem_map_of_mem (f := OpcodeRow.opc) hr

theorem faultOf_of_reserved {w : Word} {r : OpcodeRow} (hr : r ∈ opcodeRows) (hopc : w.toNat % 2 ^ 8 = r.opc)
    (hres : w &&& r.res ≠ 0#32) (s : State) : faultOf w s = some .reservedBits := by
  have hany : (opcodeRows.any fun r => r.opc == w.toNat % 2 ^ 8 && (w &&& r.res) != 0#32) = true :=
    List.any_eq_true.2 ⟨r, hr, by rw [hopc]; simpa using hres⟩
  unfold faultOf
  rw [if_neg (not_not_intro (opc_mem_of_row hr hopc)), if_pos hany]

/-- NO_TABLE comes before the operand check that follows it (R99). -/
theorem checkTable_or (s : State) (c : Option ErrCode) :
    (checkTable s).or c = if s.tableState = .none then some .noTable else c := by
  unfold checkTable
  split <;> rfl

theorem checkNoise_eq (s : State) : checkNoise s =
    if s.tableState = .none then some .noTable
    else if f64IsFinite s.x = true ∧ f64IsFinite s.y = true then none else some .nonFinite := by
  simp [checkNoise, checkTable_or, noiseOperandsOk]

theorem checkFbm_eq (s : State) : checkFbm s =
    if s.tableState = .none then some .noTable else if fbmOperandsOk s.x s.y s.octaves = true then none else some .nonFinite :=
  checkTable_or s _

/-- INTENSITY_MAP's check under SATURATE, this hardware's setting (R182, log entry 9). -/
theorem checkIntensity_eq (s : State) : checkIntensity s = if f64IsFinite s.x = true then none else some .nonFinite := rfl

/-- Past the decoder's two checks, the command's own are left (R243 to R245). -/
theorem faultOf_of_command {w : Word} {i : Instr} (h : decode w = .command i) (s : State) :
    faultOf w s = commandCheck i s := by
  obtain ⟨r, hr, hopc, hres, rfl⟩ := (legalWordsAreTheTable w i).1 h
  unfold faultOf
  simp only [hopc]
  simp only [opcodeRows, List.mem_cons, List.not_mem_nil, or_false] at hr
  rcases hr with rfl | rfl | rfl | rfl | rfl | rfl | rfl | rfl | rfl | rfl
  all_goals simp only at hres
  all_goals simp [opcodeRows, hres, commandCheck, checkNothing, checkIndex, checkTable, checkNoise_eq, checkFbm_eq,
    checkIntensity_eq, -Bool.not_eq_true, -not_and]

/-! ## What acceptance leaves -/

theorem append_eq_ofNat (hi lo : Word) : hi ++ lo = BitVec.ofNat 64 (hi.toNat * 2 ^ 32 + lo.toNat) := by
  rw [← toNat_append_eq, BitVec.ofNat_toNat, BitVec.setWidth_eq]

theorem high_half_eq_ofNat (v : Word) : v.extractLsb' 16 16 = BitVec.ofNat 16 (v.toNat / 2 ^ 16) := by
  apply BitVec.eq_of_toNat_eq
  simp [BitVec.extractLsb'_toNat, Nat.shiftRight_eq_div_pow]

/-- What acceptance latches, on the bits of the registers and the word (R43). -/
theorem latch_eq_latchOf (w : Word) (s : State) : latch w s = latchOf w s := by
  unfold latch latchOf State.seed State.x State.y
  rw [wordIndex_eq, wordData8_eq, wordImm8_eq, high_half_eq_ofNat, append_eq_ofNat, append_eq_ofNat, append_eq_ofNat]
  rfl

theorem acceptOf_of_fault {w : Word} {s : State} {c : ErrCode} (h : faultOf w s = some c) :
    acceptOf w s = recordFault c w s := by
  unfold acceptOf recordFault
  rw [h, wordOpcode_eq]

theorem acceptOf_of_command {w : Word} {s : State} {i : Instr} (hdecode : decode w = .command i) (h : faultOf w s = none) :
    acceptOf w s = commandAccept i s := by
  unfold acceptOf
  rw [h, opcode_toNat_of_decode hdecode, ← wordOpcode_eq, ← latch_eq_latchOf, ← encode_of_decode hdecode]
  cases i <;> rfl

/-! ## The CMD write -/

/-- The engine idle: the checks in order, then acceptance (R99). -/
theorem writeCmd_idle (w : Word) {s : State} (hidle : s.engine = .idle) : writeCmd exec w s = .next (acceptOf w s) := by
  unfold writeCmd
  rw [(busy_eq_false_iff s).2 hidle]
  by_cases hrow : ∃ r ∈ opcodeRows, w.toNat % 2 ^ 8 = r.opc
  · obtain ⟨r, hr, hopc⟩ := hrow
    by_cases hres : w &&& r.res = 0#32
    · have hdecode : decode w = .command (r.command w) := (decode_of_row hr hopc).trans (if_pos hres)
      have hfault := faultOf_of_command hdecode s
      simp only [hdecode, exec_idle _ hidle, encode_of_decode hdecode]
      cases hcheck : commandCheck (r.command w) s with
      | some c => rw [acceptOf_of_fault (hfault.trans hcheck)]; rfl
      | none => rw [acceptOf_of_command hdecode (hfault.trans hcheck)]; rfl
    · simp [decode_of_row hr hopc, hres, acceptOf_of_fault (faultOf_of_reserved hr hopc hres s)]
  · have hnone : ∀ r ∈ opcodeRows, w.toNat % 2 ^ 8 ≠ r.opc := by simpa using hrow
    simp [decode_of_no_row hnone, acceptOf_of_fault (faultOf_of_no_row hnone s)]

theorem writeCmd_busy (w : Word) {s : State} (hbusy : s.busy = true) : writeCmd exec w s = .next (rejectOverrun s) :=
  if_pos hbusy

/-- Settles O8: the transaction is the CMD write after its response, and the two cases of the engine. -/
theorem acceptChecksInOrder : Obligations.AcceptChecksInOrder := by
  intro w s
  have hwrite : hostTransact exec (.write 0x10#8 w 0xF#4) s = writeCmd exec w (respond ⟨false, none⟩ s) :=
    hostTransact_write_reg exec .cmd w s
  refine ⟨⟨false, none⟩, rfl, fun hidle => ?_, fun hbusy => ?_⟩
  · exact hwrite.trans (writeCmd_idle w hidle)
  · exact hwrite.trans (writeCmd_busy w hbusy)

end Sys2Proof.Encoding
end

section
/-! O12 to O14 and O50: the table commands at completion (40_permutation_table.md R125 to R127), and what the seeded pass makes of
the ordered sequence (R122 to R124). One turn of the pass is one draw and one exchange; `entriesAre_shufflePass` and
`shufflePass_perm` carry what one exchange does through the whole pass, by induction on the index it starts from. -/

namespace Sys2Proof.TableRules

open Sys2Proof Sys2Proof.Machine Sys2Proof.Statements Sys2Proof.StepRules

/-! ## One entry -/

/-- Settles O14: the engine's step of PERM_READ, on the latched index. -/
theorem permReadCompletes : Obligations.PermReadCompletes := by
  intro s index l seq hbusy hl hindex
  subst hl
  exact exec_of_commandStep hbusy ⟨hindex, rfl⟩

/-- Settles O13: the engine's step of PERM_WRITE, and what `writeEntry` leaves of the table. -/
theorem permWriteCompletes : Obligations.PermWriteCompletes := by
  intro s index data8 l seq hbusy hl hdata hindex hwf
  subst hl hdata
  refine ⟨_, exec_of_commandStep hbusy ⟨hindex, rfl⟩, rfl, ?_, fun k => ?_⟩
  · exact writeEntry_wf s.pt l.index l.data8 hwf hindex
  · exact read_writeEntry s.pt l.index k l.data8 hwf hindex

/-! ## One turn of the pass -/

/-- A draw of the generator on words is R122's draw on numbers. -/
theorem drawSpec_toNat (s : U64) :
    drawSpec s.toNat = ((splitmixNext s).1.toNat, (splitmixNext s).2.toNat) := by
  have hadd : (0x9E3779B97F4A7C15#64).toNat = 0x9E3779B97F4A7C15 := by decide
  have hmul1 : (0xBF58476D1CE4E5B9#64).toNat = 0xBF58476D1CE4E5B9 := by decide
  have hmul2 : (0x94D049BB133111EB#64).toNat = 0x94D049BB133111EB := by decide
  rw [splitmixNext, drawSpec, xorShift_toNat, xorShift_mul_toNat, xorShift_mul_toNat, BitVec.toNat_add, hadd, hmul1, hmul2]

theorem getD_set_of_lt {t : List Byte} {i : Nat} (hi : i < t.length) (v : Byte) (k : Nat) :
    (t.set i v).getD k 0#8 = if k = i then v else t.getD k 0#8 := by
  by_cases hk : k = i
  · simp [hk, hi]
  · simp [hk, List.getElem?_set_ne (Ne.symm hk)]

/-- An exchange reads, at each of its two entries, as the list did at the other. -/
theorem swapEntries_getD {t : List Byte} {i j : Nat} (hi : i < t.length) (hj : j < t.length) (k : Nat) :
    (swapEntries t i j).getD k 0#8 =
      if k = i then t.getD j 0#8 else if k = j then t.getD i 0#8 else t.getD k 0#8 := by
  rw [swapEntries, getD_set_of_lt (by rwa [List.length_set]), getD_set_of_lt hi]
  by_cases hki : k = i
  · by_cases hkj : k = j
    · rw [if_pos hkj, if_pos hki, ← hkj, ← hki]
    · rw [if_neg hkj, if_pos hki, if_pos hki]
  · rw [if_neg hki, if_neg hki]

/-! ## The whole pass -/

/-- The pass only exchanges entries, so it keeps what they are (R124). -/
theorem shufflePass_perm {n : Nat} (s : U64) {t : List Byte} (hn : n < t.length) : (shufflePass n s t).Perm t := by
  induction n generalizing s t with
  | zero => exact List.Perm.refl t
  | succ n ih =>
    have hj := (mulhi64_lt (splitmixNext s).2 (n + 2) (Nat.succ_pos _)).trans_le hn
    exact (ih _ (by rw [swapEntries_length]; omega)).trans (swapEntries_perm t _ _ hn hj)

/-- The entries of a list, as numbers, are the values of a function. -/
def EntriesAre (t : List Byte) (table : Nat → Nat) : Prop := ∀ k, k < t.length → (t.getD k 0#8).toNat = table k

theorem entriesAre_orderedBytes : EntriesAre orderedBytes (fun k => k) := by
  intro k hk
  rw [orderedBytes_length] at hk
  have hentry : orderedBytes.getD k 0#8 = BitVec.ofNat 8 k := by simp [orderedBytes, hk]
  rw [hentry, BitVec.toNat_ofNat, Nat.mod_eq_of_lt hk]

theorem EntriesAre.swapEntries {t : List Byte} {table : Nat → Nat} (h : EntriesAre t table) {i j : Nat}
    (hi : i < t.length) (hj : j < t.length) :
    EntriesAre (swapEntries t i j) (fun k => if k = i then table j else if k = j then table i else table k) := by
  intro k hk
  rw [swapEntries_length] at hk
  rw [swapEntries_getD hi hj, apply_ite BitVec.toNat, apply_ite BitVec.toNat, h i hi, h j hj, h k hk]

/-- The pass on bytes is R123's loop on numbers. -/
theorem EntriesAre.shufflePass {n : Nat} (s : U64) {t : List Byte} {table : Nat → Nat} (h : EntriesAre t table)
    (hn : n < t.length) : EntriesAre (shufflePass n s t) (passSpec n s.toNat table) := by
  induction n generalizing s t table with
  | zero => exact h
  | succ n ih =>
    have hj := (mulhi64_lt (splitmixNext s).2 (n + 2) (Nat.succ_pos _)).trans_le hn
    have hrest := ih (splitmixNext s).1 (h.swapEntries hn hj) (by rw [swapEntries_length]; omega)
    rw [passSpec, drawSpec_toNat]
    exact hrest

/-! ## The built table -/

theorem buildTable_length (seed : U64) : (buildTable seed).length = 257 := by
  rw [buildTable, List.length_append, shuffled_length, List.length_singleton]

theorem buildTable_take (seed : U64) : (buildTable seed).take 256 = shuffled seed := by
  rw [buildTable, List.take_left' (shuffled_length seed)]

theorem shuffled_perm (seed : U64) : (shuffled seed).Perm orderedBytes :=
  shufflePass_perm seed (by rw [orderedBytes_length]; decide)

/-- Settles O50: the pass permutes the ordered bytes, and the last entry is appended to what it leaves. -/
theorem builtTableIsPermutation : Obligations.BuiltTableIsPermutation := by
  intro seed
  refine ⟨buildTable_length seed, ?_, buildTable_wrap seed⟩
  rw [buildTable_take]
  exact shuffled_perm seed

theorem entriesAre_shuffled (seed : U64) : EntriesAre (shuffled seed) (passSpec 255 seed.toNat (fun k => k)) :=
  entriesAre_orderedBytes.shufflePass seed (by rw [orderedBytes_length]; decide)

theorem buildTable_getD_of_lt (seed : U64) {k : Nat} (hk : k < 256) :
    (buildTable seed).getD k 0#8 = (shuffled seed).getD k 0#8 := by
  rw [buildTable, List.getD_append _ _ _ _ (by rwa [shuffled_length])]

/-- `build(seed)` is R123's table on numbers, its last entry included. -/
theorem buildTable_toNat (seed : U64) {k : Nat} (hk : k ≤ 256) :
    ((buildTable seed).getD k 0#8).toNat = tableSpec seed.toNat k := by
  have hfirst : ∀ i < 256, ((buildTable seed).getD i 0#8).toNat = passSpec 255 seed.toNat (fun k => k) i := by
    intro i hi
    rw [buildTable_getD_of_lt seed hi]
    exact entriesAre_shuffled seed i (by rwa [shuffled_length])
  unfold tableSpec
  by_cases hlast : k = 256
  · rw [if_pos hlast, hlast, buildTable_wrap]
    exact hfirst 0 (by decide)
  · rw [if_neg hlast]
    exact hfirst k (by omega)

/-- Settles O12: the engine's step of PERM_BUILD, and `build(L.SEED)` entry by entry. -/
theorem permBuildCompletes : Obligations.PermBuildCompletes := by
  intro s l seq hbusy
  have hword : (0x00000001#32 : Word) = encode .permBuild := by decide
  rw [hword] at hbusy
  have hexec : exec .permBuild s =
      .next { finish s with pt := tableOfList (buildTable l.seed), tableState := .built } :=
    exec_of_commandStep hbusy rfl
  have hwf := tableOfList_wf (buildTable l.seed)
  have hread := read_tableOfList (buildTable l.seed)
  -- With the table a variable, comparing the two states does not run the shuffle.
  generalize tableOfList (buildTable l.seed) = table at hexec hwf hread
  exact ⟨_, hexec, rfl, hwf, fun k hk =>
    ⟨hread k hk, (congrArg BitVec.toNat (hread k hk)).trans (buildTable_toNat l.seed hk)⟩⟩

end Sys2Proof.TableRules
end

section
/-! O15 and O40 to O42: single-octave gradient noise (41_gradient_noise.md R140 to R147). The offset of a coordinate in its cell is
one subtraction of exact values, so the rounding facts of O37 carry over to it; the noise is then R141 to R145's operations in
the spec's order, each with a bound on how large its answer can be. -/

namespace Sys2Proof.NoiseRules

open Sys2Proof Sys2Proof.Machine Sys2Proof.Statements Sys2Proof.Rounding

/-! ## One subtraction -/

/-- Flipping the sign bit, with the mask written out. -/
theorem f64Neg_eq_xor (a : F64) : f64Neg a = a ^^^ 0x8000000000000000#64 := by
  have hmask : (1#64 <<< 63) = 0x8000000000000000#64 := by decide
  rw [f64Neg, hmask]

theorem f64Sub_eq_subSpec (a b : F64) : f64Sub a b = subSpec a b := by
  rw [f64Sub, subSpec, f64Neg_eq_xor]

/-- A difference of finite values below the overflow bound is finite and the exact difference's nearest value (R13). -/
theorem f64Sub_nearestEven {a b : F64} (ha : f64IsFinite a = true) (hb : f64IsFinite b = true)
    (hlt : |f64Units a - f64Units b| < overflowUnits) :
    f64IsFinite (f64Sub a b) = true ∧ NearestEven (f64Sub a b) (f64Units a - f64Units b) 1 := by
  obtain ⟨hround, _⟩ := additionRoundsToNearestEven a (f64Neg b) ha (by rwa [f64IsFinite_neg])
  rw [f64Units_neg, ← sub_eq_add_neg] at hround
  rwa [RoundedOnce, if_pos (by rwa [Nat.cast_one, mul_one])] at hround

/-! ## The lattice cell -/

theorem f64One_cast : (f64One : Int) = 2 ^ 1074 := by rw [f64One_eq, Nat.cast_pow, Nat.cast_ofNat]

theorem f64One_cast_pos : (0 : Int) < f64One := Int.natCast_pos.2 f64One_pos

theorem f64One_le_overflowUnits : f64One ≤ overflowUnits := by
  rw [overflowUnits_eq]
  exact Nat.le_mul_of_pos_left _ (Nat.sub_pos_of_lt (Nat.pow_lt_pow_right one_lt_two (by decide)))

/-- The integer 0 converts to +0.0 (R13). -/
theorem f64OfInt_zero : f64OfInt 0 = 0x0000000000000000#64 := by
  rw [f64OfInt, f64OfRat, Int.natAbs_zero, Nat.zero_mul, f64RoundMag_zero one_pos]
  decide

theorem f64Floor_le {c : F64} (hc : f64IsFinite c = true) : f64Floor c * f64One ≤ f64Units c := by
  rw [f64Floor_finite hc]
  exact Int.ediv_mul_le _ f64One_cast_pos.ne'

theorem lt_f64Floor_add_one {c : F64} (hc : f64IsFinite c = true) : f64Units c < (f64Floor c + 1) * f64One := by
  rw [f64Floor_finite hc]
  exact Int.lt_ediv_add_one_mul_self _ f64One_cast_pos

theorem latticeCell_fst (c : F64) : ((latticeCell c).1 : Int) = f64Floor c % 256 :=
  Int.toNat_of_nonneg (Int.emod_nonneg _ (by decide))

theorem latticeCell_fst_lt (c : F64) : (latticeCell c).1 < 256 := by
  have := latticeCell_fst c
  omega

theorem latticeCell_snd (c : F64) : (latticeCell c).2 = f64Sub c (f64OfInt (f64Floor c)) := rfl

/-- The offset is the exact distance from the floor, rounded once: that distance is below 1.0, far from overflow. -/
theorem latticeCell_snd_nearestEven {c : F64} (hc : f64IsFinite c = true) :
    NearestEven (latticeCell c).2 (f64Units c - f64Floor c * f64One) 1 := by
  obtain ⟨hfin, hunits⟩ := f64OfInt_floor hc
  have hdist : |f64Units c - f64Floor c * f64One| < (overflowUnits : Int) := by
    have hlow := f64Floor_le hc
    have hhigh := lt_f64Floor_add_one hc
    have hover : (f64One : Int) ≤ overflowUnits := Int.ofNat_le.2 f64One_le_overflowUnits
    rw [abs_of_nonneg (by linarith)]
    linarith
  rw [← hunits] at hdist ⊢
  exact (f64Sub_nearestEven hc hfin hdist).2

theorem f64Units_le_of_atMost {a : F64} {k : Nat} (h : AtMost a k) : f64Units a ≤ k := by
  have := f64Units_natAbs a
  have := h.2
  omega

/-- Settles O40: the integer is `f64Floor c`. -/
theorem latticeCellIsFloorAndOffset : Obligations.LatticeCellIsFloorAndOffset := by
  intro c hc
  rw [← f64One_cast]
  obtain ⟨hfin, hunits⟩ := f64OfInt_floor hc
  obtain ⟨hoffset, hnonneg⟩ := latticeCell_offset hc
  refine ⟨f64Floor c, f64Floor_le hc, lt_f64Floor_add_one hc, latticeCell_fst c, latticeCell_fst_lt c, hfin, hunits,
    fun hzero => ?_, ?_, hoffset.finite, latticeCell_snd_nearestEven hc, hnonneg, f64Units_le_of_atMost hoffset⟩
  · rw [hzero, f64OfInt_zero]
  · rw [latticeCell_snd, f64Sub_eq_subSpec]

/-! ## The corner hashes -/

/-- With the wrap entry, adding 1 to an index below 256 needs no reduction (R144). -/
theorem read_succ_of_wrap {pt : Memory} (hwrap : pt.read 256 = pt.read 0) {k : Nat} (hk : k < 256) :
    pt.read (k + 1) = pt.read ((k + 1) % 256) := by
  by_cases hlast : k = 255
  · rw [hlast]
    exact hwrap
  · rw [Nat.mod_eq_of_lt (by omega)]

theorem read_mod_succ_of_wrap {pt : Memory} (hwrap : pt.read 256 = pt.read 0) (n : Nat) :
    pt.read (n % 256 + 1) = pt.read ((n + 1) % 256) := by
  rw [read_succ_of_wrap hwrap (Nat.mod_lt _ (by decide)), Nat.mod_add_mod]

/-- Settles O41: each `+ 1` is taken of an index below 256, where the wrap entry stands for the reduction. -/
theorem cornerHashesWrap : Obligations.CornerHashesWrap := by
  intro pt xi yi hwrap hxi _
  simp only [cornerHashes, read_mod_succ_of_wrap hwrap, read_succ_of_wrap hwrap hxi]

/-! ## Finiteness -/

/-- The offset in a cell, with the bound in the form that the operations' bounds take. -/
theorem latticeCell_snd_atMost {c : F64} (hc : f64IsFinite c = true) : AtMost (latticeCell c).2 (2 ^ 0 * f64One) :=
  (latticeCell_offset hc).1.mono (Nat.le_mul_of_pos_left _ (by decide))

/-- R145's interpolation along one horizontal edge of the cell, between corners at the same vertical distance `dy`. -/
theorem lerp_grad_atMost {t dx dy : F64} (ht : AtMost t (2 ^ 6 * f64One)) (hdx : AtMost dx (2 ^ 0 * f64One))
    (hdy : AtMost dy (2 ^ 1 * f64One)) (h h' : Byte) :
    AtMost (lerp t (grad h dx dy) (grad h' (f64Sub dx f64OneVal) dy)) (2 ^ 9 * f64One) :=
  lerp_atMost ht (grad_atMost h (hdx.widen (by decide)) hdy) (grad_atMost h' (hdx.sub atMost_one (by decide)) hdy)
    (by decide)

/-- The noise of finite coordinates is finite and at most 2^17: the corners' distances are at most 2, and each of the two
interpolations adds 8 to the exponent of the bound. -/
theorem noise2d_atMost (pt : Memory) {x y : F64} (hx : f64IsFinite x = true) (hy : f64IsFinite y = true) :
    AtMost (noise2d pt x y) (2 ^ 17 * f64One) := by
  have hxf := latticeCell_snd_atMost hx
  have hyf := latticeCell_snd_atMost hy
  have hlower := lerp_grad_atMost (fade_atMost hxf) hxf (hyf.widen (by decide))
  have hupper := lerp_grad_atMost (fade_atMost hxf) hxf (hyf.sub atMost_one (by decide))
  exact lerp_atMost (fade_atMost hyf) (hlower _ _) (hupper _ _) (by decide)

/-- Settles O42: the bound on the noise is one of finite values. -/
theorem noiseIsFinite : Obligations.NoiseIsFinite := fun pt _ _ hx hy => (noise2d_atMost pt hx hy).finite

/-! ## The noise is R141 to R145's -/

theorem fade_eq_fadeSpec (t : F64) : fade t = fadeSpec t := by
  simp only [fade, fadeSpec, f64Sub_eq_subSpec, f64Six, f64Ten, f64Fifteen]

theorem lerp_eq_lerpSpec (t a b : F64) : lerp t a b = lerpSpec t a b := by
  simp only [lerp, lerpSpec, f64Sub_eq_subSpec]

/-- The two low bits of a hash are the row of R143's table. -/
theorem and_three_eq_iff (h : Byte) {k : Nat} (hk : k < 4) : h &&& 3#8 = BitVec.ofNat 8 k ↔ h.toNat % 4 = k := by
  have hand : (h &&& 3#8).toNat = h.toNat % 4 := by
    rw [BitVec.toNat_and]
    exact Nat.and_two_pow_sub_one_eq_mod h.toNat 2
  rw [← BitVec.toNat_inj, hand, BitVec.toNat_ofNat, Nat.mod_eq_of_lt (by omega : k < 2 ^ 8)]

theorem grad_eq_gradSpec (h : Byte) (dx dy : F64) : grad h dx dy = gradSpec h dx dy := by
  simp only [gradSpec, and_three_eq_iff h (by decide : 0 < 4), and_three_eq_iff h (by decide : 1 < 4),
    and_three_eq_iff h (by decide : 2 < 4), ← f64Neg_eq_xor]
  unfold grad
  split
  case h_1 hrow => rw [if_pos hrow]
  case h_2 hrow => rw [if_neg (by omega), if_pos hrow]
  case h_3 hrow => rw [if_neg (by omega), if_neg (by omega), if_pos hrow]
  case h_4 h0 h1 h2 => rw [if_neg h0, if_neg h1, if_neg h2]

theorem noise2d_eq_noiseSpec (pt : Memory) (x y : F64) : noise2d pt x y = noiseSpec pt x y := by
  simp only [noise2d, noiseSpec, cornerHashes, lerp_eq_lerpSpec, fade_eq_fadeSpec, grad_eq_gradSpec, f64Sub_eq_subSpec,
    f64OneVal]

/-- Settles O15: the engine's step of NOISE_EVAL writes the two halves of the noise. -/
theorem noiseEvalCompletes : Obligations.NoiseEvalCompletes := by
  intro s l seq hbusy
  have hword : (0x00000010#32 : Word) = encode .noiseEval := by decide
  rw [hword] at hbusy
  exact ⟨_, exec_of_commandStep hbusy rfl, setResult_result _ _, noise2d_eq_noiseSpec s.pt l.x l.y, rfl⟩

end Sys2Proof.NoiseRules
end

section
/-! O16 and O43 to O46: the octave sum (42_fbm.md R170 to R173). The amplitude never exceeds 1 and each octave's noise is at most
2^17, so the sum stays far from overflow; the frequencies double exactly, so the last octave's scaled coordinates are the
largest and the operand check turns on them. -/

namespace Sys2Proof.FbmRules

open Sys2Proof Sys2Proof.Machine Sys2Proof.Statements Sys2Proof.Rounding Sys2Proof.StepRules Sys2Proof.NoiseRules

/-! ## Products by 1.0 and 2.0, sums with +0.0 -/

theorem f64Mag_one : f64Mag f64OneVal = f64One := by
  have hpattern : magPattern f64OneVal = (0 + 1023) * 2 ^ 52 := by decide
  rw [f64Mag_eq, hpattern, magUnits_two_pow, pow_zero, one_mul]

theorem f64Mag_two : f64Mag f64Two = 2 * f64One := by
  have hpattern : magPattern f64Two = (1 + 1023) * 2 ^ 52 := by decide
  rw [f64Mag_eq, hpattern, magUnits_two_pow, pow_one]

/-- The magnitude of a finite value rounds to the value's own pattern. -/
theorem f64RoundMag_f64Mag {a : F64} (ha : f64IsFinite a = true) {den : Nat} (hden : 0 < den) :
    f64RoundMag (f64Mag a * den) den = magPattern a := by
  rw [f64Mag_eq]
  exact f64RoundMag_exact den _ hden ((f64IsFinite_iff a).1 ha).le

theorem f64Mul_one_left {a : F64} (ha : f64IsFinite a = true) : f64Mul f64OneVal a = a := by
  have hsign : f64Sign f64OneVal = false := by decide
  rw [f64Mul_finite (by decide) ha, f64Mag_one, hsign, Bool.false_bne, Nat.mul_comm, f64RoundMag_f64Mag ha f64One_pos,
    f64Pack_self]

/-- A finite value has no units exactly when it is a zero of either sign. -/
theorem f64Mag_eq_zero_iff (a : F64) : f64Mag a = 0 ↔ a = 0x8000000000000000#64 ∨ a = 0#64 := by
  constructor
  · intro hmag
    have hpattern : magPattern a = 0 := magUnits_inj (by rw [← f64Mag_eq, hmag, magUnits_zero])
    rw [← f64Pack_self a, hpattern, f64Pack_zero]
    cases f64Sign a
    · exact Or.inr rfl
    · exact Or.inl rfl
  · rintro (rfl | rfl) <;> decide

/-- Adding to +0.0 keeps every finite value but -0.0, which becomes +0.0. -/
theorem f64Add_zero_left {a : F64} (ha : f64IsFinite a = true) :
    f64Add f64Zero a = if a = 0x8000000000000000#64 then 0#64 else a := by
  have hzero : f64Units f64Zero = 0 := by decide
  have hsign : f64Sign f64Zero = false := by decide
  rw [f64Add_finite (by decide) ha, hzero, zero_add, hsign, Bool.false_and]
  by_cases hmag : f64Mag a = 0
  · have hunits : f64Units a = 0 := by rw [f64Units_eq_signed, hmag, signed_zero]
    rw [if_pos hunits, f64Pack_zero]
    rcases (f64Mag_eq_zero_iff a).1 hmag with rfl | rfl <;> decide
  · have hnot : a ≠ 0x8000000000000000#64 := fun h => hmag ((f64Mag_eq_zero_iff a).2 (Or.inl h))
    have hunits : f64Units a ≠ 0 := by rwa [← Int.natAbs_ne_zero, f64Units_natAbs]
    have hneg : decide (f64Units a < 0) = f64Sign a := by
      rw [Bool.eq_iff_iff, decide_eq_true_iff, f64Units_eq_signed, signed_lt_zero_iff _ (Nat.pos_of_ne_zero hmag)]
    have hround := f64RoundMag_f64Mag ha one_pos
    rw [mul_one] at hround
    rw [if_neg hunits, if_neg hnot, hneg, f64Units_natAbs, hround, f64Pack_self]

/-- Adding 1 to the exponent field of a normal pattern doubles its units. -/
theorem magUnits_add_two_pow {p : Nat} (hp : 2 ^ 52 ≤ p) : magUnits (p + 2 ^ 52) = magUnits p * 2 := by
  obtain ⟨e, m, rfl, hm, he⟩ := pattern_split p
  have hnormal : 2 ^ 52 ≤ m := by omega
  have hnext : e * 2 ^ 52 + m + 2 ^ 52 = (e + 1) * 2 ^ 52 + m := by ring
  rw [hnext, magUnits_pattern e m hm.le he, magUnits_pattern (e + 1) m hm.le (Or.inr hnormal), pow_succ, mul_assoc]

/-- Doubling a normal value adds 1 to its exponent field, exactly. -/
theorem f64Mul_two {a : F64} (hlow : 2 ^ 52 ≤ magPattern a) (hhigh : magPattern a + 2 ^ 52 ≤ f64InfMag) :
    f64Mul a f64Two = f64Pack (f64Sign a) (magPattern a + 2 ^ 52) := by
  have hfin : f64IsFinite a = true := (f64IsFinite_iff a).2 (by omega)
  have hsign : f64Sign f64Two = false := by decide
  rw [f64Mul_finite hfin (by decide), f64Mag_two, ← mul_assoc, f64Mag_eq, ← magUnits_add_two_pow hlow,
    f64RoundMag_exact _ _ f64One_pos hhigh, hsign, Bool.bne_false]

/-! ## The octaves' frequencies -/

theorem octaveFreq_eq_pack {k : Nat} (hk : k ≤ 254) :
    octaveFreq k = f64Pack false (0x3F747AE147AE147B + k * 2 ^ 52) := by
  induction k with
  | zero => decide
  | succ k ih =>
    have hmag : 0x3F747AE147AE147B + k * 2 ^ 52 < 2 ^ 63 := by omega
    have hinf : f64InfMag = 2047 * 2 ^ 52 := rfl
    rw [octaveFreq, ih (by omega), f64Mul_two, f64Sign_pack _ _ hmag, magPattern_pack _ _ hmag]
    · congr 1
      ring
    all_goals
      rw [magPattern_pack _ _ hmag]
      omega

theorem magPattern_octaveFreq {k : Nat} (hk : k ≤ 254) : magPattern (octaveFreq k) = 0x3F747AE147AE147B + k * 2 ^ 52 := by
  rw [octaveFreq_eq_pack hk, magPattern_pack _ _ (by omega)]

theorem f64IsFinite_octaveFreq {k : Nat} (hk : k ≤ 254) : f64IsFinite (octaveFreq k) = true := by
  rw [f64IsFinite_iff, magPattern_octaveFreq hk, f64InfMag]
  omega

theorem f64Mag_octaveFreq_mono {j k : Nat} (hjk : j ≤ k) (hk : k ≤ 254) : f64Mag (octaveFreq j) ≤ f64Mag (octaveFreq k) := by
  rw [f64Mag_eq, f64Mag_eq, magUnits_le_iff, magPattern_octaveFreq (hjk.trans hk), magPattern_octaveFreq hk]
  omega

/-- Settles O44: each doubling of a frequency adds 1 to its exponent field. -/
theorem octaveFrequencyPatterns : Obligations.OctaveFrequencyPatterns := by
  intro k hk
  rw [octaveFreq_eq_pack hk, f64Pack, BitVec.toNat_ofNat, if_neg Bool.false_ne_true]
  omega

/-! ## The operand check -/

/-- A product with a factor of smaller magnitude stays finite. -/
theorem f64Mul_finite_of_mag_le {x a b : F64} (hx : f64IsFinite x = true) (ha : f64IsFinite a = true)
    (hb : f64IsFinite b = true) (hab : f64Mag a ≤ f64Mag b) (h : f64IsFinite (f64Mul x b) = true) :
    f64IsFinite (f64Mul x a) = true := by
  rw [f64Mul_finite hx hb, f64IsFinite_iff, magPattern_pack _ _ (roundMag_lt _ _)] at h
  rw [f64Mul_finite hx ha, f64IsFinite_iff, magPattern_pack _ _ (roundMag_lt _ _)]
  refine (f64RoundMag_mono _ _ _ _ f64One_pos f64One_pos ?_).trans_lt h
  exact Nat.mul_le_mul_right _ (Nat.mul_le_mul_left _ hab)

/-- A coordinate that a later octave's frequency scales to a finite value is finite at every earlier octave. -/
theorem f64Mul_octaveFreq_finite_of_le {x : F64} (hx : f64IsFinite x = true) {j k : Nat} (hjk : j ≤ k) (hk : k ≤ 254)
    (h : f64IsFinite (f64Mul x (octaveFreq k)) = true) : f64IsFinite (f64Mul x (octaveFreq j)) = true :=
  f64Mul_finite_of_mag_le hx (f64IsFinite_octaveFreq (hjk.trans hk)) (f64IsFinite_octaveFreq hk)
    (f64Mag_octaveFreq_mono hjk hk) h

/-- The coordinates scaled by octave `k`'s frequency are finite. -/
def OctaveOk (x y : F64) (k : Nat) : Prop :=
  f64IsFinite (f64Mul x (octaveFreq k)) = true ∧ f64IsFinite (f64Mul y (octaveFreq k)) = true

/-- The check's loop, from octave `j` on, asks for each of its `n` octaves. -/
theorem scaledFinite_octaveFreq_iff (x y : F64) (n j : Nat) :
    scaledFinite x y n (octaveFreq j) = true ↔ ∀ k, k < n → OctaveOk x y (j + k) := by
  induction n generalizing j with
  | zero => simp [scaledFinite]
  | succ n ih =>
    have hnext : f64Mul (octaveFreq j) f64Two = octaveFreq (j + 1) := rfl
    rw [scaledFinite, hnext, Bool.and_eq_true, Bool.and_eq_true, ih, Nat.forall_lt_succ_left']
    simp only [OctaveOk, Nat.add_zero, Nat.add_assoc, Nat.add_comm 1]

theorem fbmOperandsOk_iff (x y : F64) (o : Byte) :
    fbmOperandsOk x y o = true ↔
      f64IsFinite x = true ∧ f64IsFinite y = true ∧ ∀ k, k < o.toNat → OctaveOk x y k := by
  have hscaled := scaledFinite_octaveFreq_iff x y o.toNat 0
  simp only [Nat.zero_add, octaveFreq] at hscaled
  rw [fbmOperandsOk, Bool.and_eq_true, Bool.and_eq_true, hscaled, and_assoc]

/-- Where the last of `n` octaves is in range, so is every octave before it. -/
theorem forall_octaveOk_iff_last {x y : F64} (hx : f64IsFinite x = true) (hy : f64IsFinite y = true) {n : Nat}
    (hn : n ≤ 255) : (∀ k, k < n → OctaveOk x y k) ↔ (0 < n → OctaveOk x y (n - 1)) := by
  constructor
  · intro hall hpos
    exact hall (n - 1) (by omega)
  · intro hlast k hk
    obtain ⟨hxlast, hylast⟩ := hlast (by omega)
    exact ⟨f64Mul_octaveFreq_finite_of_le hx (by omega) (by omega) hxlast,
      f64Mul_octaveFreq_finite_of_le hy (by omega) (by omega) hylast⟩

/-- Settles O46: the frequencies rise, so the last octave's scaled coordinates are the largest. -/
theorem lastOctaveDecidesOperandCheck : Obligations.LastOctaveDecidesOperandCheck := by
  intro x y o
  refine ⟨fbmOperandsOk_iff x y o, (fbmOperandsOk_iff x y o).trans ?_⟩
  refine and_congr_right fun hx => and_congr_right fun hy => ?_
  exact forall_octaveOk_iff_last hx hy (by have := o.isLt; omega)

/-! ## Finiteness -/

/-- One octave's term is at most 2^17 and doubles the sum's bound at most. -/
theorem fbmLoop_atMost (pt : Memory) {x y : F64} {n k : Nat} {sum amp freq : F64} (hsum : AtMost sum (2 ^ k * f64One))
    (hamp : AtMost amp (2 ^ 0 * f64One)) (hscaled : scaledFinite x y n freq = true) (hk : 17 ≤ k) (hkn : k + n ≤ 1023) :
    AtMost (fbmLoop pt x y n sum amp freq) (2 ^ (k + n) * f64One) := by
  induction n generalizing k sum amp freq with
  | zero => exact hsum
  | succ n ih =>
    rw [scaledFinite, Bool.and_eq_true, Bool.and_eq_true] at hscaled
    obtain ⟨⟨hxs, hys⟩, hrest⟩ := hscaled
    have hterm := hamp.mul (noise2d_atMost pt hxs hys) (by decide)
    have hsum' := hsum.add (hterm.widen (by omega)) (by omega)
    have hloop := ih hsum' (hamp.mul atMost_half (by decide)) hrest (by omega) (by omega)
    rwa [Nat.add_right_comm, Nat.add_assoc] at hloop

/-- Settles O43: at most 255 octaves leave the sum at most 2^272. -/
theorem fbmIsFinite : Obligations.FbmIsFinite := by
  intro pt x y o hok
  rw [fbmOperandsOk, Bool.and_eq_true] at hok
  obtain ⟨_, hscaled⟩ := hok
  have hcount : o.toNat ≤ 255 := by have := o.isLt; omega
  exact (fbmLoop_atMost pt (k := 17) (atMost_zero _) atMost_one hscaled le_rfl (by omega)).finite

/-! ## Few octaves -/

theorem fbm_zero (pt : Memory) (x y : F64) : fbm pt x y 0#8 = 0#64 := rfl

theorem fbm_one (pt : Memory) (x y : F64) :
    fbm pt x y 1#8 = f64Add f64Zero (f64Mul f64OneVal (noise2d pt (f64Mul x freq0) (f64Mul y freq0))) := rfl

/-- Settles O45: the one octave's noise is multiplied by 1.0 and added to +0.0. -/
theorem fbmOfFewOctaves : Obligations.FbmOfFewOctaves := by
  intro pt x y
  refine ⟨fbm_zero pt x y, fun hx hy => ?_⟩
  have hnoise := noiseIsFinite pt _ _ hx hy
  rw [fbm_one, f64Mul_one_left hnoise, f64Add_zero_left hnoise]

/-! ## The sum is R171's -/

/-- The loop with `n` octaves to go, from where R171's stands after `k`, ends where that stands after `k + n`. -/
theorem fbmLoop_octavesSpec (pt : Memory) (x y : F64) (n k : Nat) :
    fbmLoop pt x y n (octavesSpec pt x y k).1 (octavesSpec pt x y k).2.1 (octavesSpec pt x y k).2.2 =
      (octavesSpec pt x y (k + n)).1 := by
  induction n generalizing k with
  | zero => rfl
  | succ n ih =>
    rw [fbmLoop, noise2d_eq_noiseSpec, ← Nat.add_assoc, Nat.add_right_comm]
    exact ih (k + 1)

theorem fbm_eq_fbmSpec (pt : Memory) (x y : F64) (octaves : Byte) : fbm pt x y octaves = fbmSpec pt x y octaves := by
  have hloop := fbmLoop_octavesSpec pt x y octaves.toNat 0
  rwa [Nat.zero_add] at hloop

/-- Settles O16: the engine's step of FBM_EVAL writes the two halves of the octave sum. -/
theorem fbmEvalCompletes : Obligations.FbmEvalCompletes := by
  intro s l seq hbusy
  have hword : (0x00000011#32 : Word) = encode .fbmEval := by decide
  rw [hword] at hbusy
  exact ⟨_, exec_of_commandStep hbusy rfl, setResult_result _ _, fbm_eq_fbmSpec s.pt l.x l.y l.octaves, rfl⟩

end Sys2Proof.FbmRules
end

section
/-! O17 to O19 and O47 to O49: a scalar to an intensity and an intensity to a colour (43_color_mapper.md R180 to R188). Of a
finite scalar `t3` is a number or an infinity, never a NaN, so rounding and narrowing are R181's and R182's formulas on it; the
octave sum of admitted operands is such a scalar (O43). -/

namespace Sys2Proof.ColorRules

open Sys2Proof Sys2Proof.Machine Sys2Proof.Statements Sys2Proof.Rounding Sys2Proof.StatusRules Sys2Proof.NoiseRules
  Sys2Proof.FbmRules

/-! ## Rounding half away from zero -/

theorem roundHalfAway_finite {t : F64} (ht : f64IsFinite t = true) :
    roundHalfAway t = .int (signed (f64Sign t) ((2 * f64Mag t + f64One) / (2 * f64One))) := by
  unfold roundHalfAway
  simp only [finite_not_nan ht, finite_not_inf ht, Bool.false_eq_true, if_false]
  rfl

theorem roundHalfAway_posInf : roundHalfAway 0x7FF0000000000000#64 = .posInf := by decide

theorem roundHalfAway_negInf : roundHalfAway 0xFFF0000000000000#64 = .negInf := by decide

/-- `floor(m + 1/2)` on units is a nearest integer, and the greater of two. -/
theorem round_half_up_nearest (m : Nat) {one : Nat} (hone : 0 < one) :
    2 * |((2 * m + one) / (2 * one) : Nat) * (one : Int) - m| ≤ one ∧
      (2 * |((2 * m + one) / (2 * one) : Nat) * (one : Int) - m| = one → m < (2 * m + one) / (2 * one) * one) := by
  have hlow := Nat.div_mul_le_self (2 * m + one) (2 * one)
  have hhigh := Nat.lt_div_mul_add (a := 2 * m + one) (b := 2 * one) (by omega)
  rw [Nat.mul_left_comm] at hlow hhigh
  rw [← Nat.cast_mul]
  generalize (2 * m + one) / (2 * one) * one = k at hlow hhigh ⊢
  rcases abs_cases ((k : Int) - m) with ⟨habs, _⟩ | ⟨habs, _⟩ <;> rw [habs] <;> omega

/-- Settles O47: the sign drops out of every distance, which leaves `round_half_up_nearest` on the magnitude. -/
theorem roundHalfAwayFromZero : Obligations.RoundHalfAwayFromZero := by
  intro t
  refine ⟨fun ht => ⟨_, roundHalfAway_finite ht, ?_⟩, ?_, ?_⟩
  · obtain ⟨hnear, htie⟩ := round_half_up_nearest (f64Mag t) f64One_pos
    rw [← f64One_cast, f64Units_eq_signed, abs_sub_comm, abs_signed_mul_sub_signed, abs_mul, abs_signed, abs_signed,
      Nat.abs_cast]
    exact ⟨hnear, fun h => by exact_mod_cast htie h⟩
  · rintro rfl
    exact roundHalfAway_posInf
  · rintro rfl
    exact roundHalfAway_negInf

/-! ## Narrowing -/

/-- SATURATE's clamp as one formula. -/
theorem narrow_saturate_int (t : F64) (n : Int) : narrow .saturate t (.int n) = BitVec.ofInt 8 (max 0 (min 255 n)) := by
  unfold narrow
  by_cases hlow : n ≤ 0
  · have hclamp : max 0 (min 255 n) = 0 := by omega
    simp only [if_pos hlow, hclamp]
    rfl
  · by_cases hhigh : 255 ≤ n
    · have hclamp : max 0 (min 255 n) = 255 := by omega
      simp only [if_neg hlow, if_pos hhigh, hclamp]
      rfl
    · have hclamp : max 0 (min 255 n) = (n.toNat : Int) := by omega
      simp only [if_neg hlow, if_neg hhigh, hclamp, BitVec.ofInt_natCast]

/-- Settles O48: under SATURATE by the clamp's formula, which is below 256; under WRAP by the definition. -/
theorem narrowingOfIntegers : Obligations.NarrowingOfIntegers := by
  refine ⟨rfl, fun t n => ⟨?_, rfl, rfl, ?_⟩⟩
  · rw [narrow_saturate_int, BitVec.toNat_ofInt]
    omega
  · have hwrap : narrow .wrap t (.int n) = BitVec.ofNat 8 (n % 256).toNat := rfl
    rw [hwrap, BitVec.toNat_ofNat]
    omega

/-! ## The intensity of a finite scalar -/

theorem f64IsNaN_pack (neg : Bool) {mag : Nat} (h : mag ≤ f64InfMag) : f64IsNaN (f64Pack neg mag) = false := by
  rw [Bool.eq_false_iff, ne_eq, f64IsNaN_iff, magPattern_pack neg mag (h.trans_lt f64InfMag_lt)]
  omega

theorem inf_not_nan {a : F64} (h : f64IsInf a = true) : f64IsNaN a = false := by
  rw [f64IsInf_iff] at h
  rw [Bool.eq_false_iff, ne_eq, f64IsNaN_iff]
  omega

theorem inf_not_finite {a : F64} (h : f64IsInf a = true) : f64IsFinite a = false := by
  rw [f64IsInf_iff] at h
  rw [Bool.eq_false_iff, ne_eq, f64IsFinite_iff]
  omega

theorem finite_or_inf_of_not_nan {a : F64} (h : f64IsNaN a = false) : f64IsFinite a = true ∨ f64IsInf a = true := by
  rw [Bool.eq_false_iff, ne_eq, f64IsNaN_iff] at h
  rw [f64IsFinite_iff, f64IsInf_iff]
  omega

theorem inf_eq_pattern {a : F64} (h : f64IsInf a = true) : a = 0x7FF0000000000000#64 ∨ a = 0xFFF0000000000000#64 := by
  rw [← f64Pack_self a, (f64IsInf_iff a).1 h, f64Pack_inf]
  cases f64Sign a
  · exact Or.inl rfl
  · exact Or.inr rfl

theorem f64Add_not_nan {a b : F64} (ha : f64IsFinite a = true) (hb : f64IsFinite b = true) :
    f64IsNaN (f64Add a b) = false := by
  rw [f64Add_finite ha hb]
  split
  · exact f64IsNaN_pack _ (Nat.zero_le _)
  · exact f64IsNaN_pack _ (f64RoundMag_le_inf _ _)

/-- A number other than zero times an infinity is the infinity of the product's sign. -/
theorem f64Mul_inf_right {a b : F64} (ha : f64IsFinite a = true) (h0 : f64Mag a ≠ 0) (hb : f64IsInf b = true) :
    f64Mul a b = f64Pack (f64Sign a != f64Sign b) f64InfMag := by
  unfold f64Mul
  simp [finite_not_nan ha, inf_not_nan hb, inf_not_finite hb, hb, h0]

/-- An infinity over a finite value is the infinity of the quotient's sign. -/
theorem f64Div_inf_left {a b : F64} (ha : f64IsInf a = true) (hb : f64IsFinite b = true) :
    f64Div a b = f64Pack (f64Sign a != f64Sign b) f64InfMag := by
  unfold f64Div
  simp [inf_not_nan ha, finite_not_nan hb, finite_not_inf hb, ha]

theorem f64Mul_not_nan {a b : F64} (ha : f64IsFinite a = true) (h0 : f64Mag a ≠ 0) (hb : f64IsNaN b = false) :
    f64IsNaN (f64Mul a b) = false := by
  rcases finite_or_inf_of_not_nan hb with hfin | hinf
  · rw [f64Mul_finite ha hfin]
    exact f64IsNaN_pack _ (f64RoundMag_le_inf _ _)
  · rw [f64Mul_inf_right ha h0 hinf]
    exact f64IsNaN_pack _ le_rfl

theorem f64Div_not_nan {a b : F64} (ha : f64IsNaN a = false) (hb : f64IsFinite b = true) (h0 : f64Mag b ≠ 0) :
    f64IsNaN (f64Div a b) = false := by
  rcases finite_or_inf_of_not_nan ha with hfin | hinf
  · rw [f64Div_finite hfin hb h0]
    exact f64IsNaN_pack _ (f64RoundMag_le_inf _ _)
  · rw [f64Div_inf_left hinf hb]
    exact f64IsNaN_pack _ le_rfl

theorem f64Mag_twoFiftyFive_ne_zero : f64Mag f64TwoFiftyFive ≠ 0 := (f64Mag_eq_zero_iff _).not.2 (by decide)

theorem f64Mag_two_ne_zero : f64Mag f64Two ≠ 0 := (f64Mag_eq_zero_iff _).not.2 (by decide)

/-- `t3` of a finite scalar may be an infinity, but its factor 255.0 and divisor 2.0 are numbers other than zero. -/
theorem intensityScaled_not_nan {v : F64} (hv : f64IsFinite v = true) : f64IsNaN (intensityScaled v) = false :=
  f64Div_not_nan (f64Mul_not_nan (by decide) f64Mag_twoFiftyFive_ne_zero (f64Add_not_nan hv (by decide))) (by decide)
    f64Mag_two_ne_zero

/-- R181's `sign(t) * floor(|t| + 1/2)` on the signed units is the magnitude's rounding with the sign put back. -/
theorem sign_mul_round_half_up (neg : Bool) (m : Nat) {one : Nat} (hone : 0 < one) :
    (signed neg m).sign * ((2 * |signed neg m| + one) / (2 * one)) = signed neg ((2 * m + one) / (2 * one)) := by
  rcases Nat.eq_zero_or_pos m with rfl | hm
  · have hzero : (2 * 0 + one) / (2 * one) = 0 := Nat.div_eq_of_lt (by omega)
    rw [hzero, signed_zero, Int.sign_zero, zero_mul]
  · rw [sign_signed neg hm, abs_signed]
    have hmul := signed_mul_signed neg false 1 ((2 * m + one) / (2 * one))
    rw [Bool.bne_false, Nat.one_mul, signed_false] at hmul
    exact_mod_cast hmul

/-- For a finite scalar the machine's SATURATE intensity is R180 to R182's. -/
theorem intensityUnder_saturate_eq_spec {v : F64} (hv : f64IsFinite v = true) :
    intensityUnder .saturate v = intensitySpec v := by
  have hspec : intensitySpec v =
      if intensityScaled v = 0x7FF0000000000000#64 then 255#8
      else if intensityScaled v = 0xFFF0000000000000#64 then 0#8
      else BitVec.ofInt 8 (max 0 (min 255 ((f64Units (intensityScaled v)).sign *
        ((2 * |f64Units (intensityScaled v)| + 2 ^ 1074) / (2 * 2 ^ 1074))))) := rfl
  rw [hspec, intensityUnder]
  have hnan := intensityScaled_not_nan hv
  generalize intensityScaled v = t at hnan ⊢
  rcases (finite_or_inf_of_not_nan hnan).imp_right inf_eq_pattern with hfin | rfl | rfl
  · have hpos : t ≠ 0x7FF0000000000000#64 := by rintro rfl; exact absurd hfin (by decide)
    have hneg : t ≠ 0xFFF0000000000000#64 := by rintro rfl; exact absurd hfin (by decide)
    rw [if_neg hpos, if_neg hneg, roundHalfAway_finite hfin, narrow_saturate_int, ← f64One_cast, f64Units_eq_signed,
      sign_mul_round_half_up _ _ f64One_pos]
  · rw [roundHalfAway_posInf, if_pos rfl]
    rfl
  · rw [roundHalfAway_negInf, if_neg (by decide), if_pos rfl]
    rfl

/-- Settles O17: the engine's step of INTENSITY_MAP, on the latched X. -/
theorem intensityMapCompletes : Obligations.IntensityMapCompletes := by
  intro s l seq hbusy
  have hword : (0x00000012#32 : Word) = encode .intensityMap := by decide
  rw [hword] at hbusy
  exact ⟨exec_of_commandStep hbusy rfl, intensityUnder_saturate_eq_spec⟩

/-! ## The colour of an intensity -/

/-- Settles O49: in each band the sums stay below 256, so byte addition does not wrap. -/
theorem colorBandsNeverWrap : Obligations.ColorBandsNeverWrap := by
  intro i
  simp only [colorOf]
  split_ifs with hfirst hsecond hthird
  · refine ⟨rfl, fun _ => ?_, by omega, by omega, by omega⟩
    rw [BitVec.toNat_add_of_lt (by bv_omega), BitVec.toNat_add_of_lt (by bv_omega)]
    rfl
  · refine ⟨rfl, by omega, fun _ _ => ?_, by omega, by omega⟩
    rw [BitVec.toNat_add_of_lt (by bv_omega)]
    rfl
  · refine ⟨rfl, by omega, by omega, fun _ _ => ?_, by omega⟩
    rw [BitVec.toNat_add_of_lt (by bv_omega)]
    rfl
  · exact ⟨rfl, by omega, by omega, by omega, fun _ => rfl⟩

/-- A pixel word is the weighted sum of its channels (R185). -/
theorem packPixel_eq_ofNat (c : Rgba) :
    packPixel c = BitVec.ofNat 32 (c.a.toNat * 2 ^ 24 + c.b.toNat * 2 ^ 16 + c.g.toNat * 2 ^ 8 + c.r.toNat) := by
  have hsum : (packPixel c).toNat = c.a.toNat * 2 ^ 24 + c.b.toNat * 2 ^ 16 + c.g.toNat * 2 ^ 8 + c.r.toNat := by
    rw [packPixel, toNat_append_eq, toNat_append_eq, toNat_append_eq]
    ring
  rw [← hsum, BitVec.ofNat_toNat, BitVec.setWidth_eq]

/-- The machine's colour word is R183's and R185's: the reductions there change nothing (O49). -/
theorem packPixel_colorOf (i : Byte) : packPixel (colorOf i) = colorWordSpec i.toNat := by
  obtain ⟨halpha, hfirst, hsecond, hthird, hfourth⟩ := colorBandsNeverWrap i
  simp only [Prod.mk.injEq] at hfirst hsecond hthird hfourth
  rw [packPixel_eq_ofNat, halpha, colorWordSpec]
  split_ifs with h100 h140 h210
  · obtain ⟨hr, hg, hb⟩ := hfirst h100
    rw [hr, hg, hb, Nat.mod_eq_of_lt (by omega : i.toNat + 155 < 256), Nat.mod_eq_of_lt (by omega : i.toNat + 65 < 256)]
    rfl
  · obtain ⟨hr, hg, hb⟩ := hsecond (by omega) h140
    rw [hr, hg, hb, Nat.mod_eq_of_lt (by omega : i.toNat + 60 < 256)]
    rfl
  · obtain ⟨hr, hg, hb⟩ := hthird (by omega) h210
    rw [hr, hg, hb, Nat.mod_eq_of_lt (by omega : i.toNat + 45 < 256)]
    rfl
  · obtain ⟨hr, hg, hb⟩ := hfourth (by omega)
    rw [hr, hg, hb]
    rfl

/-- Settles O18: the engine's step of COLOR_MAP, on the latched immediate. -/
theorem colorMapCompletes : Obligations.ColorMapCompletes := by
  intro s imm8 l seq hbusy hl
  subst hl
  rw [← packPixel_colorOf]
  exact exec_of_commandStep hbusy rfl

/-! ## One pixel -/

/-- Settles O19: the engine's step of PIXEL_EVAL; the octave sum of admitted operands is finite (O43), so its intensity
is R180's. -/
theorem pixelEvalCompletes : Obligations.PixelEvalCompletes := by
  intro s l seq hbusy
  have hword : (0x00000021#32 : Word) = encode .pixelEval := by decide
  rw [hword] at hbusy
  rw [← fbm_eq_fbmSpec]
  refine ⟨_, exec_of_commandStep hbusy rfl, setResult_result _ (finish s), rfl, fun hok => ?_,
    packPixel_colorOf _, rfl⟩
  exact intensityUnder_saturate_eq_spec (fbmIsFinite s.pt l.x l.y l.octaves hok)

end Sys2Proof.ColorRules
end

section
/-! O20 to O23: what a RENDER's engine step does (44_render.md R200 to R206). The step has four cases, an equation each: a pixel
is produced, Q is full, the frame is complete, Q still drains. A frame's coordinates are below 2^16 and the octave frequencies at
most 2^254, so every octave sum of a frame is finite and its pixel word R201's. -/

namespace Sys2Proof.RenderRules

open Sys2Proof Sys2Proof.Machine Sys2Proof.Statements Sys2Proof.StepRules Sys2Proof.Encoding Sys2Proof.FbmRules
  Sys2Proof.ColorRules

/-! ## The word of a pixel -/

theorem f64OfInt_atMost {n : Int} {k : Nat} (hn : n.natAbs ≤ 2 ^ k) (hk : k ≤ 1023) :
    AtMost (f64OfInt n) (2 ^ k * f64One) := by
  refine atMost_pack_round _ _ 1 k one_pos hk ?_
  rw [mul_one]
  exact Nat.mul_le_mul_right _ hn

/-- FREQ0 is below 1.0, and each octave doubles it (R170). -/
theorem octaveFreq_atMost {k : Nat} (hk : k ≤ 254) : AtMost (octaveFreq k) (2 ^ k * f64One) := by
  refine ⟨f64IsFinite_octaveFreq hk, ?_⟩
  rw [f64Mag_eq, ← magUnits_two_pow, magUnits_le_iff, magPattern_octaveFreq hk]
  omega

/-- A pixel index scaled by an octave's frequency is at most 2^(16 + 254). -/
theorem scaledIndex_finite {n k : Nat} (hn : n < 65536) (hk : k ≤ 254) :
    f64IsFinite (f64Mul (f64OfInt n) (octaveFreq k)) = true := by
  have hindex : AtMost (f64OfInt n) (2 ^ 16 * f64One) := f64OfInt_atMost (by omega) (by decide)
  exact (hindex.mul (octaveFreq_atMost hk) (by omega)).finite

/-- Every pixel index of a frame passes FBM_EVAL's operand check, whatever the octave count: RENDER needs no such check (R200). -/
theorem fbmOperandsOk_index {px py : Nat} (hx : px < 65536) (hy : py < 65536) (octaves : Byte) :
    fbmOperandsOk (f64OfInt px) (f64OfInt py) octaves = true := by
  have hindex : ∀ n : Nat, n < 65536 → f64IsFinite (f64OfInt n) = true := fun n hn =>
    (f64OfInt_atMost (k := 16) (by omega) (by decide)).finite
  refine (fbmOperandsOk_iff _ _ octaves).2 ⟨hindex px hx, hindex py hy, fun k hk => ?_⟩
  have hlast : k ≤ 254 := by have := octaves.isLt; omega
  exact ⟨scaledIndex_finite hx hlast, scaledIndex_finite hy hlast⟩

/-- The machine's pixel word is R201's. -/
theorem pixelWord_eq_pixelSpec (pt : Memory) (octaves : Byte) {px py : Nat} (hx : px < 65536) (hy : py < 65536) :
    pixelWord pt octaves px py = pixelSpec pt octaves px py := by
  have hfinite := fbmIsFinite pt _ _ octaves (fbmOperandsOk_index hx hy octaves)
  have hintensity := intensityUnder_saturate_eq_spec hfinite
  rw [pixelSpec, ← fbm_eq_fbmSpec, ← hintensity, ← packPixel_colorOf]
  rfl

/-! ## The engine step -/

theorem encode_render : encode .render = 0x00000030#32 := by decide

theorem exec_render_busy {s : State} {l : Latched} {p : RenderSeq} (h : s.engine = .busy 0x00000030#32 l (some p)) :
    exec .render s = .next (renderStep 0x00000030#32 l p s) :=
  exec_of_commandStep (i := .render) h ⟨p, rfl, rfl⟩

section
variable {l : Latched} {p : RenderSeq} {s : State} (cmd : Word)

theorem renderStep_produces (hleft : p.produced < frameSize l) (hroom : s.q.length < Config.pixFifoDepth) :
    renderStep cmd l p s = producePixel cmd l p s :=
  (if_pos hleft).trans (if_pos hroom)

theorem renderStep_full (hleft : p.produced < frameSize l) (hfull : s.q.length = Config.pixFifoDepth) :
    renderStep cmd l p s = s :=
  (if_pos hleft).trans (if_neg hfull.not_lt)

theorem renderStep_completes (hall : p.produced = frameSize l) (hempty : s.q = []) : renderStep cmd l p s = finish s :=
  (if_neg hall.not_lt).trans (if_pos ⟨hall, hempty⟩)

theorem renderStep_drains (hall : p.produced = frameSize l) (hqueued : s.q ≠ []) : renderStep cmd l p s = s :=
  (if_neg hall.not_lt).trans (if_neg fun h => hqueued h.2)

end

/-- Settles O21: the two cases of the step in which nothing is enabled. -/
theorem renderHoldsOnFullQueue : Obligations.RenderHoldsOnFullQueue := by
  intro s l p hbusy hhold
  rw [exec_render_busy hbusy]
  rcases hhold with ⟨hleft, hfull⟩ | ⟨hall, hqueued⟩
  · rw [renderStep_full _ hleft hfull]
  · rw [renderStep_drains _ hall hqueued]

/-- Settles O20: the step is `producePixel`, and its word R201's by `pixelWord_eq_pixelSpec`. -/
theorem renderProducesNextPixel : Obligations.RenderProducesNextPixel := by
  intro s l p hbusy hleft hroom
  refine ⟨?_, pixelWord_eq_pixelSpec s.pt l.octaves⟩
  rw [exec_render_busy hbusy, renderStep_produces _ hleft hroom]
  rfl

/-- Settles O22: the step is `finish`; the invariant counts every produced pixel as taken or queued, and none is queued. -/
theorem renderCompletes : Obligations.RenderCompletes := by
  intro s l p hbusy hall hempty
  constructor
  · rw [exec_render_busy hbusy, renderStep_completes _ hall hempty]
    rfl
  · intro hinv
    obtain ⟨_, hframe⟩ := (streamOk_iff_of_seq hbusy).1 hinv.stream
    have hcount := hframe.count
    rwa [hempty, List.length_nil, Nat.add_zero, hall] at hcount

/-! ## A frame of zero size -/

/-- The size of the frame that a command latches, on the bits of DIMS (R31). -/
theorem frameSize_latch (w : Word) (s : State) :
    frameSize (latch w s) = s.dims.toNat % 2 ^ 16 * (s.dims.toNat / 2 ^ 16) := by
  have hheight : s.dims.toNat / 2 ^ 16 < 2 ^ 16 := by have := s.dims.isLt; omega
  rw [latch_eq_latchOf, frameSize, latchOf, BitVec.toNat_ofNat, BitVec.toNat_ofNat, Nat.mod_eq_of_lt hheight]

/-- An idle engine accepts a RENDER when there is a table (R200). -/
theorem exec_render_accepts {s : State} (hidle : s.engine = .idle) (htable : s.tableState ≠ .none) :
    exec .render s = .next (acceptRender 0x00000030#32 s) := by
  have hcheck : commandCheck .render s = none := if_neg htable
  rw [exec_idle .render hidle, hcheck, ← encode_render]
  rfl

theorem exec_render_noTable {s : State} (hidle : s.engine = .idle) (htable : s.tableState = .none) :
    exec .render s = .next (recordFault .noTable 0x00000030#32 s) := by
  have hcheck : commandCheck .render s = some .noTable := if_pos htable
  rw [exec_idle .render hidle, hcheck, ← encode_render]

/-- Settles O23: all 0 pixels are produced at acceptance, so the first engine step completes. -/
theorem renderOfZeroSize : Obligations.RenderOfZeroSize := by
  intro s hidle hempty hzero
  refine ⟨fun htable => ?_, exec_render_noTable hidle⟩
  have hall : 0 = frameSize (latch 0x00000030#32 s) := by
    rw [frameSize_latch]
    exact (Nat.mul_eq_zero.2 hzero).symm
  refine ⟨_, _, exec_render_accepts hidle htable, rfl, exec_render_busy rfl, ?_⟩
  rw [renderStep_completes (s := acceptRender _ s) _ hall hempty, finish, ← hidle]
  rfl

end Sys2Proof.RenderRules
end

section
/-! O60: a whole RENDER, its engine and sink taking turns (44_render.md R202 to R205, 20_memory.md R76). `delivered` is the state
after `n` such pairs of turns, written out; one more pair leads to the next, and after all of the frame's the engine's turn
completes the command. -/

namespace Sys2Proof.RenderRules

open Sys2Proof Sys2Proof.Machine Sys2Proof.Statements Sys2Proof.StepRules

/-! ## Runs and turns -/

theorem runSteps_succ {k : Nat} {s t : State} (h : step s = .next t) : runSteps (k + 1) s = runSteps k t := by
  rw [runSteps, h]

theorem runSteps_add {j : Nat} (k : Nat) {s t : State} (h : runSteps j s = .next t) :
    runSteps (j + k) s = runSteps k t := by
  induction j generalizing s with
  | zero =>
    cases h
    rw [Nat.zero_add]
  | succ j ih =>
    cases hstep : step s with
    | next u =>
      rw [runSteps_succ hstep] at h
      rw [Nat.succ_add, runSteps_succ hstep, ih h]
    | fault r => rw [runSteps, hstep] at h; cases h
    | refused r => rw [runSteps, hstep] at h; cases h

section
variable {s : State} {rest : List Turn}

theorem step_of_turn {turn : Turn} (hrst : s.env.rstN = true) (hturns : s.env.turns = turn :: rest) :
    step s = takeTurn exec turn { s with env := { s.env with turns := rest } } := by
  unfold step scheduledStep
  rw [hturns]
  exact if_pos hrst

/-- The engine's turn with a RENDER in flight (R225). -/
theorem step_render {l : Latched} {p : RenderSeq} (hrst : s.env.rstN = true) (hturns : s.env.turns = .engine :: rest)
    (hbusy : s.engine = .busy 0x00000030#32 l (some p)) :
    step s = .next (renderStep 0x00000030#32 l p { s with env := { s.env with turns := rest } }) := by
  have hdecode : decode 0x00000030#32 = .command .render := by decide
  rw [step_of_turn hrst hturns, takeTurn, engineTurn]
  simp only [hbusy, hdecode]
  rw [exec_render_busy (l := l) (p := p) rfl]

theorem step_sink (hrst : s.env.rstN = true) (hturns : s.env.turns = .sink :: rest) :
    step s = .next (sinkTransfer { s with env := { s.env with turns := rest } }) :=
  step_of_turn hrst hturns

end

/-! ## A pair of turns -/

/-- The sequencer at the `n`-th pixel in row-major order (R202). -/
def seqAt (l : Latched) (n : Nat) : RenderSeq := ⟨n % l.width.toNat, n / l.width.toNat, n⟩

/-- A position within its row that agrees with its pixel's number is that pixel's. -/
theorem eq_seqAt {l : Latched} {p : RenderSeq} (hposition : p.produced = p.ry * l.width.toNat + p.rx)
    (hcolumn : p.rx < l.width.toNat) : p = seqAt l p.produced := by
  obtain ⟨hrow, hcol⟩ := (Nat.div_mod_unique (Nat.zero_lt_of_lt hcolumn)).2
    ⟨(by rw [hposition, Nat.mul_comm, Nat.add_comm] : p.rx + l.width.toNat * p.ry = p.produced), hcolumn⟩
  rw [seqAt, hrow, hcol]

theorem advanceSeq_seqAt {l : Latched} {n : Nat} (h : n < frameSize l) : advanceSeq l (seqAt l n) = seqAt l (n + 1) := by
  have hwidth : 0 < l.width.toNat := Nat.pos_of_mul_pos_right (Nat.zero_lt_of_lt h)
  have hposition : (seqAt l n).produced = (seqAt l n).ry * l.width.toNat + (seqAt l n).rx := (Nat.div_add_mod' ..).symm
  have hnext := eq_seqAt (advanceSeq_position hposition) (advanceSeq_column (p := seqAt l n) (Nat.mod_lt n hwidth))
  rwa [advanceSeq_produced] at hnext

/-- What a RENDER of `l` accepted in `s` has become once the sink has the first `n` pixels and `rest` is scheduled. -/
def delivered (l : Latched) (n : Nat) (rest : List Turn) (s : State) : State :=
  { s with
    engine := .busy 0x00000030#32 l (some (seqAt l n)), q := [], pixelCount := BitVec.ofNat 32 n,
    env := { s.env with turns := rest, received := s.env.received ++ framePrefix s.pt l n } }

/-- The engine produces pixel `n` and the sink takes it. -/
theorem runSteps_delivered {l : Latched} {n : Nat} (h : n < frameSize l) (rest : List Turn) {s : State}
    (hrst : s.env.rstN = true) :
    runSteps 2 (delivered l n (.engine :: .sink :: rest) s) = .next (delivered l (n + 1) rest s) := by
  have hproduce : step (delivered l n (.engine :: .sink :: rest) s) =
      .next (producePixel 0x00000030#32 l (seqAt l n) (delivered l n (.sink :: rest) s)) := by
    rw [step_render (s := delivered _ _ _ s) hrst rfl rfl]
    exact congrArg _ (renderStep_produces _ h (Nat.succ_pos _))
  have htake : step (producePixel 0x00000030#32 l (seqAt l n) (delivered l n (.sink :: rest) s)) =
      .next (delivered l (n + 1) rest s) := by
    rw [step_sink (s := producePixel _ _ _ (delivered _ _ _ s)) (rest := rest) hrst rfl, sinkTransfer_cons rfl]
    unfold delivered
    rw [framePrefix_succ, ← List.append_assoc, ← advanceSeq_seqAt h, BitVec.ofNat_add]
    rfl
  rw [runSteps_succ hproduce, runSteps_succ htake, runSteps]

/-- Acceptance leaves what 0 pairs of turns do (R200). -/
theorem delivered_zero {l : Latched} {s : State} (hbusy : s.engine = .busy 0x00000030#32 l (some ⟨0, 0, 0⟩))
    (hempty : s.q = []) (hcount : s.pixelCount = 0#32) : delivered l 0 s.env.turns s = s := by
  have hstart : seqAt l 0 = ⟨0, 0, 0⟩ := by rw [seqAt, Nat.zero_mod, Nat.zero_div]
  have hnone : framePrefix s.pt l 0 = [] := rfl
  rw [delivered, hstart, hnone, List.append_nil, ← hbusy, ← hempty, ← hcount]

/-- `n` pairs of turns deliver the frame's first `n` pixels. -/
theorem runSteps_rounds {l : Latched} {n : Nat} (hn : n ≤ frameSize l) (rest : List Turn) {s : State}
    (hbusy : s.engine = .busy 0x00000030#32 l (some ⟨0, 0, 0⟩)) (hempty : s.q = []) (hcount : s.pixelCount = 0#32)
    (hrst : s.env.rstN = true)
    (hturns : s.env.turns = (List.replicate n [Turn.engine, Turn.sink]).flatten ++ rest) :
    runSteps (2 * n) s = .next (delivered l n rest s) := by
  induction n generalizing rest with
  | zero =>
    rw [show rest = s.env.turns from hturns.symm, delivered_zero hbusy hempty hcount]
    rfl
  | succ n ih =>
    have hprefix : s.env.turns = (List.replicate n [Turn.engine, Turn.sink]).flatten ++ (.engine :: .sink :: rest) := by
      rw [hturns, List.replicate_succ', List.flatten_append, List.append_assoc]
      rfl
    rw [Nat.mul_succ, runSteps_add 2 (ih (Nat.le_of_succ_le hn) _ hprefix), runSteps_delivered hn rest hrst]

/-- Settles O60: the frame's pairs of turns, then the engine's turn with every pixel produced and Q empty. -/
theorem renderDeliversFrame : Obligations.RenderDeliversFrame := by
  intro s l hbusy hempty hcount hrst hturns
  have hrounds := runSteps_rounds le_rfl _ hbusy hempty hcount hrst hturns
  refine ⟨finish (delivered l (frameSize l) [] s), ?_, rfl, rfl, rfl, ?_, rfl, rfl, rfl⟩
  · rw [runSteps_add 1 hrounds, runSteps_succ (step_render (s := delivered _ _ _ s) hrst rfl rfl)]
    exact congrArg _ (renderStep_completes _ rfl rfl)
  · exact Nat.mod_eq_of_lt (frameSize_lt l)

/-! ## A witness -/

/-- A 1 by 1 frame that the sink has taken meets the hypotheses of O22, the invariant included. -/
theorem witness_renderCompletes_inv :
    let d : State := { State.reset with tableState := .host, dims := 0x00010001#32 }
    let l : Latched := latch 0x00000030#32 d
    let s : State := delivered l 1 [] d
    s.engine = .busy 0x00000030#32 l (some (seqAt l 1)) ∧ (seqAt l 1).produced = l.width.toNat * l.height.toNat ∧
      s.q = [] ∧ Inv s := by
  intro d l s
  have hengine : EngineOk s :=
    (engineOk_iff_of_busy (s := s) rfl).2 ⟨.render, by decide, ⟨rfl, rfl, rfl⟩, (fun h => nomatch h), by decide⟩
  have hframe : FrameAt s l (seqAt l 1) := ⟨by decide, by decide, by decide, by decide, rfl⟩
  exact ⟨rfl, by decide, rfl, ⟨rfl, rfl⟩, (fun h => nomatch h), hengine,
    (streamOk_iff_of_seq (s := s) rfl).2 ⟨Nat.zero_le _, hframe⟩, heldOk_of_high rfl⟩

end Sys2Proof.RenderRules
end

section
/-! O5 to O7, O11, O24, O25, O54 and O59: control (45_control.md R220 to R226). What a turn runs is said once for the engine and
once for the host. That no turn stops (R250) then asks two things: a host transaction always answers, since a CMD write finds
the engine either idle or busy; and the command in flight has a step, since acceptance checked the index it names and made the
sequencer it needs. -/

namespace Sys2Proof.ControlRules

open Sys2Proof Sys2Proof.Machine Sys2Proof.Statements Sys2Proof.StepRules Sys2Proof.BusRules Sys2Proof.Encoding
open Sys2Proof.RenderRules (step_of_turn)

/-! ## What a turn runs -/

theorem engineTurn_busy (run : Instr → State → Result) {s : State} {cmd : Word} {l : Latched} {seq : Option RenderSeq}
    {i : Instr} (hbusy : s.engine = .busy cmd l seq) (hdecode : decode cmd = .command i) : engineTurn run s = run i s := by
  rw [engineTurn, hbusy]
  simp only [hdecode]

/-- Settles O6: the turn is the engine's where it is scheduled and where nothing is. -/
theorem engineTurnRunsCommandInFlight : Obligations.EngineTurnRunsCommandInFlight := by
  intro s w l seq i hrst hbusy hdecode hturns
  have hturn : s.env.turns.head?.getD .engine = .engine := by
    obtain h | h := hturns <;> rw [h] <;> rfl
  calc step s = anyTurn exec .engine (dropTurn s) := by rw [step_eq, hturn]
    _ = engineTurn exec (dropTurn s) := if_pos hrst
    _ = exec i (dropTurn s) := engineTurn_busy exec hbusy hdecode

/-- The host's turn issues its next transaction (20_memory.md R61). -/
theorem step_host {s : State} {ts : List Turn} {req : HostReq} {rest : List HostReq} (hrst : s.env.rstN = true)
    (hrsp : s.env.rsp = none) (hturns : s.env.turns = .host :: ts) (hreq : s.env.requests = req :: rest) :
    step s = hostTransact exec req { s with env := { s.env with turns := ts, requests := rest } } := by
  rw [step_of_turn hrst hturns, takeTurn, hostTurn]
  simp only [hrsp, hreq]

theorem writeCmd_of_decode (run : Instr → State → Result) {w : Word} {i : Instr} {s : State} (hidle : s.engine = .idle)
    (hdecode : decode w = .command i) : writeCmd run w s = run i s := by
  rw [writeCmd, (busy_eq_false_iff s).2 hidle]
  simp only [hdecode, Bool.false_eq_true, if_false]

/-- Settles O5: the transaction is the CMD write after its response, and the engine is idle. -/
theorem hostTurnRunsDecodedCommand : Obligations.HostTurnRunsDecodedCommand := by
  intro s w i rest ts hrst hrsp hidle hdecode hturns hreq
  rw [step_host hrst hrsp hturns hreq]
  exact (hostTransact_write_reg exec .cmd w _).trans (writeCmd_of_decode exec hidle hdecode)

/-- Settles O7: the state that `withFetchWord` makes is O5's, and the word of a command decodes to it (O1). -/
theorem fetchedWordRunsNext : Obligations.FetchedWordRunsNext := by
  intro s i hwf
  have hword : BitVec.ofNat 32 ((encode i).toNat % 2 ^ 32) = encode i := by
    rw [Nat.mod_eq_of_lt (encode i).isLt, BitVec.ofNat_toNat, BitVec.setWidth_eq]
  rw [State.withFetchWord, hword]
  exact hostTurnRunsDecodedCommand (withCommandWrite (encode i) s) (encode i) i s.env.requests s.env.turns rfl rfl rfl
    (decodeOfEncode i hwf) rfl rfl

/-- Settles O11: the engine's step of NOP is `finish`. -/
theorem nopCompletes : Obligations.NopCompletes := by
  intro s l seq hbusy
  exact exec_of_commandStep (i := .nop) hbusy rfl

/-! ## The CTRL write and the abort -/

section
variable {v : Word} {s : State}

theorem writeCtrl_softReset (hreset : v.getLsbD 0 = true) : writeCtrl v s = blockReset s := if_pos hreset

theorem writeCtrl_enables (hreset : v.getLsbD 0 = false) (habort : v.getLsbD 1 = false ∨ s.busy = false) :
    writeCtrl v s = { s with ieDone := v.getLsbD 2, ieErr := v.getLsbD 3 } := by
  have hno : (v.getLsbD 1 && s.busy) = false := Bool.and_eq_false_iff.2 habort
  exact (if_neg (Bool.eq_false_iff.1 hreset)).trans (if_neg (Bool.eq_false_iff.1 hno))

theorem writeCtrl_abort (hreset : v.getLsbD 0 = false) (habort : v.getLsbD 1 = true) (hbusy : s.busy = true) :
    writeCtrl v s = abortCommand { s with ieDone := v.getLsbD 2, ieErr := v.getLsbD 3 } :=
  (if_neg (Bool.eq_false_iff.1 hreset)).trans (if_pos (Bool.and_eq_true_iff.2 ⟨habort, hbusy⟩))

end

/-- Settles O24: the transaction is `writeCtrl` on the state with its response, in its three cases. -/
theorem ctrlWriteActs : Obligations.CtrlWriteActs := by
  intro v s
  have hwrite : hostTransact exec (.write 0x08#8 v 0xF#4) s = .next (writeCtrl v (respond ⟨false, none⟩ s)) :=
    hostTransact_write_reg exec .ctrl v s
  refine ⟨⟨false, none⟩, rfl, fun hreset => ?_, fun hreset habort => ?_, fun hreset habort hbusy => ?_⟩
  · exact hwrite.trans (congrArg _ (writeCtrl_softReset hreset))
  · exact hwrite.trans (congrArg _ (writeCtrl_enables hreset habort))
  · exact hwrite.trans (congrArg _ (writeCtrl_abort hreset habort hbusy))

/-- Settles O25: only PERM_BUILD's opcode leads to the fresh table, and that table has its wrap entry. -/
theorem abortEndsCommand : Obligations.AbortEndsCommand := by
  intro s cmd l seq hbusy
  have hopc : wordOpcode cmd = 0x01#8 ↔ cmd.toNat % 2 ^ 8 = 0x01 := by
    rw [← wordOpcode_toNat, ← BitVec.toNat_inj]; rfl
  rw [abortCommand_busy hbusy]
  refine ⟨fun hother => ?_, fun hbuild => ?_⟩
  · exact if_neg (mt hopc.1 hother)
  · rw [if_pos (hopc.2 hbuild)]
    exact ⟨rfl, wrapTable_unspecified s.env.draws⟩

/-! ## No turn stops -/

theorem writeReg_answers (r : Reg) (v : Word) (s : State) : ∃ t, writeReg exec r v s = .next t := by
  cases r with
  | cmd =>
    cases hengine : s.engine with
    | idle => exact ⟨_, writeCmd_idle v hengine⟩
    | busy cmd l seq => exact ⟨_, writeCmd_busy v (busy_of_engine hengine)⟩
  | _ => exact ⟨_, rfl⟩

/-- A host transaction answers in every state: malformed, a read, a reserved offset, or a register's write. -/
theorem hostTransact_answers (req : HostReq) (s : State) : ∃ t, hostTransact exec req s = .next t := by
  cases req with
  | read addr =>
    rw [hostTransact]
    split
    · exact ⟨_, rfl⟩
    · exact ⟨_, rfl⟩
  | write addr v strb =>
    rw [hostTransact]
    split
    · rw [writeOffset]
      split
      · exact writeReg_answers _ v _
      · exact ⟨_, rfl⟩
    · exact ⟨_, rfl⟩

/-- A table command's index is INDEX of its word (30_encoding.md R95). -/
theorem wordIndex_of_decode {w : Word} {i : Instr} {index : Nat} (h : decode w = .command i)
    (hi : (∃ data8, i = .permWrite index data8) ∨ i = .permRead index) : wordIndex w = index := by
  obtain ⟨_, hcommand⟩ := (decode_command_iff w i).1 h
  unfold commandOf at hcommand
  split at hcommand <;> cases hcommand
  case h_3 => simpa using hi
  case h_4 => simpa using hi
  all_goals simp at hi

/-- An admitted command has its engine step: the entry it names exists, and a RENDER has its sequencer. -/
theorem exists_commandStep {i : Instr} {cmd : Word} {l : Latched} {seq : Option RenderSeq} {ts : TableState}
    (hdecode : decode cmd = .command i) (hlatched : LatchedFieldsOk cmd l) (hadmitted : Admitted i l ts)
    (hseq : seq.isSome = true ↔ i = .render) (s : State) : ∃ t, CommandStep i l seq s t := by
  obtain ⟨hindex, _, _⟩ := hlatched
  cases i with
  | permWrite index data8 =>
    rw [wordIndex_of_decode hdecode (Or.inl ⟨data8, rfl⟩)] at hindex
    exact ⟨_, hindex.trans_le hadmitted, rfl⟩
  | permRead index =>
    rw [wordIndex_of_decode hdecode (Or.inr rfl)] at hindex
    exact ⟨_, hindex.trans_le hadmitted, rfl⟩
  | render =>
    obtain ⟨p, hp⟩ := Option.isSome_iff_exists.1 (hseq.2 rfl)
    exact ⟨_, p, hp, rfl⟩
  | _ => exact ⟨_, rfl⟩

/-- The engine's invariant gives the command in flight, and `exec` answers its step. -/
theorem exec_inFlight_answers {s : State} {cmd : Word} {l : Latched} {seq : Option RenderSeq} (hs : EngineOk s)
    (hbusy : s.engine = .busy cmd l seq) :
    ∃ i t, decode cmd = .command i ∧ CommandStep i l seq s t ∧ exec i s = .next t := by
  obtain ⟨i, hdecode, hlatched, hadmitted, hseq⟩ := (engineOk_iff_of_busy hbusy).1 hs
  obtain ⟨t, hstep⟩ := exists_commandStep hdecode hlatched hadmitted hseq s
  rw [← encode_of_decode hdecode] at hbusy
  exact ⟨i, t, hdecode, hstep, exec_of_commandStep hbusy hstep⟩

theorem engineTurn_answers {s : State} (hs : EngineOk s) : ∃ t, engineTurn exec s = .next t := by
  cases hengine : s.engine with
  | idle =>
    rw [engineTurn, hengine]
    exact ⟨s, rfl⟩
  | busy cmd l seq =>
    obtain ⟨i, t, hdecode, _, hexec⟩ := exec_inFlight_answers hs hengine
    exact ⟨t, (engineTurn_busy exec hengine hdecode).trans hexec⟩

theorem hostTurn_answers (s : State) : ∃ t, hostTurn exec s = .next t := by
  rw [hostTurn]
  split
  · exact hostTransact_answers _ _
  · exact ⟨s, rfl⟩

theorem takeTurn_answers {s : State} (hs : EngineOk s) (turn : Turn) : ∃ t, takeTurn exec turn s = .next t := by
  cases turn with
  | engine => exact engineTurn_answers hs
  | host => exact hostTurn_answers s
  | _ => exact ⟨_, rfl⟩

/-- Settles O54: with `rst_n` high every agent's turn answers, with it low the held turn does. -/
theorem stepNeverStops : Obligations.StepNeverStops := by
  intro s hs
  have hengine : EngineOk (dropTurn s) := hs.engine
  rw [step_eq, anyTurn]
  split
  · exact takeTurn_answers hengine _
  · exact ⟨_, rfl⟩

/-- Settles O59: the engine's turn runs the command in flight (O6), whose step completes it unless it is a RENDER. -/
theorem engineTurnCompletesCommand : Obligations.EngineTurnCompletesCommand := by
  intro s cmd l seq hs hbusy hrst hturn hopc
  have hengine : EngineOk (dropTurn s) := hs.engine
  obtain ⟨i, t, hdecode, hstep, hexec⟩ := exec_inFlight_answers hengine hbusy
  have hi : i ≠ .render := by
    rintro rfl
    exact hopc (opcode_toNat_of_decode hdecode)
  obtain ⟨_, herr, _, hcode, _, _, _, _, _, hcompletes⟩ := commandStep_frame hstep
  obtain ⟨hidle, hdone, _⟩ := hcompletes hi
  exact ⟨t, (engineTurnRunsCommandInFlight s cmd l seq i hrst hbusy hdecode (Or.inr hturn)).trans hexec, hidle, hdone, herr,
    hcode⟩

end Sys2Proof.ControlRules
end

section
/-! O9: the overrun (60_exceptions.md R249). What each operation of a step leaves in OVR is said once; of them only a STATUS
write and the two resets can clear it. -/

namespace Sys2Proof.OverrunRules

open Sys2Proof Sys2Proof.Machine Sys2Proof.BusRules Sys2Proof.Encoding Sys2Proof.ControlRules

/-! ## What sets OVR -/

/-- The host's turn on a CMD write while BUSY (R249). -/
theorem step_overrun {s : State} {w : Word} {rest : List HostReq} {ts : List Turn} (hrst : s.env.rstN = true)
    (hrsp : s.env.rsp = none) (hbusy : s.busy = true) (hturns : s.env.turns = .host :: ts)
    (hreq : s.env.requests = .write 0x10#8 w 0xF#4 :: rest) :
    step s = .next (rejectOverrun
      (respond ⟨false, none⟩ { s with env := { s.env with turns := ts, requests := rest } })) := by
  rw [step_host hrst hrsp hturns hreq]
  exact (hostTransact_write_reg exec .cmd w _).trans (writeCmd_busy w hbusy)

/-! ## What keeps OVR -/

theorem ovr_of_operandWrite {s t : State} (h : OperandWrite s t) : t.ovr = s.ovr := by
  unfold OperandWrite at h
  rw [h]

theorem ovr_takeResponse (s : State) : (takeResponse s).ovr = s.ovr := by
  unfold takeResponse
  split <;> rfl

theorem ovr_sinkTransfer (s : State) : (sinkTransfer s).ovr = s.ovr := by
  unfold sinkTransfer
  split <;> rfl

theorem ovr_abortCommand {s : State} (hbusy : s.busy = true) : (abortCommand s).ovr = s.ovr := by
  obtain ⟨cmd, l, seq, he⟩ := (busy_eq_true_iff s).1 hbusy
  rw [abortCommand_busy he]
  split <;> rfl

theorem ovr_commandAccept (i : Instr) (s : State) : (commandAccept i s).ovr = s.ovr := by
  cases i <;> rfl

/-- Neither half of a command, its acceptance or its engine step, touches OVR (R224, R225). -/
theorem ovr_exec {i : Instr} {s t : State} (h : exec i s = .next t) : t.ovr = s.ovr := by
  cases he : s.engine with
  | idle =>
    rw [exec_idle i he] at h
    cases hc : commandCheck i s with
    | none => rw [hc] at h; cases h; exact ovr_commandAccept i s
    | some code => rw [hc] at h; cases h; exact recordFault_ovr code _ s
  | busy cmd l seq =>
    obtain ⟨_, hstep⟩ := exec_busy_next he h
    obtain ⟨_, _, hovr, _⟩ := commandStep_frame hstep
    exact hovr

/-- A CMD write sets OVR exactly while BUSY and otherwise keeps it (R223). -/
theorem ovr_writeCmd {w : Word} {s t : State} (h : writeCmd exec w s = .next t) : t.ovr = (s.ovr || s.busy) := by
  obtain ⟨hbusy, rfl⟩ | ⟨hidle, hcases⟩ := writeCmd_cases h
  · rw [hbusy, Bool.or_true, rejectOverrun_ovr]
  · rw [(busy_eq_false_iff s).2 hidle, Bool.or_false]
    obtain ⟨_, rfl⟩ | ⟨_, rfl⟩ | ⟨_, _, hexec⟩ := hcases
    · exact recordFault_ovr _ w s
    · exact recordFault_ovr _ w s
    · exact ovr_exec hexec

/-- Of what a CTRL write does, only SOFT_RESET touches OVR (R221). -/
theorem ovr_writeCtrl (v : Word) (s : State) : writeCtrl v s = blockReset s ∨ (writeCtrl v s).ovr = s.ovr := by
  obtain h | h | ⟨hbusy, h⟩ := writeCtrl_cases v s
  · exact Or.inl h
  · rw [h]; exact Or.inr rfl
  · rw [h]; exact Or.inr (ovr_abortCommand hbusy)

/-! ## What clears OVR -/

/-- A host transaction that clears OVR is a SOFT_RESET or a STATUS write with bit 3 set. -/
theorem hostTransact_clears_ovr {req : HostReq} {s t : State} (h : hostTransact exec req s = .next t)
    (hset : s.ovr = true) (hclear : t.ovr = false) :
    t = { State.reset with env := t.env } ∨ ∃ v, req = .write 0x0C#8 v 0xF#4 ∧ v.getLsbD 3 = true := by
  have hkept : t.ovr ≠ s.ovr := by rw [hset, hclear]; decide
  obtain ⟨r, rfl | hop | ⟨v, _, rfl⟩ | ⟨v, rfl, rfl⟩ | ⟨w, _, hcmd⟩⟩ := hostTransact_cases h
  · exact absurd (respond_ovr r s) hkept
  · exact absurd (ovr_of_operandWrite hop) hkept
  · obtain hreset | hovr := ovr_writeCtrl v (respond r s)
    · rw [hreset]; exact Or.inl rfl
    · exact absurd hovr hkept
  · rw [writeStatus_ovr, respond_ovr, hset, Bool.true_and, Bool.not_eq_false'] at hclear
    exact Or.inr ⟨v, rfl, hclear⟩
  · have hovr := ovr_writeCmd hcmd
    rw [respond_ovr, hset, Bool.true_or, hclear] at hovr
    cases hovr

/-- A step that clears OVR is a reset or takes a STATUS write with bit 3 set (R249). -/
theorem step_clears_ovr {s t : State} (h : step s = .next t) (hset : s.ovr = true) (hclear : t.ovr = false) :
    t = { State.reset with env := t.env } ∨
      ∃ v rest, s.env.requests = .write 0x0C#8 v 0xF#4 :: rest ∧ v.getLsbD 3 = true := by
  have hkept : t.ovr ≠ s.ovr := by rw [hset, hclear]; decide
  obtain ⟨_, rfl | rfl⟩ | ⟨_, hcases⟩ := step_cases h
  · exact absurd rfl hkept
  · exact absurd rfl hkept
  obtain rfl | ⟨_, _, _, _, _, _, hexec⟩ | ⟨_, req, hreq, hhost⟩ | rfl | rfl | rfl := hcases
  · exact absurd rfl hkept
  · exact absurd (ovr_exec hexec) hkept
  · obtain hreset | ⟨v, rfl, hbit⟩ := hostTransact_clears_ovr hhost hset hclear
    · exact Or.inl hreset
    · obtain ⟨rest, hrest⟩ := List.head?_eq_some_iff.1 hreq
      exact Or.inr ⟨v, rest, hrest, hbit⟩
  · exact absurd (ovr_takeResponse (dropTurn s)) hkept
  · exact absurd (ovr_sinkTransfer (dropTurn s)) hkept
  · exact Or.inl rfl

/-- Settles O9: the step is `rejectOverrun` on the state with its response, and `step_clears_ovr` lists what clears. -/
theorem overrunOnlySetsOvr : Obligations.OverrunOnlySetsOvr := by
  refine ⟨fun s w rest ts hrst hrsp hbusy hturns hreq => ?_, fun s t => step_clears_ovr⟩
  exact ⟨_, step_overrun hrst hrsp hbusy hturns hreq, rfl⟩

end Sys2Proof.OverrunRules
end

section
/-! O34 to O36 and O51: reset (70_reset_and_hazards.md R270 to R272). The reset state's table lists no entry, so each reads as its
reset content. A step with `rst_n` low is the held turn, which only the rise of `rst_n` makes more than taking the turn. -/

namespace Sys2Proof.ResetRules

open Sys2Proof Sys2Proof.Machine Sys2Proof.Statements Sys2Proof.StepRules Sys2Proof.BusRules
open Sys2Proof.RenderRules (step_of_turn)
open Sys2Proof.ControlRules (step_host writeCtrl_softReset)

/-! ## The reset state -/

theorem readReg_reset (r : Reg) : readReg r State.reset = resetValue r := by
  cases r with
  | ctrl => decide
  | status => decide
  | config => exact configWord_eq
  | _ => rfl

/-- The identity table, whose entry 256 is 0 since an entry is 8 bits (10_state.md R40). -/
theorem read_reset_toNat (k : Nat) : (State.reset.pt.read k).toNat = k % 2 ^ 8 := by
  have hread : State.reset.pt.read k = resetEntry k := read_of_not_listed _ k (List.forall_mem_nil _)
  rw [hread, resetEntry, BitVec.toNat_ofNat]

/-- Settles O34: the registers, the table's entries and the reserved offsets by their lemmas; the rest are the fields. -/
theorem resetValues : Obligations.ResetValues := by
  refine ⟨readReg_reset, fun k hk => ?_, ?_, fun _ ha => readOffset_reserved ha State.reset, rfl, rfl, rfl, rfl⟩
  · exact (read_reset_toNat k).trans (Nat.mod_eq_of_lt (Nat.lt_succ_of_le hk))
  · exact BitVec.eq_of_toNat_eq (read_reset_toNat 256)

/-- Settles O51: the table as O53 has it, the built table, the engine and the stream as after every reset, and `rst_n` high. -/
theorem resetSatisfiesInv : Obligations.ResetSatisfiesInv := by
  obtain ⟨hbuilt, hengine, hstream⟩ := flowOk_reset (t := State.reset) rfl
  exact ⟨(tableOk_iff _).2 wrapTable_reset, hbuilt, hengine, hstream, heldOk_of_high rfl⟩

/-! ## Into reset -/

/-- A full-width CTRL write with SOFT_RESET resets the block and keeps the write's own response (R271, R272). -/
theorem hostTransact_softReset {v : Word} (hreset : v.getLsbD 0 = true) (s : State) :
    hostTransact exec (.write 0x08#8 v 0xF#4) s = .next (blockReset (respond ⟨false, none⟩ s)) :=
  (hostTransact_write_reg exec .ctrl v s).trans (congrArg _ (writeCtrl_softReset hreset))

/-- Settles O35: the turn of the reset source is `assertReset`, the host's is the SOFT_RESET write. -/
theorem resetFromEveryState : Obligations.ResetFromEveryState := by
  refine fun s ts hrst => ⟨fun hturns => ?_, fun v rest hturns hrsp hreset hreq => ?_⟩
  · exact step_of_turn hrst hturns
  · exact (step_host hrst hrsp hturns hreq).trans (hostTransact_softReset hreset _)

/-! ## Held in reset -/

theorem step_held {s : State} (hlow : s.env.rstN = false) :
    step s = .next (heldTurn (s.env.turns.head?.getD .engine) (dropTurn s)) :=
  (step_eq s).trans (if_neg (Bool.eq_false_iff.1 hlow))

theorem heldTurn_of_ne_rise {t : Turn} (h : t ≠ .rstRelease) (s : State) : heldTurn t s = s := by
  cases t with
  | rstRelease => exact absurd rfl h
  | _ => rfl

/-- Settles O36: the held turn, the engine's where nothing is scheduled, is the rise of `rst_n` or changes nothing. -/
theorem heldResetTakesNoStep : Obligations.HeldResetTakesNoStep := by
  refine fun s hlow => ⟨fun hnext => ?_, fun ts hturns => ?_⟩
  · have hturn : s.env.turns.head?.getD .engine ≠ .rstRelease := by
      cases hhead : s.env.turns.head? with
      | none => decide
      | some t => exact fun h => hnext (hhead.trans (congrArg some h))
    exact (step_held hlow).trans (congrArg _ (heldTurn_of_ne_rise hturn _))
  · rw [step_held hlow, dropTurn, hturns]
    rfl

end Sys2Proof.ResetRules
end
